-- ==== Sys2Proof/Word.lean ====
section
/-! DEFINITION. The word types of the core: registers are 32 bits wide (10_state.md R22), the data
buffers hold bytes, bits and symbols (10_state.md R40). -/

namespace Sys2Proof

/-- The contents of one register or one host transaction: 32 bits (10_state.md R22, 20_memory.md R61). -/
abbrev Word := BitVec 32

/-- One byte of PAYLOAD, TABLE or GRID (10_state.md R40). -/
abbrev Byte := BitVec 8

/-- A bitstring: index 0 is the first, leftmost bit (00_scope.md R11). -/
abbrev Bitstring := List Bool

/-- A Symbol is an unsigned integer of `SYM_W = 8 * SYM_BYTES` bits, at most 32 (00_scope.md R6, R15).
It is held zero-extended to 32 bits, the form in which the window shows it (20_memory.md R71;
log entry 14). -/
abbrev Symbol := BitVec 32

/-- `NONE = 0xFFFFFFFF`: the handle of no node (10_state.md R22, R43). -/
def noHandle : Word := 0xFFFFFFFF#32

/-- Kind of a tree node: 0 leaf, 1 internal (10_state.md R43). -/
inductive NodeKind where
  | leaf
  | internal
  deriving DecidableEq, Repr, Inhabited

/-- One entry of FREQ (10_state.md R40, R42). -/
structure FreqEntry where
  sym : Symbol
  count : Word
  deriving DecidableEq, Repr, Inhabited

/-- One node of TREE (10_state.md R40, R43). -/
structure TreeNode where
  kind : NodeKind
  freq : Word
  sym : Symbol
  left : Word
  right : Word
  deriving DecidableEq, Repr, Inhabited

/-- One entry of CODETAB (10_state.md R40, R44). -/
structure CodeEntry where
  sym : Symbol
  code : Bitstring
  deriving DecidableEq, Repr, Inhabited

end Sys2Proof
end

