-- ==== Sys2Proof/Config.lean ====
section
/-! DEFINITION. What an implementation of the core fixes (00_scope.md R6, R7), and the free values: what the
spec leaves open, as constants with no body. -/

namespace Sys2Proof

/-- The parameter record of 00_scope.md R6. `MAX_NODES` is not independent (`Params.maxNodes`). -/
structure Params where
  /-- `SYM_BYTES`: bytes of one Symbol -/
  symBytes : Nat
  /-- `MAX_TEXT`: capacity of TEXT in symbols -/
  maxText : Nat
  /-- `MAX_SYMS`: capacity of FREQ and CODETAB in entries -/
  maxSyms : Nat
  /-- `MAX_BITS`: capacity of BITS in bits -/
  maxBits : Nat
  /-- `MAX_PAYLOAD`: capacity of PAYLOAD in bytes -/
  maxPayload : Nat
  /-- `MAX_TABLE`: capacity of TABLE in bytes -/
  maxTable : Nat
  /-- `MAX_ROWS`: capacity of GRID in rows of 9 bytes -/
  maxRows : Nat
  deriving DecidableEq, Repr

/-- `SYM_W = 8 * SYM_BYTES` (00_scope.md R6). -/
def Params.symW (p : Params) : Nat := 8 * p.symBytes

/-- `MAX_NODES = 2 * MAX_SYMS - 1` (00_scope.md R6). -/
def Params.maxNodes (p : Params) : Nat := 2 * p.maxSyms - 1

/-- The reference values of 00_scope.md R6. -/
def Params.reference : Params where
  symBytes := 1
  maxText := 65536
  maxSyms := 256
  maxBits := 2 ^ 24
  maxPayload := 2 ^ 21
  maxTable := 2 ^ 16
  maxRows := 2 ^ 18

namespace Config

/-- `ROW_BYTES` (00_scope.md R7). -/
def rowBytes : Nat := 9

/-- `PIXELS`, pixels of a row (00_scope.md R7). -/
def pixels : Nat := 3

/-- `CHANNELS`, channels of a pixel (00_scope.md R7). -/
def channels : Nat := 3

/-- `RADIX` of the header digits (00_scope.md R7). -/
def radix : Nat := 255

/-- `HDR_DIGITS`, digits of one header length (00_scope.md R7). -/
def hdrDigits : Nat := 4

/-- `LEN_LIMIT = 255^4`, the smallest length four digits cannot hold (00_scope.md R7). -/
def lenLimit : Nat := radix ^ hdrDigits

/-! Free values: the contents of buffer elements that nothing has written since the `epoch`-th hardware
reset (10_state.md R49, R55; 70_reset_and_hazards.md R251, R255; V1 to V3 of 93_implementation_defined.md).
Log entry 5. First argument: the epoch; second: the element's index. -/

opaque unwrittenText : Nat → Nat → Symbol
opaque unwrittenFreq : Nat → Nat → FreqEntry
opaque unwrittenTree : Nat → Nat → TreeNode
opaque unwrittenCode : Nat → Nat → CodeEntry
opaque unwrittenBit : Nat → Nat → Bool
opaque unwrittenPayload : Nat → Nat → Byte
opaque unwrittenTable : Nat → Nat → Byte
opaque unwrittenGrid : Nat → Nat → Byte

/-- Free value: what a host read other than of STATUS returns while `BUSY = 1` (20_memory.md R64; V5 of
93_implementation_defined.md), at the counter `State.turn`. Log entry 7. -/
opaque busyReadValue : Nat → Word

/-- Free choice: whether the engine step comes before the host's next action, when both could come next
(60_exceptions.md R234; V6 of 93_implementation_defined.md), at the counter `State.turn`. Log entry 2. -/
opaque engineFirst : Nat → Bool

end Config

end Sys2Proof
end

