-- ==== Sys2Proof/Syntax.lean ====
section
/-! DEFINITION. The 18 commands of the core, one constructor per row of spec/opcode_table.json
(30_encoding.md R91). A command has no operand and no immediate (30_encoding.md R93). -/

namespace Sys2Proof

/-- A command: this hardware's instruction (00_scope.md R16, 30_encoding.md R91). -/
inductive Instr where
  | nop
  | analyze
  | buildTree
  | genCodes
  | encBits
  | pad
  | toBytes
  | serTable
  | gridPack
  | gridUnpack
  | deserTable
  | toBits
  | unpad
  | decBits
  | compress
  | decompress
  | clrStatus
  | softReset
  deriving DecidableEq, Repr

end Sys2Proof
end

