-- ==== Sys2Proof/WellFormed.lean ====
section
/-! DEFINITION. What the spec asks of a parameter record (00_scope.md R6), of a command word
(30_encoding.md R90, R91) and of a command. -/

namespace Sys2Proof

/-- The constraints of the table of 00_scope.md R6, in its order. -/
abbrev Params.wf (p : Params) : Prop :=
  (1 ≤ p.symBytes ∧ p.symBytes ≤ 4) ∧
  (1 ≤ p.maxText ∧ p.maxText ≤ 2 ^ 32 - 1) ∧
  (1 ≤ p.maxSyms ∧ p.maxSyms ≤ 2 ^ p.symW ∧ p.maxSyms ≤ 65536) ∧
  (16 ≤ p.maxBits ∧ p.maxBits ≤ 2 ^ 32 - 1) ∧
  (2 ≤ p.maxPayload ∧ p.maxPayload ≤ 2 ^ 32 - 1) ∧
  (1 ≤ p.maxTable ∧ p.maxTable ≤ 2 ^ 32 - 1) ∧
  (1 ≤ p.maxRows ∧ p.maxRows ≤ 477218588)

/-- The opcodes that 30_encoding.md R94 and 60_exceptions.md R224 leave legal: `0x00` to `0x0D`, `0x10`,
`0x11`, `0x1E`, `0x1F`. -/
abbrev opcodeLegal (b : Byte) : Prop :=
  b.toNat ≤ 0x0D ∨ b = 0x10#8 ∨ b = 0x11#8 ∨ b = 0x1E#8 ∨ b = 0x1F#8

/-- A legal command word: `[31:8]` is 0 and `[7:0]` is a legal opcode (30_encoding.md R90, R94). -/
abbrev commandWordWf (w : Word) : Prop :=
  w.extractLsb' 8 24 = 0#24 ∧ opcodeLegal (w.extractLsb' 0 8)

/-- A command carries no field, so each of the 18 constructors is well formed (30_encoding.md R93). -/
abbrev Instr.wf (i : Instr) : Prop :=
  i ∈ [Instr.nop, .analyze, .buildTree, .genCodes, .encBits, .pad, .toBytes, .serTable, .gridPack,
    .gridUnpack, .deserTable, .toBits, .unpad, .decBits, .compress, .decompress, .clrStatus, .softReset]

end Sys2Proof
end

