-- ==== Sys2Proof/Decode.lean ====
section
/-! DEFINITION. The command word CMD32 (30_encoding.md R90, R91, R94): the decoder, total on every 32-bit
word, and the encoder. A command word is a 32-bit register value moved whole, so no byte order arises
(20_memory.md R72 item 6). -/

namespace Sys2Proof

/-- Why a word is no command (30_encoding.md R94): each becomes `IllegalCommand`. -/
inductive DecodeError where
  /-- bits `[31:8]` are not all 0, whatever the low byte is -/
  | nonzeroField
  /-- bits `[31:8]` are 0 and `[7:0]` is not one of the 18 opcodes -/
  | undefinedOpcode
  deriving DecidableEq, Repr

/-- Field `opcode`, bits `[7:0]` of the command word (30_encoding.md R90). -/
def opcodeField (w : Word) : Byte := w.extractLsb' 0 8

/-- Field `zero`, bits `[31:8]` of the command word (30_encoding.md R90). -/
def zeroField (w : Word) : BitVec 24 := w.extractLsb' 8 24

/-- The opcode map, row by row as 30_encoding.md R91 lists it. -/
def opcodeMap : List (Byte × Instr) :=
  [ (0x00#8, .nop),        (0x01#8, .analyze),     (0x02#8, .buildTree),
    (0x03#8, .genCodes),   (0x04#8, .encBits),     (0x05#8, .pad),
    (0x06#8, .toBytes),    (0x07#8, .serTable),    (0x08#8, .gridPack),
    (0x09#8, .gridUnpack), (0x0A#8, .deserTable),  (0x0B#8, .toBits),
    (0x0C#8, .unpad),      (0x0D#8, .decBits),     (0x10#8, .compress),
    (0x11#8, .decompress), (0x1E#8, .clrStatus),   (0x1F#8, .softReset) ]

/-- The row an opcode selects, if any (30_encoding.md R91). -/
def decodeOpcode (b : Byte) : Option Instr :=
  (opcodeMap.find? fun row => row.1 == b).map Prod.snd

/-- The decoder: a word selects the row whose opcode equals `w[7:0]` provided `w[31:8] = 0`
(30_encoding.md R91, R94). -/
def decode (w : Word) : Except DecodeError Instr :=
  if zeroField w = 0#24 then
    match decodeOpcode (opcodeField w) with
    | some i => .ok i
    | none => .error .undefinedOpcode
  else .error .nonzeroField

/-- The opcode of a command (30_encoding.md R91). -/
def Instr.opcode : Instr → Byte
  | .nop => 0x00#8
  | .analyze => 0x01#8
  | .buildTree => 0x02#8
  | .genCodes => 0x03#8
  | .encBits => 0x04#8
  | .pad => 0x05#8
  | .toBytes => 0x06#8
  | .serTable => 0x07#8
  | .gridPack => 0x08#8
  | .gridUnpack => 0x09#8
  | .deserTable => 0x0A#8
  | .toBits => 0x0B#8
  | .unpad => 0x0C#8
  | .decBits => 0x0D#8
  | .compress => 0x10#8
  | .decompress => 0x11#8
  | .clrStatus => 0x1E#8
  | .softReset => 0x1F#8

/-- The command word of a command: `zext_32(opcode)` (30_encoding.md R91). -/
def encode (i : Instr) : Word := i.opcode.zeroExtend 32

/-- What the decoder reads from a table row's word: every row is one 32-bit word, and the bits above `nbits`
are 0. -/
def decodeTableWord (nbits w : Nat) : Option Instr :=
  match decode (BitVec.ofNat 32 (w % 2 ^ nbits)) with
  | .ok i => some i
  | .error _ => none

end Sys2Proof
end

