-- ==== Sys2Proof/Machine/State.lean ====
section
/-! DEFINITION. The state of the core: the registers of 10_state.md R22, the buffers of R40, the hidden command
latch of R51, and the model's own fields for the host (log entries 1, 2, 4, 5). -/

namespace Sys2Proof.Machine

/-- The contents of one buffer: the elements that have been written since reset, as (index, element) pairs in
rising order of index. `Memory Byte` is a list of `Host.Cell`. What an unlisted index reads as is
`State.textAt`, `State.freqAt`, … of Machine/Ops.lean: a free value. An element of FREQ, TREE or CODETAB is one
whole record (log entry 17). -/
abbrev Memory (α : Type) := List (Nat × α)

/-- The four flags of STATUS; bits `[31:4]` read 0 and have no storage (10_state.md R22, R23). -/
structure Status where
  busy : Bool
  done : Bool
  err : Bool
  residue : Bool
  deriving DecidableEq, Repr

/-- The 18 registers of 10_state.md R22. -/
inductive RegName where
  | cmd | status | errcode | errinfo | stage | textLen | freqN | nodeN | root | codeN
  | bitsLen | payLen | tabLen | gridRows | padcnt | bufSel | bufIdx | bufData
  deriving DecidableEq, Repr

/-- The eight buffers of 10_state.md R40. -/
inductive BufName where
  | text | freq | tree | codetab | bits | payload | table | grid
  deriving DecidableEq, Repr

/-- The eleven fault causes of the core (60_exceptions.md R221). Each is TAKEN by the engine: it ends in a next
state, by `Machine.raiseFault`. -/
inductive Cause where
  | illegalCommand | emptyInput | missingCode | misalignedPadding | invalidSignature | overflow
  | lengthOverflow | badHeaderDigit | gridTruncated | malformedPadding | malformedTable
  deriving DecidableEq, Repr

/-- What the host does next (20_memory.md R61; 30_encoding.md R96; 70_reset_and_hazards.md R250, R263). -/
inductive HostAction where
  /-- `HostRead(off)` -/
  | read (off : Nat)
  /-- `HostWrite(off, v)` -/
  | write (off : Nat) (v : Word)
  /-- the script line `wait`: `HostRead(0x04)` until `BUSY` reads 0 -/
  | wait
  /-- the reset input is asserted and released -/
  | reset
  deriving DecidableEq, Repr

/-- How the model itself stops. -/
inductive Fault where
  /-- Raised by GEN_CODES (alone or inside COMPRESS) when TREE, read from ROOT, is no finite tree of at most
  `NODE_N` levels. 41_huffman_encoder.md R126 says BUILD_TREE never leaves such a TREE and the host cannot
  write one, so no run reaches it. Safe: the model stops where the spec gives no result. Log entry 9. -/
  | treeNotFinite
  deriving DecidableEq, Repr

/-- Why an instruction has no meaning in the model. -/
inductive Refusal where
  /-- Raised only by an arm of `exec` for a command that has no meaning yet, with its mnemonic. Safe. No arm of
  this model raises it. -/
  | notModelled (mnemonic : String)
  deriving DecidableEq, Repr

/-- The state of the core. -/
structure State where
  /-- parameter record of 00_scope.md R6; no step changes it (10_state.md R52; log entry 4) -/
  params : Params
  /-- STATUS (10_state.md R23) -/
  status : Status
  /-- ERRCODE `[7:0]` (10_state.md R26) -/
  errcode : Byte
  /-- ERRINFO (10_state.md R26) -/
  errinfo : Word
  /-- STAGE `[7:0]` (10_state.md R27) -/
  stage : Byte
  /-- TEXT_LEN (10_state.md R28) -/
  textLen : Word
  /-- FREQ_N (10_state.md R29) -/
  freqN : Word
  /-- NODE_N (10_state.md R29) -/
  nodeN : Word
  /-- ROOT (10_state.md R29) -/
  root : Word
  /-- CODE_N (10_state.md R29) -/
  codeN : Word
  /-- BITS_LEN (10_state.md R28) -/
  bitsLen : Word
  /-- PAY_LEN (10_state.md R28) -/
  payLen : Word
  /-- TAB_LEN (10_state.md R28) -/
  tabLen : Word
  /-- GRID_ROWS (10_state.md R28) -/
  gridRows : Word
  /-- PADCNT `[7:0]` (10_state.md R30) -/
  padcnt : Byte
  /-- BUF_SEL `[2:0]` (10_state.md R31) -/
  bufSel : BitVec 3
  /-- BUF_IDX (10_state.md R31) -/
  bufIdx : Word
  /-- CMDLATCH, hidden (10_state.md R51) -/
  cmdLatch : Word
  /-- TEXT (10_state.md R41) -/
  text : Memory Symbol
  /-- FREQ (10_state.md R42) -/
  freq : Memory FreqEntry
  /-- TREE (10_state.md R43) -/
  tree : Memory TreeNode
  /-- CODETAB (10_state.md R44) -/
  codetab : Memory CodeEntry
  /-- BITS (10_state.md R45) -/
  bits : Memory Bool
  /-- PAYLOAD (10_state.md R46) -/
  payload : Memory Byte
  /-- TABLE (10_state.md R47) -/
  table : Memory Byte
  /-- GRID (10_state.md R48) -/
  grid : Memory Byte
  /-- the model's own: the host's actions still to come, oldest first (log entry 1) -/
  inbox : List HostAction
  /-- the model's own: the values the host's reads returned, oldest first (log entry 1) -/
  replies : List Word
  /-- the model's own: number of hardware resets so far (log entry 5) -/
  epoch : Nat
  /-- the model's own: counter of the free choices and free reads of a busy core (log entries 2, 7) -/
  turn : Nat
  deriving DecidableEq, Repr

/-- The state right after hardware reset (10_state.md R55, 70_reset_and_hazards.md R250): every register at its
listed value, no buffer element written. `params` holds the reference values (log entry 4), `cmdLatch` a named
value (log entry 6), the model's own fields are empty (log entry 15). -/
def State.reset : State where
  params := Params.reference
  status := { busy := false, done := false, err := false, residue := false }
  errcode := 0#8
  errinfo := 0#32
  stage := 0#8
  textLen := 0#32
  freqN := 0#32
  nodeN := 0#32
  root := noHandle
  codeN := 0#32
  bitsLen := 0#32
  payLen := 0#32
  tabLen := 0#32
  gridRows := 0#32
  padcnt := 0#8
  bufSel := 0#3
  bufIdx := 0#32
  cmdLatch := 0#32
  text := []
  freq := []
  tree := []
  codetab := []
  bits := []
  payload := []
  table := []
  grid := []
  inbox := []
  replies := []
  epoch := 0
  turn := 0

end Sys2Proof.Machine
end

