-- ==== Sys2Proof/Machine/Flags.lean ====
section
/-! DEFINITION. The four flags of STATUS, the only flags of the core (10_state.md R23): the word the host reads,
and each of the ways they change. -/

namespace Sys2Proof.Machine

/-- One bit as a number. -/
def bit (b : Bool) : Nat := if b then 1 else 0

/-- STATUS as a register: `[0]` BUSY, `[1]` DONE, `[2]` ERR, `[3]` RESIDUE, `[31:4]` 0 (10_state.md R22). -/
def Status.toWord (f : Status) : Word :=
  BitVec.ofNat 32 (bit f.busy + 2 * bit f.done + 4 * bit f.err + 8 * bit f.residue)

/-- The flags when a command is accepted: `DONE <- 0`, `BUSY <- 1` (30_encoding.md R92). -/
def Status.accepted (f : Status) : Status := { f with busy := true, done := false }

/-- The flags when a command completes: `BUSY <- 0`, `DONE <- 1` (60_exceptions.md R235). -/
def Status.completed (f : Status) : Status := { f with busy := false, done := true }

/-- The flags on fault entry: `ERR <- 1`, `BUSY <- 0` (60_exceptions.md R236). -/
def Status.faulted (f : Status) : Status := { f with busy := false, err := true }

/-- The flags after `ERR <- 0` (45_pipeline_and_control.md R206). -/
def Status.errCleared (f : Status) : Status := { f with err := false }

/-- All flags 0 (10_state.md R55), but for BUSY, which the command that clears them still holds
(45_pipeline_and_control.md R207). -/
def Status.cleared (f : Status) : Status :=
  { busy := f.busy, done := false, err := false, residue := false }

/-- `RESIDUE`: 1 when the running prefix that is left is not empty (43_huffman_decoder.md R170, R172). -/
def residueFlag (p : Bitstring) : Bool := decide (0 < p.length)

end Sys2Proof.Machine
end

