-- ==== Sys2Proof/Machine/Ops.lean ====
section
/-! DEFINITION. The shared operations: one buffer (reading and writing elements), the eight buffers of the core,
starting a stage, completing, taking a fault and returning from one, accepting a command, reset. -/

namespace Sys2Proof.Machine

/-! ### One buffer -/

/-- The canonical form of a buffer: indices strictly rising. An unlisted index holds no known value, so no
entry can repeat one. -/
abbrev Memory.wf {α : Type} (m : Memory α) : Prop := (m.map Prod.fst).Pairwise (· < ·)

/-- The element written at index `i`, if one was written. -/
def Memory.get? {α : Type} : Memory α → Nat → Option α
  | [], _ => none
  | (j, w) :: m, i => if i = j then some w else Memory.get? m i

/-- The element at index `i`, where `d` says what an unlisted index reads as. -/
def Memory.read {α : Type} (d : Nat → α) (m : Memory α) (i : Nat) : α := (Memory.get? m i).getD (d i)

/-- Writes one element, keeping the rising order. -/
def Memory.set {α : Type} : Memory α → Nat → α → Memory α
  | [], i, v => [(i, v)]
  | (j, w) :: m, i, v =>
    if i < j then (i, v) :: (j, w) :: m
    else if i = j then (i, v) :: m
    else (j, w) :: Memory.set m i v

/-- The elements of a sequence as cells at indices `i`, `i + 1`, …. -/
def Memory.cells {α : Type} : Nat → List α → Memory α
  | _, [] => []
  | i, v :: vs => (i, v) :: Memory.cells (i + 1) vs

/-- `MemWrite(buf, i, n, s)` with `n = len(s)`: stores the elements of `s` at indices `i .. i + n - 1` and leaves
every other element as it was (00_scope.md R13, 10_state.md R49). -/
def Memory.writeSeq {α : Type} (m : Memory α) (i : Nat) (s : List α) : Memory α :=
  m.filter (fun c => decide (c.1 < i)) ++ Memory.cells i s ++
    m.filter (fun c => decide (i + s.length ≤ c.1))

/-! ### The eight buffers

An element that nothing has written reads as a free value of Config (10_state.md R49, R55;
70_reset_and_hazards.md R255; log entry 5). -/

/-- The low `SYM_W` bits of a word, zero-extended (20_memory.md R71). -/
def maskSym (p : Params) (v : Word) : Symbol := BitVec.ofNat 32 (v.toNat % 2 ^ p.symW)

/-- `TEXT[i]` (10_state.md R41). -/
def State.textAt (s : State) (i : Nat) : Symbol :=
  Memory.read (fun j => maskSym s.params (Config.unwrittenText s.epoch j)) s.text i

/-- `FREQ[i]` (10_state.md R42). -/
def State.freqAt (s : State) (i : Nat) : FreqEntry :=
  Memory.read (fun j => { Config.unwrittenFreq s.epoch j with
    sym := maskSym s.params (Config.unwrittenFreq s.epoch j).sym }) s.freq i

/-- `TREE[h]` (10_state.md R43). -/
def State.treeAt (s : State) (h : Nat) : TreeNode :=
  Memory.read (fun j => { Config.unwrittenTree s.epoch j with
    sym := maskSym s.params (Config.unwrittenTree s.epoch j).sym }) s.tree h

/-- `CODETAB[k]` (10_state.md R44). -/
def State.codeAt (s : State) (k : Nat) : CodeEntry :=
  Memory.read (fun j => { Config.unwrittenCode s.epoch j with
    sym := maskSym s.params (Config.unwrittenCode s.epoch j).sym }) s.codetab k

/-- `BITS[i]` (10_state.md R45). -/
def State.bitAt (s : State) (i : Nat) : Bool := Memory.read (Config.unwrittenBit s.epoch) s.bits i

/-- `PAYLOAD[i]` (10_state.md R46). -/
def State.payloadAt (s : State) (i : Nat) : Byte :=
  Memory.read (Config.unwrittenPayload s.epoch) s.payload i

/-- `TABLE[i]` (10_state.md R47). -/
def State.tableAt (s : State) (i : Nat) : Byte :=
  Memory.read (Config.unwrittenTable s.epoch) s.table i

/-- `GRID[i]`, flat index (10_state.md R48). -/
def State.gridAt (s : State) (i : Nat) : Byte :=
  Memory.read (Config.unwrittenGrid s.epoch) s.grid i

/-- `MemRead(buf, i, n)`, the `n` elements at indices `i .. i + n - 1`, of the buffer whose element `j` is `elem j`
(00_scope.md R13). -/
def memRead {α : Type} (elem : Nat → α) (i n : Nat) : List α := (List.range' i n).map elem

/-- The valid part of TEXT, `TEXT[0 .. TEXT_LEN)`. -/
def State.validText (s : State) : List Symbol := memRead s.textAt 0 s.textLen.toNat

/-- The valid part of FREQ, `FREQ[0 .. FREQ_N)`. -/
def State.validFreq (s : State) : List FreqEntry := memRead s.freqAt 0 s.freqN.toNat

/-- The valid part of CODETAB, `CODETAB[0 .. CODE_N)`. -/
def State.validCodes (s : State) : List CodeEntry := memRead s.codeAt 0 s.codeN.toNat

/-- The valid part of BITS, `BITS[0 .. BITS_LEN)`. -/
def State.validBits (s : State) : Bitstring := memRead s.bitAt 0 s.bitsLen.toNat

/-- The valid part of PAYLOAD, `PAYLOAD[0 .. PAY_LEN)`. -/
def State.validPayload (s : State) : List Byte := memRead s.payloadAt 0 s.payLen.toNat

/-- The valid part of TABLE, `TABLE[0 .. TAB_LEN)`. -/
def State.validTable (s : State) : List Byte := memRead s.tableAt 0 s.tabLen.toNat

/-! ### Faults -/

/-- The fault codes of 60_exceptions.md R221. -/
def Cause.code : Cause → Byte
  | .illegalCommand => 0x01#8
  | .emptyInput => 0x02#8
  | .missingCode => 0x03#8
  | .misalignedPadding => 0x04#8
  | .invalidSignature => 0x05#8
  | .overflow => 0x06#8
  | .lengthOverflow => 0x07#8
  | .badHeaderDigit => 0x08#8
  | .gridTruncated => 0x09#8
  | .malformedPadding => 0x0A#8
  | .malformedTable => 0x0B#8

/-- `ERRINFO` holds `min(x, 0xFFFFFFFF)` (42_bitpacker.md R140; log entry 13). -/
def saturate (x : Nat) : Word := BitVec.ofNat 32 (min x 0xFFFFFFFF)

/-- Fault entry, the one way an exception is taken (60_exceptions.md R236): ERRCODE, ERRINFO, `ERR <- 1`,
`BUSY <- 0`; `DONE` stays and nothing else changes. No state is saved and control goes nowhere. -/
def raiseFault (c : Cause) (info : Nat) (s : State) : State :=
  { s with errcode := c.code, errinfo := saturate info, status := s.status.faulted }

/-- The return from a fault (45_pipeline_and_control.md R206, 60_exceptions.md R237): `ERR`, ERRCODE and ERRINFO
cleared, all data kept. -/
def clearFault (s : State) : State :=
  { s with status := s.status.errCleared, errcode := 0#8, errinfo := 0#32 }

/-! ### Running a command -/

/-- How the pseudocode of one primitive or control command ends: at its last line, at a `raise`, or where the
model itself stops. A raise carries no state: the command has written nothing (41_huffman_encoder.md R120). -/
inductive Result where
  | ok (s : State)
  | raise (c : Cause) (info : Nat)
  | stuck (f : Fault)

/-- Where a command stands after some of its stages: still running, ended by a fault entry, or stopped. -/
inductive Progress where
  | running (s : State)
  | faulted (s : State)
  | stopped (f : Fault)

/-- The start of a primitive or control command: `REG.STAGE <- opcode` (10_state.md R27). -/
def startStage (op : Byte) (s : State) : State := { s with stage := op }

/-- One primitive or control command, alone or as a stage of a composite: it starts, its pseudocode `body` runs on
the state as it is then, and a raise is taken at once (41_huffman_encoder.md R120, 45_pipeline_and_control.md R200,
60_exceptions.md R236). -/
def runStage (op : Byte) (body : State → Result) (s : State) : Progress :=
  match body (startStage op s) with
  | .ok t => .running t
  | .raise c info => .faulted (raiseFault c info (startStage op s))
  | .stuck f => .stopped f

/-- The next stage runs only if no earlier one ended the command (45_pipeline_and_control.md R200). -/
def Progress.andThen (p : Progress) (stage : State → Progress) : Progress :=
  match p with
  | .running s => stage s
  | .faulted s => .faulted s
  | .stopped f => .stopped f

/-- Completion: `BUSY <- 0`, `DONE <- 1` (60_exceptions.md R235). -/
def complete (s : State) : State := { s with status := s.status.completed }

/-- The end of a command: completion, the fault entry that was taken, or the model's stop
(60_exceptions.md R234). -/
def Progress.finish : Progress → Host.Outcome State Fault Refusal
  | .running s => .next (complete s)
  | .faulted s => .next s
  | .stopped f => .fault f

/-! ### Accepting a command, and reset -/

/-- `HostWrite(0x00, w)` (30_encoding.md R92): dropped while BUSY; dropped while ERR unless the word is exactly
CLR_STATUS or SOFT_RESET; otherwise accepted, whatever the word is. ERR is not written here: the accepted command
clears it, in the same step (`settle`; log entry 8). -/
def accept (w : Word) (s : State) : State :=
  if s.status.busy then s
  else if s.status.err ∧ ¬ (w = 0x0000001E#32 ∨ w = 0x0000001F#32) then s
  else { s with status := s.status.accepted, cmdLatch := w }

/-- Every register to its reset value of 10_state.md R55, buffer contents as they are
(45_pipeline_and_control.md R207). BUSY stays until the command completes. -/
def resetRegisters (s : State) : State :=
  { s with
    status := s.status.cleared
    errcode := 0#8
    errinfo := 0#32
    stage := 0#8
    textLen := 0#32
    freqN := 0#32
    nodeN := 0#32
    root := noHandle
    codeN := 0#32
    bitsLen := 0#32
    payLen := 0#32
    tabLen := 0#32
    gridRows := 0#32
    padcnt := 0#8
    bufSel := 0#3
    bufIdx := 0#32 }

/-- Hardware reset (70_reset_and_hazards.md R250, R251; log entry 12): the state of 10_state.md R55, a running
command abandoned, every buffer's contents unspecified afresh. The parameters and what the host has done and will
do stay. -/
def hardwareReset (s : State) : State :=
  { State.reset with
    params := s.params
    inbox := s.inbox
    replies := s.replies
    epoch := s.epoch + 1
    turn := s.turn }

end Sys2Proof.Machine
end

