-- ==== Sys2Proof/Machine/Control.lean ====
section
/-! DEFINITION. The control commands: NOP, CLR_STATUS, SOFT_RESET (45_pipeline_and_control.md R205 to R207). -/

namespace Sys2Proof.Machine

/-- NOP: sets STAGE and completes (45_pipeline_and_control.md R205). -/
def execNop (s : State) : Host.Outcome State Fault Refusal := (runStage 0x00#8 .ok s).finish

/-- CLR_STATUS: the return from a fault (45_pipeline_and_control.md R206). -/
def execClrStatus (s : State) : Host.Outcome State Fault Refusal :=
  (runStage 0x1E#8 (fun t => .ok (clearFault t)) s).finish

/-- SOFT_RESET: every register to its reset value, STAGE among them, then completion
(45_pipeline_and_control.md R207; 90_conflicts.md C8). -/
def execSoftReset (s : State) : Host.Outcome State Fault Refusal :=
  (runStage 0x1F#8 (fun t => .ok (resetRegisters t)) s).finish

end Sys2Proof.Machine
end

