-- ==== Sys2Proof/Machine/Operands.lean ====
section
/-! DEFINITION. The data formats the commands read and write: bits and bytes (00_scope.md R12, 30_encoding.md
R101), base-255 lengths (R104), table records (R108), the grid's header and interleaving
(44_grid_container.md R181, R184, R185). Commands have no encoded operands (30_encoding.md R93). -/

namespace Sys2Proof.Machine

/-! ### Numbers, bits and bytes -/

/-- `ceil_div(a, b)` (00_scope.md R9). -/
def ceilDiv (a b : Nat) : Nat := (a + b - 1) / b

/-- `bin8(v)`: the bits of a byte, most significant first (00_scope.md R12). -/
def bin8 (v : Byte) : Bitstring :=
  [v.getLsbD 7, v.getLsbD 6, v.getLsbD 5, v.getLsbD 4, v.getLsbD 3, v.getLsbD 2, v.getLsbD 1, v.getLsbD 0]

/-- `val` continued from the number `a` of the bits before. -/
def valFrom : Nat → Bitstring → Nat
  | a, [] => a
  | a, b :: bs => valFrom (2 * a + b.toNat) bs

/-- `val(b)`: the first bit is the most significant (00_scope.md R12). -/
def val (b : Bitstring) : Nat := valFrom 0 b

/-- `bytes_of(b)` for a bitstring whose length is a multiple of 8 (30_encoding.md R101); bits after the last
whole group of 8 would be left out. -/
def bytesOf : Bitstring → List Byte
  | b7 :: b6 :: b5 :: b4 :: b3 :: b2 :: b1 :: b0 :: rest =>
    BitVec.ofNat 8 (val [b7, b6, b5, b4, b3, b2, b1, b0]) :: bytesOf rest
  | _ => []

/-- `bits_of(s)` (30_encoding.md R101). -/
def bitsOf (s : List Byte) : Bitstring := s.flatMap bin8

/-! ### Base-255 lengths -/

/-- `digits255(n)`: four base-255 digits, most significant first (30_encoding.md R104). -/
def digits255 (n : Nat) : List Byte :=
  [BitVec.ofNat 8 (n / 255 ^ 3 % 255), BitVec.ofNat 8 (n / 255 ^ 2 % 255), BitVec.ofNat 8 (n / 255 % 255),
    BitVec.ofNat 8 (n % 255)]

/-- `undigits255(d)`: `((d3*255 + d2)*255 + d1)*255 + d0` (30_encoding.md R104). -/
def undigits255 (d : List Byte) : Nat := d.foldl (fun n x => n * 255 + x.toNat) 0

/-! ### Code tables -/

/-- The code of a symbol: that of the first entry with the symbol (42_bitpacker.md R141). -/
def codeOf (tab : List CodeEntry) (x : Symbol) : Option Bitstring :=
  (tab.find? fun e => e.sym = x).map CodeEntry.code

/-- The symbol of a code: that of the first entry with exactly this code (43_huffman_decoder.md R170). -/
def symbolOf (tab : List CodeEntry) (p : Bitstring) : Option Symbol :=
  (tab.find? fun e => e.code = p).map CodeEntry.sym

/-- The `n` bytes of a symbol, most significant first (30_encoding.md R108, 43_huffman_decoder.md R161). -/
def symBytesOf (n : Nat) (x : Symbol) : List Byte :=
  (List.range n).map fun j => BitVec.ofNat 8 (x.toNat / 256 ^ (n - 1 - j))

/-- The record of one entry of CODETAB (30_encoding.md R108, 43_huffman_decoder.md R161). -/
def codeRecord (p : Params) (e : CodeEntry) : List Byte :=
  let len := e.code.length
  let k := ceilDiv len 8
  [BitVec.ofNat 8 (len / 256), BitVec.ofNat 8 (len % 256)] ++
    bytesOf (e.code ++ List.replicate (8 * k - len) false) ++ symBytesOf p.symBytes e.sym

/-! ### The pixel grid -/

/-- The flat index of grid byte `(r, p, c)` (10_state.md R48, 44_grid_container.md R180). -/
def gridIndex (r p c : Nat) : Nat := 9 * r + 3 * p + c

/-- The header row (44_grid_container.md R181). -/
def headerRow (len1 len2 : Nat) : List Byte := digits255 len1 ++ [0#8] ++ digits255 len2

/-- One pass of `interleave` a slot, the slot's number `k` giving its channel `k mod 3`; `n` bounds the passes
(44_grid_container.md R184, R186). -/
def interleaveFrom : Nat → Nat → List Byte → List Byte → List Byte
  | 0, _, _, _ => []
  | n + 1, k, top, bot =>
    match top, bot with
    | [], [] => []
    | t :: ts, [] => t :: interleaveFrom n (k + 1) ts []
    | [], b :: bs => b :: interleaveFrom n (k + 1) [] bs
    | t :: ts, b :: bs =>
      if k % 3 = 2 then b :: interleaveFrom n (k + 1) (t :: ts) bs
      else t :: interleaveFrom n (k + 1) ts (b :: bs)

/-- `interleave(top, bot)` (44_grid_container.md R184). -/
def interleave (top bot : List Byte) : List Byte := interleaveFrom (top.length + bot.length) 0 top bot

/-- The walk of GRID_UNPACK over the slots from number `k`, with `tl` bytes of `top` and `bl` of `bot` still to
come (44_grid_container.md R186, R188). -/
def deinterleaveFrom : Nat → Nat → Nat → List Byte → List Byte × List Byte
  | _, _, _, [] => ([], [])
  | k, tl, bl, v :: vs =>
    if k % 3 = 2 ∧ 0 < bl then
      let (top, bot) := deinterleaveFrom (k + 1) tl (bl - 1) vs
      (top, v :: bot)
    else if 0 < tl then
      let (top, bot) := deinterleaveFrom (k + 1) (tl - 1) bl vs
      (v :: top, bot)
    else
      let (top, bot) := deinterleaveFrom (k + 1) tl (bl - 1) vs
      (top, v :: bot)

/-- `deinterleave(data, tl, bl)` (44_grid_container.md R186): `(top, bot)`. -/
def deinterleave (data : List Byte) (tl bl : Nat) : List Byte × List Byte := deinterleaveFrom 0 tl bl data

/-- The positions of the header's length digits, in the order they are tested (44_grid_container.md R188). -/
def digitPositions : List Nat := [0, 1, 2, 3, 5, 6, 7, 8]

end Sys2Proof.Machine
end

