-- ==== Sys2Proof/Machine/BitPacker.lean ====
section
/-! DEFINITION. The BitPacker: ENC_BITS, PAD, TO_BYTES, TO_BITS, UNPAD (42_bitpacker.md). -/

namespace Sys2Proof.Machine

/-! ### ENC_BITS (42_bitpacker.md R141) -/

/-- The least index of a symbol that has no entry in the table. -/
def firstMissing (tab : List CodeEntry) (x : List Symbol) : Option Nat :=
  x.findIdx? fun c => (codeOf tab c).isNone

/-- The concatenation of the codes of the symbols, in input order. -/
def encodeText (tab : List CodeEntry) (x : List Symbol) : Bitstring :=
  x.flatMap fun c => (codeOf tab c).getD []

/-- The pseudocode of ENC_BITS. -/
def bodyEncBits (s : State) : Result :=
  match firstMissing s.validCodes s.validText with
  | some i => .raise .missingCode i
  | none =>
    let out := encodeText s.validCodes s.validText
    if out.length > s.params.maxBits then .raise .overflow out.length
    else .ok { s with bits := s.bits.writeSeq 0 out, bitsLen := BitVec.ofNat 32 out.length }

/-- ENC_BITS as a stage. -/
def stageEncBits (s : State) : Progress := runStage 0x04#8 bodyEncBits s

/-- ENC_BITS (42_bitpacker.md R141). -/
def execEncBits (s : State) : Host.Outcome State Fault Refusal := (stageEncBits s).finish

/-! ### PAD (42_bitpacker.md R144) -/

/-- `8 - (L mod 8)`, 1 to 8. -/
def padCount (len : Nat) : Nat := 8 - len % 8

/-- `bin8(p) ++ b ++ rep(0, p)`. -/
def padBits (b : Bitstring) : Bitstring :=
  bin8 (BitVec.ofNat 8 (padCount b.length)) ++ b ++ List.replicate (padCount b.length) false

/-- The pseudocode of PAD. -/
def bodyPad (s : State) : Result :=
  let len := s.bitsLen.toNat
  let p := padCount len
  let new := len + 8 + p
  if new > s.params.maxBits then .raise .overflow new
  else
    .ok { s with
      bits := s.bits.writeSeq 0 (padBits s.validBits)
      bitsLen := BitVec.ofNat 32 new
      padcnt := BitVec.ofNat 8 p }

/-- PAD as a stage. -/
def stagePad (s : State) : Progress := runStage 0x05#8 bodyPad s

/-- PAD (42_bitpacker.md R144). -/
def execPad (s : State) : Host.Outcome State Fault Refusal := (stagePad s).finish

/-! ### TO_BYTES (42_bitpacker.md R147) -/

/-- The pseudocode of TO_BYTES. -/
def bodyToBytes (s : State) : Result :=
  let len := s.bitsLen.toNat
  if len % 8 ≠ 0 then .raise .misalignedPadding len
  else
    let n := len / 8
    if n > s.params.maxPayload then .raise .overflow n
    else .ok { s with payload := s.payload.writeSeq 0 (bytesOf s.validBits), payLen := BitVec.ofNat 32 n }

/-- TO_BYTES as a stage. -/
def stageToBytes (s : State) : Progress := runStage 0x06#8 bodyToBytes s

/-- TO_BYTES (42_bitpacker.md R147). -/
def execToBytes (s : State) : Host.Outcome State Fault Refusal := (stageToBytes s).finish

/-! ### TO_BITS (42_bitpacker.md R150) -/

/-- The pseudocode of TO_BITS. -/
def bodyToBits (s : State) : Result :=
  let n := s.payLen.toNat
  if 8 * n > s.params.maxBits then .raise .overflow (8 * n)
  else .ok { s with bits := s.bits.writeSeq 0 (bitsOf s.validPayload), bitsLen := BitVec.ofNat 32 (8 * n) }

/-- TO_BITS as a stage. -/
def stageToBits (s : State) : Progress := runStage 0x0B#8 bodyToBits s

/-- TO_BITS (42_bitpacker.md R150). -/
def execToBits (s : State) : Host.Outcome State Fault Refusal := (stageToBits s).finish

/-! ### UNPAD (42_bitpacker.md R152) -/

/-- The pseudocode of UNPAD. -/
def bodyUnpad (s : State) : Result :=
  let len := s.bitsLen.toNat
  if len < 8 then .raise .malformedPadding len
  else
    let p := val (memRead s.bitAt 0 8)
    if p > len - 8 then .raise .malformedPadding len
    else
      let b := memRead s.bitAt 8 (len - 8 - p)
      .ok { s with
        bits := s.bits.writeSeq 0 b
        bitsLen := BitVec.ofNat 32 (len - 8 - p)
        padcnt := BitVec.ofNat 8 p }

/-- UNPAD as a stage. -/
def stageUnpad (s : State) : Progress := runStage 0x0C#8 bodyUnpad s

/-- UNPAD (42_bitpacker.md R152). -/
def execUnpad (s : State) : Host.Outcome State Fault Refusal := (stageUnpad s).finish

end Sys2Proof.Machine
end

