-- ==== Sys2Proof/Machine/Decoder.lean ====
section
/-! DEFINITION. The Huffman decoder and the table serializer: SER_TABLE, DESER_TABLE, DEC_BITS
(43_huffman_decoder.md). -/

namespace Sys2Proof.Machine

/-! ### SER_TABLE (43_huffman_decoder.md R161) -/

/-- The concatenated records of a code table, entry 0 first (30_encoding.md R108). -/
def serialize (p : Params) (tab : List CodeEntry) : List Byte := tab.flatMap (codeRecord p)

/-- The pseudocode of SER_TABLE. -/
def bodySerTable (s : State) : Result :=
  let out := serialize s.params s.validCodes
  if out.length > s.params.maxTable then .raise .overflow out.length
  else .ok { s with table := s.table.writeSeq 0 out, tabLen := BitVec.ofNat 32 out.length }

/-- SER_TABLE as a stage. -/
def stageSerTable (s : State) : Progress := runStage 0x07#8 bodySerTable s

/-- SER_TABLE (43_huffman_decoder.md R161). -/
def execSerTable (s : State) : Host.Outcome State Fault Refusal := (stageSerTable s).finish

/-! ### DESER_TABLE (43_huffman_decoder.md R165) -/

/-- The record at the front of `t`, whose offset in TABLE is `pos`, after the entries `tab`: the entry and the
record's size, or the fault, the causes in the order R165 writes them. -/
def parseRecord (p : Params) (tab : List CodeEntry) (pos : Nat) (t : List Byte) :
    Except (Cause × Nat) (CodeEntry × Nat) :=
  if t.length < 2 then .error (.malformedTable, pos)
  else
    let len := 256 * (t.getD 0 0#8).toNat + (t.getD 1 0#8).toNat
    if len = 0 then .error (.malformedTable, pos)
    else
      let k := ceilDiv len 8
      if 2 + k + p.symBytes > t.length then .error (.malformedTable, pos)
      else
        let cb := bitsOf ((t.drop 2).take k)
        if (cb.drop len).any id then .error (.malformedTable, pos)
        else if tab.any (fun e => e.code = cb.take len) then .error (.malformedTable, pos)
        else if tab.length = p.maxSyms then .error (.overflow, p.maxSyms + 1)
        else
          .ok ({ sym := BitVec.ofNat 32 (val (bitsOf ((t.drop (2 + k)).take p.symBytes))), code := cb.take len },
            2 + k + p.symBytes)

/-- The loop `while pos < n` over the bytes `t` from offset `pos`; `n` bounds the passes. -/
def parseFrom (p : Params) : Nat → List CodeEntry → Nat → List Byte → Except (Cause × Nat) (List CodeEntry)
  | 0, tab, _, _ => .ok tab
  | n + 1, tab, pos, t =>
    if t = [] then .ok tab
    else
      match parseRecord p tab pos t with
      | .error e => .error e
      | .ok (e, size) => parseFrom p n (tab ++ [e]) (pos + size) (t.drop size)

/-- The entries of a serialized table; each record has at least one byte, so there are at most as many as bytes. -/
def deserialize (p : Params) (t : List Byte) : Except (Cause × Nat) (List CodeEntry) :=
  parseFrom p t.length [] 0 t

/-- The pseudocode of DESER_TABLE. -/
def bodyDeserTable (s : State) : Result :=
  match deserialize s.params s.validTable with
  | .error (c, info) => .raise c info
  | .ok tab => .ok { s with codetab := s.codetab.writeSeq 0 tab, codeN := BitVec.ofNat 32 tab.length }

/-- DESER_TABLE as a stage. -/
def stageDeserTable (s : State) : Progress := runStage 0x0A#8 bodyDeserTable s

/-- DESER_TABLE (43_huffman_decoder.md R165). -/
def execDeserTable (s : State) : Host.Outcome State Fault Refusal := (stageDeserTable s).finish

/-! ### DEC_BITS (43_huffman_decoder.md R170) -/

/-- The scan of a bitstring with running prefix `p`: the symbols emitted and the running prefix at the end. -/
def decodeFrom (tab : List CodeEntry) : Bitstring → Bitstring → List Symbol × Bitstring
  | p, [] => ([], p)
  | p, b :: bs =>
    match symbolOf tab (p ++ [b]) with
    | some x =>
      let (out, rest) := decodeFrom tab [] bs
      (x :: out, rest)
    | none => decodeFrom tab (p ++ [b]) bs

/-- The scan of a whole bitstring. -/
def decodeBits (tab : List CodeEntry) (b : Bitstring) : List Symbol × Bitstring := decodeFrom tab [] b

/-- The pseudocode of DEC_BITS. -/
def bodyDecBits (s : State) : Result :=
  let (out, p) := decodeBits s.validCodes s.validBits
  if out.length > s.params.maxText then .raise .overflow out.length
  else
    .ok { s with
      text := s.text.writeSeq 0 out
      textLen := BitVec.ofNat 32 out.length
      status := { s.status with residue := residueFlag p } }

/-- DEC_BITS as a stage. -/
def stageDecBits (s : State) : Progress := runStage 0x0D#8 bodyDecBits s

/-- DEC_BITS (43_huffman_decoder.md R170). -/
def execDecBits (s : State) : Host.Outcome State Fault Refusal := (stageDecBits s).finish

end Sys2Proof.Machine
end

