-- ==== Sys2Proof/Machine/Encoder.lean ====
section
/-! DEFINITION. The Huffman encoder: ANALYZE, BUILD_TREE, GEN_CODES (41_huffman_encoder.md). -/

namespace Sys2Proof.Machine

/-! ### ANALYZE (41_huffman_encoder.md R121) -/

/-- Adds 1 to the count of the entry with symbol `x`, if there is one. Counts are words (10_state.md R42; log
entry 10). -/
def countSymbol (x : Symbol) : List FreqEntry → Option (List FreqEntry)
  | [] => none
  | e :: f =>
    if e.sym = x then some ({ e with count := e.count + 1#32 } :: f)
    else (countSymbol x f).map (e :: ·)

/-- The loop over the text from index `i`, with the entries `f` so far; an error is the index of the first
symbol that finds no room. -/
def countFrom (maxSyms : Nat) : Nat → List FreqEntry → List Symbol → Except Nat (List FreqEntry)
  | _, f, [] => .ok f
  | i, f, x :: xs =>
    match countSymbol x f with
    | some f' => countFrom maxSyms (i + 1) f' xs
    | none =>
      if f.length = maxSyms then .error i
      else countFrom maxSyms (i + 1) (f ++ [{ sym := x, count := 1#32 }]) xs

/-- The pseudocode of ANALYZE. -/
def bodyAnalyze (s : State) : Result :=
  match countFrom s.params.maxSyms 0 [] s.validText with
  | .error i => .raise .overflow i
  | .ok f => .ok { s with freq := s.freq.writeSeq 0 f, freqN := BitVec.ofNat 32 f.length }

/-- ANALYZE as a stage. -/
def stageAnalyze (s : State) : Progress := runStage 0x01#8 bodyAnalyze s

/-- ANALYZE (41_huffman_encoder.md R121). -/
def execAnalyze (s : State) : Host.Outcome State Fault Refusal := (stageAnalyze s).finish

/-! ### BUILD_TREE (41_huffman_encoder.md R125) -/

/-- The leaf of a FREQ entry. -/
def leafNode (e : FreqEntry) : TreeNode where
  kind := .leaf
  freq := e.count
  sym := e.sym
  left := noHandle
  right := noHandle

/-- `nodes[h].freq`. -/
def nodeFreq (nodes : List TreeNode) (h : Nat) : Nat := (nodes.getD h default).freq.toNat

/-- Pair `(nodes[g].freq, g)` is below pair `(nodes[h].freq, h)`, compared lexicographically. -/
def keyLess (nodes : List TreeNode) (g h : Nat) : Bool :=
  decide (nodeFreq nodes g < nodeFreq nodes h ∨ (nodeFreq nodes g = nodeFreq nodes h ∧ g < h))

/-- The handle with the least pair among `best` and the list. -/
def leastFrom (nodes : List TreeNode) : Nat → List Nat → Nat
  | best, [] => best
  | best, h :: hs => leastFrom nodes (if keyLess nodes h best then h else best) hs

/-- Takes the live handle with the least pair out of the live set. -/
def popLeast (nodes : List TreeNode) : List Nat → Option (Nat × List Nat)
  | [] => none
  | h :: hs =>
    let a := leastFrom nodes h hs
    some (a, (h :: hs).erase a)

/-- The internal node over `a` (popped first: left) and `b` (right). Its freq is a word (10_state.md R43; log
entry 10). -/
def mergedNode (nodes : List TreeNode) (a b : Nat) : TreeNode where
  kind := .internal
  freq := BitVec.ofNat 32 (nodeFreq nodes a + nodeFreq nodes b)
  sym := 0#32
  left := BitVec.ofNat 32 a
  right := BitVec.ofNat 32 b

/-- The loop `while |live| >= 2`, of at most `n` passes: the nodes and the live set it ends with. -/
def mergeLoop : Nat → List TreeNode → List Nat → List TreeNode × List Nat
  | 0, nodes, live => (nodes, live)
  | n + 1, nodes, live =>
    match popLeast nodes live with
    | none => (nodes, live)
    | some (a, live1) =>
      match popLeast nodes live1 with
      | none => (nodes, live)
      | some (b, live2) => mergeLoop n (nodes ++ [mergedNode nodes a b]) (live2 ++ [nodes.length])

/-- The arena and the live set when the loop over the frequency list `f` has ended. -/
def buildTree (f : List FreqEntry) : List TreeNode × List Nat :=
  mergeLoop f.length (f.map leafNode) (List.range f.length)

/-- The pseudocode of BUILD_TREE. -/
def bodyBuildTree (s : State) : Result :=
  if s.freqN = 0#32 then .raise .emptyInput 0
  else
    let (nodes, live) := buildTree s.validFreq
    .ok { s with
      tree := s.tree.writeSeq 0 nodes
      nodeN := BitVec.ofNat 32 nodes.length
      root := BitVec.ofNat 32 (live.headD 0) }

/-- BUILD_TREE as a stage. -/
def stageBuildTree (s : State) : Progress := runStage 0x02#8 bodyBuildTree s

/-- BUILD_TREE (41_huffman_encoder.md R125). -/
def execBuildTree (s : State) : Host.Outcome State Fault Refusal := (stageBuildTree s).finish

/-! ### GEN_CODES (41_huffman_encoder.md R130) -/

/-- `walk(h, p)`: the entries of the leaves under handle `h`, left subtree first, `p` the path to it. `n` bounds
the levels; `none` where the arena under `h` is no tree of at most `n` levels (log entry 9). -/
def walk (node : Nat → TreeNode) : Nat → Nat → Bitstring → Option (List CodeEntry)
  | 0, _, _ => none
  | n + 1, h, p =>
    match (node h).kind with
    | .leaf => some [{ sym := (node h).sym, code := p }]
    | .internal =>
      match walk node n (node h).left.toNat (p ++ [false]), walk node n (node h).right.toNat (p ++ [true]) with
      | some l, some r => some (l ++ r)
      | _, _ => none

/-- The code table of the tree with root `r`: the single leaf gets the code "0" (41_huffman_encoder.md R130). -/
def codesOfTree (node : Nat → TreeNode) (n r : Nat) : Option (List CodeEntry) :=
  match (node r).kind with
  | .leaf => some [{ sym := (node r).sym, code := [false] }]
  | .internal => walk node n r []

/-- The pseudocode of GEN_CODES. -/
def bodyGenCodes (s : State) : Result :=
  if s.nodeN = 0#32 then .raise .emptyInput 0
  else
    match codesOfTree s.treeAt s.nodeN.toNat s.root.toNat with
    | none => .stuck .treeNotFinite
    | some tab => .ok { s with codetab := s.codetab.writeSeq 0 tab, codeN := BitVec.ofNat 32 tab.length }

/-- GEN_CODES as a stage. -/
def stageGenCodes (s : State) : Progress := runStage 0x03#8 bodyGenCodes s

/-- GEN_CODES (41_huffman_encoder.md R130). -/
def execGenCodes (s : State) : Host.Outcome State Fault Refusal := (stageGenCodes s).finish

end Sys2Proof.Machine
end

