-- ==== Sys2Proof/Machine/Grid.lean ====
section
/-! DEFINITION. The grid container: GRID_PACK, GRID_UNPACK (44_grid_container.md). -/

namespace Sys2Proof.Machine

/-! ### GRID_PACK (44_grid_container.md R182) -/

/-- `ceil_div(len1 + len2, 9) + 1`, exact (44_grid_container.md R182, R188, R193). -/
def rowsNeeded (len1 len2 : Nat) : Nat := ceilDiv (len1 + len2) 9 + 1

/-- The data slots of two byte sequences: `top` is the longer, on equal lengths the payload
(44_grid_container.md R184, R185). -/
def slotData (pay tab : List Byte) : List Byte :=
  if pay.length ≥ tab.length then interleave pay tab else interleave tab pay

/-- All `9 * rows` bytes of the grid: the header row, the data slots, zeros to the end of the last row
(44_grid_container.md R182, R183). -/
def packGrid (pay tab : List Byte) : List Byte :=
  headerRow pay.length tab.length ++ slotData pay tab ++
    List.replicate (9 * (rowsNeeded pay.length tab.length - 1) - (pay.length + tab.length)) 0#8

/-- The pseudocode of GRID_PACK. -/
def bodyGridPack (s : State) : Result :=
  let len1 := s.payLen.toNat
  let len2 := s.tabLen.toNat
  if len1 ≥ Config.lenLimit then .raise .lengthOverflow len1
  else if len2 ≥ Config.lenLimit then .raise .lengthOverflow len2
  else
    let rows := rowsNeeded len1 len2
    if rows > s.params.maxRows then .raise .overflow rows
    else
      .ok { s with
        grid := s.grid.writeSeq 0 (packGrid s.validPayload s.validTable)
        gridRows := BitVec.ofNat 32 rows }

/-- GRID_PACK as a stage. -/
def stageGridPack (s : State) : Progress := runStage 0x08#8 bodyGridPack s

/-- GRID_PACK (44_grid_container.md R182). -/
def execGridPack (s : State) : Host.Outcome State Fault Refusal := (stageGridPack s).finish

/-! ### GRID_UNPACK (44_grid_container.md R188) -/

/-- Splits the data slots into payload and table: the longer length is `top`, on equal lengths the payload
(44_grid_container.md R185, R188). -/
def splitSlots (data : List Byte) (len1 len2 : Nat) : List Byte × List Byte :=
  let (top, bot) := deinterleave data (max len1 len2) (min len1 len2)
  if len1 ≥ len2 then (top, bot) else (bot, top)

/-- The pseudocode of GRID_UNPACK. -/
def bodyGridUnpack (s : State) : Result :=
  let rows := s.gridRows.toNat
  if rows = 0 then .raise .gridTruncated 1
  else if s.gridAt 4 ≠ 0#8 then .raise .invalidSignature (s.gridAt 4).toNat
  else
    match digitPositions.find? (fun j => s.gridAt j = 255#8) with
    | some j => .raise .badHeaderDigit j
    | none =>
      let len1 := undigits255 (memRead s.gridAt 0 4)
      let len2 := undigits255 (memRead s.gridAt 5 4)
      let need := rowsNeeded len1 len2
      if need > rows then .raise .gridTruncated need
      else if len1 > s.params.maxPayload then .raise .overflow len1
      else if len2 > s.params.maxTable then .raise .overflow len2
      else
        let (pay, tab) := splitSlots (memRead s.gridAt 9 (len1 + len2)) len1 len2
        .ok { s with
          payload := s.payload.writeSeq 0 pay
          payLen := BitVec.ofNat 32 len1
          table := s.table.writeSeq 0 tab
          tabLen := BitVec.ofNat 32 len2 }

/-- GRID_UNPACK as a stage. -/
def stageGridUnpack (s : State) : Progress := runStage 0x09#8 bodyGridUnpack s

/-- GRID_UNPACK (44_grid_container.md R188). -/
def execGridUnpack (s : State) : Host.Outcome State Fault Refusal := (stageGridUnpack s).finish

end Sys2Proof.Machine
end

