-- ==== Sys2Proof/Machine/Pipeline.lean ====
section
/-! DEFINITION. The composite commands: COMPRESS, DECOMPRESS (45_pipeline_and_control.md R200 to R203). Each stage
is the primitive of that opcode on the state the stage before it left; the first fault ends the chain and the
effects of the stages before it remain. -/

namespace Sys2Proof.Machine

/-- The encode chain, opcodes 0x01 to 0x08 (45_pipeline_and_control.md R201). -/
def compressChain (s : State) : Progress :=
  (stageAnalyze s).andThen stageBuildTree |>.andThen stageGenCodes |>.andThen stageEncBits
    |>.andThen stagePad |>.andThen stageToBytes |>.andThen stageSerTable |>.andThen stageGridPack

/-- COMPRESS (45_pipeline_and_control.md R201). -/
def execCompress (s : State) : Host.Outcome State Fault Refusal := (compressChain s).finish

/-- The decode chain, opcodes 0x09 to 0x0D (45_pipeline_and_control.md R203). -/
def decompressChain (s : State) : Progress :=
  (stageGridUnpack s).andThen stageDeserTable |>.andThen stageToBits |>.andThen stageUnpad
    |>.andThen stageDecBits

/-- DECOMPRESS (45_pipeline_and_control.md R203). -/
def execDecompress (s : State) : Host.Outcome State Fault Refusal := (decompressChain s).finish

end Sys2Proof.Machine
end

