-- ==== Sys2Proof/Machine/Dispatch.lean ====
section
/-! DEFINITION. The meaning of each command (60_exceptions.md R234): one arm per constructor. -/

namespace Sys2Proof.Machine

def exec (i : Instr) (s : State) : Host.Outcome State Fault Refusal :=
  match i with
  | .nop => Sys2Proof.Machine.execNop s
  | .analyze => Sys2Proof.Machine.execAnalyze s
  | .buildTree => Sys2Proof.Machine.execBuildTree s
  | .genCodes => Sys2Proof.Machine.execGenCodes s
  | .encBits => Sys2Proof.Machine.execEncBits s
  | .pad => Sys2Proof.Machine.execPad s
  | .toBytes => Sys2Proof.Machine.execToBytes s
  | .serTable => Sys2Proof.Machine.execSerTable s
  | .gridPack => Sys2Proof.Machine.execGridPack s
  | .gridUnpack => Sys2Proof.Machine.execGridUnpack s
  | .deserTable => Sys2Proof.Machine.execDeserTable s
  | .toBits => Sys2Proof.Machine.execToBits s
  | .unpad => Sys2Proof.Machine.execUnpad s
  | .decBits => Sys2Proof.Machine.execDecBits s
  | .compress => Sys2Proof.Machine.execCompress s
  | .decompress => Sys2Proof.Machine.execDecompress s
  | .clrStatus => Sys2Proof.Machine.execClrStatus s
  | .softReset => Sys2Proof.Machine.execSoftReset s

end Sys2Proof.Machine
end

