-- ==== Sys2Proof/Machine/HostPort.lean ====
section
/-! DEFINITION. The host port (20_memory.md): the register map, HostRead, HostWrite, the buffer window. -/

namespace Sys2Proof.Machine

/-- The register map (10_state.md R22). -/
def registerMap : List (Nat × RegName) :=
  [ (0x00, .cmd),     (0x04, .status), (0x08, .errcode), (0x0C, .errinfo), (0x10, .stage),   (0x14, .textLen),
    (0x18, .freqN),   (0x1C, .nodeN),  (0x20, .root),    (0x24, .codeN),   (0x28, .bitsLen), (0x2C, .payLen),
    (0x30, .tabLen),  (0x34, .gridRows), (0x38, .padcnt), (0x3C, .bufSel), (0x40, .bufIdx),  (0x44, .bufData) ]

/-- The register at a byte offset; none at an offset that is no multiple of 4 or is 0x48 or above
(20_memory.md R62, R63). -/
def regAt (off : Nat) : Option RegName := (registerMap.find? fun row => row.1 == off).map Prod.snd

/-! ### The window -/

/-- The buffer a value of BUF_SEL selects; 7 is reserved and selects none (20_memory.md R66). -/
def windowBuf (sel : BitVec 3) : Option BufName :=
  match sel.toNat with
  | 0 => some .text
  | 1 => some .freq
  | 2 => some .tree
  | 3 => some .bits
  | 4 => some .payload
  | 5 => some .table
  | 6 => some .grid
  | _ => none

/-- The window size of a buffer, in its units; CODETAB has no window (20_memory.md R66). -/
def windowSize (p : Params) : BufName → Nat
  | .text => p.maxText
  | .freq => 2 * p.maxSyms
  | .tree => 4 * p.maxNodes
  | .codetab => 0
  | .bits => p.maxBits
  | .payload => p.maxPayload
  | .table => p.maxTable
  | .grid => 9 * p.maxRows

/-- Word `i` of the FREQ window (20_memory.md R69). -/
def freqWord (s : State) (i : Nat) : Word :=
  if i % 2 = 0 then (s.freqAt (i / 2)).sym else (s.freqAt (i / 2)).count

/-- `zext_32(kind)`. -/
def kindWord : NodeKind → Word
  | .leaf => 0#32
  | .internal => 1#32

/-- Word `i` of the TREE window (20_memory.md R70). -/
def treeWord (s : State) (i : Nat) : Word :=
  let t := s.treeAt (i / 4)
  match i % 4, t.kind with
  | 0, k => kindWord k
  | 1, _ => t.freq
  | 2, .leaf => t.sym
  | 2, .internal => t.left
  | _, .leaf => 0#32
  | _, .internal => t.right

/-- The unit at index `i` of a buffer, zero-extended to 32 bits (20_memory.md R67, R71). -/
def unitAt (s : State) (b : BufName) (i : Nat) : Word :=
  match b with
  | .text => s.textAt i
  | .freq => freqWord s i
  | .tree => treeWord s i
  | .codetab => 0#32
  | .bits => if s.bitAt i then 1#32 else 0#32
  | .payload => (s.payloadAt i).zeroExtend 32
  | .table => (s.tableAt i).zeroExtend 32
  | .grid => (s.gridAt i).zeroExtend 32

/-- What a read of BUF_DATA returns: the unit at `BUF_IDX` if it is inside the window, else 0
(20_memory.md R67). -/
def windowData (s : State) : Word :=
  match windowBuf s.bufSel with
  | some b => if s.bufIdx.toNat < windowSize s.params b then unitAt s b s.bufIdx.toNat else 0#32
  | none => 0#32

/-- Sets the unit at index `i` of a buffer to the low bits of `v`; FREQ, TREE and CODETAB are not host-writable
(20_memory.md R66, R68, R71). -/
def setUnit (s : State) (b : BufName) (i : Nat) (v : Word) : State :=
  match b with
  | .text => { s with text := s.text.set i (maskSym s.params v) }
  | .freq => s
  | .tree => s
  | .codetab => s
  | .bits => { s with bits := s.bits.set i (v.getLsbD 0) }
  | .payload => { s with payload := s.payload.set i (v.extractLsb' 0 8) }
  | .table => { s with table := s.table.set i (v.extractLsb' 0 8) }
  | .grid => { s with grid := s.grid.set i (v.extractLsb' 0 8) }

/-- `BUF_IDX <- (i + 1) mod 2^32` (20_memory.md R67, R68). -/
def bumpIdx (s : State) : State := { s with bufIdx := s.bufIdx + 1#32 }

/-- A write of BUF_DATA: stored if the index is inside the window, and BUF_IDX moves either way
(20_memory.md R68). -/
def windowStore (v : Word) (s : State) : State :=
  match windowBuf s.bufSel with
  | some b => bumpIdx (if s.bufIdx.toNat < windowSize s.params b then setUnit s b s.bufIdx.toNat v else s)
  | none => bumpIdx s

/-! ### Registers -/

/-- The value a read of a register returns while the core is idle; upper bits of narrow registers read 0
(10_state.md R22, R25). -/
def regValue (s : State) : RegName → Word
  | .cmd => 0#32
  | .status => s.status.toWord
  | .errcode => s.errcode.zeroExtend 32
  | .errinfo => s.errinfo
  | .stage => s.stage.zeroExtend 32
  | .textLen => s.textLen
  | .freqN => s.freqN
  | .nodeN => s.nodeN
  | .root => s.root
  | .codeN => s.codeN
  | .bitsLen => s.bitsLen
  | .payLen => s.payLen
  | .tabLen => s.tabLen
  | .gridRows => s.gridRows
  | .padcnt => s.padcnt.zeroExtend 32
  | .bufSel => s.bufSel.zeroExtend 32
  | .bufIdx => s.bufIdx
  | .bufData => windowData s

/-- The effect of a read of a register: only BUF_DATA has one (20_memory.md R65, R67). -/
def regReadEffect (s : State) : RegName → State
  | .bufData => bumpIdx s
  | .cmd | .status | .errcode | .errinfo | .stage | .textLen | .freqN | .nodeN | .root | .codeN
  | .bitsLen | .payLen | .tabLen | .gridRows | .padcnt | .bufSel | .bufIdx => s

/-- `HostRead(off)`: the value and the state after it. While BUSY only STATUS is read; any other read returns a
free value and has no effect (20_memory.md R61 to R67; log entry 7). -/
def hostRead (off : Nat) (s : State) : Word × State :=
  if s.status.busy then
    if off = 0x04 then (s.status.toWord, s) else (Config.busyReadValue s.turn, s)
  else
    match regAt off with
    | none => (0#32, s)
    | some r => (regValue s r, regReadEffect s r)

/-- A host write to a register of the idle core (10_state.md R22, R28 to R31; 30_encoding.md R92). A length above
the capacity is dropped, and so is a write to a register that is R only (20_memory.md R63). -/
def regWrite (r : RegName) (v : Word) (s : State) : State :=
  match r with
  | .cmd => accept v s
  | .textLen => if v.toNat ≤ s.params.maxText then { s with textLen := v } else s
  | .bitsLen => if v.toNat ≤ s.params.maxBits then { s with bitsLen := v } else s
  | .payLen => if v.toNat ≤ s.params.maxPayload then { s with payLen := v } else s
  | .tabLen => if v.toNat ≤ s.params.maxTable then { s with tabLen := v } else s
  | .gridRows => if v.toNat ≤ s.params.maxRows then { s with gridRows := v } else s
  | .bufSel => { s with bufSel := v.extractLsb' 0 3 }
  | .bufIdx => { s with bufIdx := v }
  | .bufData => windowStore v s
  | .status | .errcode | .errinfo | .stage | .freqN | .nodeN | .root | .codeN | .padcnt => s

/-- `HostWrite(off, v)`: dropped while BUSY and at an offset that is no register (20_memory.md R61 to R64). -/
def hostWrite (off : Nat) (v : Word) (s : State) : State :=
  if s.status.busy then s
  else
    match regAt off with
    | none => s
    | some r => regWrite r v s

/-- A read's value goes to the host. -/
def reply (r : Word × State) : State := { r.2 with replies := r.2.replies ++ [r.1] }

/-- One action of the host. A `wait` that has come to its end has read STATUS with BUSY 0
(30_encoding.md R96; log entry 3). -/
def hostAct (a : HostAction) (s : State) : State :=
  match a with
  | .read off => reply (hostRead off s)
  | .write off v => hostWrite off v s
  | .wait => reply (hostRead 0x04 s)
  | .reset => hardwareReset s

end Sys2Proof.Machine
end

