-- ==== Sys2Proof/Machine/Engine.lean ====
section
/-! DEFINITION. The engine step (60_exceptions.md R234), and which agent moves next (10_state.md R20,
20_memory.md R77; log entries 1, 2, 8, 11). -/

namespace Sys2Proof.Machine

/-- The engine step, enabled when `BUSY = 1`: the latched word's command, or IllegalCommand with the word as
info and STAGE unchanged (60_exceptions.md R224, R234). -/
def engineStep (s : State) : Host.Outcome State Fault Refusal :=
  match decode s.cmdLatch with
  | .ok i => exec i s
  | .error _ => .next (raiseFault .illegalCommand s.cmdLatch.toNat s)

/-- The host's next action is taken from its list. -/
def hostTurn (a : HostAction) (rest : List HostAction) (s : State) : State := hostAct a { s with inbox := rest }

/-- The end of a host action of the idle core. Acceptance (30_encoding.md R92) leaves `BUSY` and `ERR` both 1 only for
CLR_STATUS or SOFT_RESET with `ERR = 1`. 10_state.md R23 lets no two of the flags be 1 at any time, so that command's
engine step is taken at once, before anything sees the flags (log entry 8). -/
def settle (s : State) : Host.Outcome State Fault Refusal :=
  if s.status.busy ∧ s.status.err then engineStep s else .next s

/-- The host acts while the core is busy: the free choice and the free read value of this turn are used up. -/
def busyHostTurn (a : HostAction) (rest : List HostAction) (s : State) : State :=
  { hostTurn a rest s with turn := s.turn + 1 }

/-- One step of the core and its host. Idle and no action to come: nothing is enabled and nothing changes. Idle:
the host's next action, and with it the command that clears a fault, if that is what it starts. Busy and the host
only waits: the engine step. Busy and the host acts: a free choice. -/
def turnStep (s : State) : Host.Outcome State Fault Refusal :=
  match s.status.busy, s.inbox with
  | false, [] => .next s
  | false, a :: rest => settle (hostTurn a rest s)
  | true, [] => engineStep s
  | true, .wait :: _ => engineStep s
  | true, a :: rest =>
    if Config.engineFirst s.turn then engineStep { s with turn := s.turn + 1 }
    else .next (busyHostTurn a rest s)

end Sys2Proof.Machine
end

