-- ==== Sys2Proof/Machine/Step.lean ====
section
/-! DEFINITION. One step of the machine, and the placing of a command word where the next step runs it. -/

namespace Sys2Proof.Machine

/-- One step (60_exceptions.md R234; Machine/Engine.lean). -/
def step (s : State) : Host.Outcome State Fault Refusal := turnStep s

/-- `s` with the command word `w` accepted (30_encoding.md R92) and a host that waits, so that the very next
step is the engine step of that command. The core fetches nothing (10_state.md R24): a command comes from the
host's write to CMD, and this stands for that write (log entry 16). -/
def State.withFetchWord (s : State) (nbits w : Nat) : State :=
  { s with
    status := s.status.accepted
    cmdLatch := BitVec.ofNat 32 (w % 2 ^ nbits)
    inbox := .wait :: s.inbox }

end Sys2Proof.Machine
end

