-- ==== Sys2Proof/Safety.lean ====
section
/-! DEFINITION. The terms statements are written in: how a command ends, the invariant of the core, what each
command may write, which states agree on what is valid, and the spec's formats and structures said a second time,
apart from the functions the meanings use. -/

namespace Sys2Proof.Machine

/-! ### How a command ends -/

/-- `s` after a command with opcode `op` has completed and changed nothing else: `STAGE <- op` (10_state.md R27),
`BUSY <- 0`, `DONE <- 1` (60_exceptions.md R235). -/
abbrev completed (s : State) (op : Byte) : State :=
  { s with stage := op, status := { s.status with busy := false, done := true } }

/-- `s` after a command with opcode `op` has faulted: `STAGE <- op` (10_state.md R27) and fault entry
(60_exceptions.md R236). -/
abbrev faultEnd (s : State) (op code : Byte) (info : Word) : State :=
  { s with
    stage := op
    errcode := code
    errinfo := info
    status := { s.status with busy := false, err := true } }

/-- The host only waits for the core, so no action of its own can come before the engine step. -/
abbrev onlyWaits (s : State) : Prop := s.inbox = [] ∨ s.inbox.head? = some .wait

/-- Commands one after the other, each accepted again (30_encoding.md R92) when the one before it ended well;
a fault ends the chain (45_pipeline_and_control.md R200). -/
def runChain : List Instr → State → Host.Outcome State Fault Refusal
  | [], s => .next s
  | [i], s => exec i s
  | i :: j :: is, s =>
    match exec i s with
    | .next t =>
      if t.status.err then .next t
      else runChain (j :: is) { t with status := { t.status with busy := true, done := false } }
    | .fault f => .fault f
    | .refused r => .refused r

/-! ### The invariant -/

/-- All elements of a buffer are at indices below its capacity. -/
abbrev Memory.below {α : Type} (m : Memory α) (cap : Nat) : Prop := ∀ c ∈ m, c.1 < cap

/-- The eight buffers are in canonical form. -/
abbrev State.buffersCanonical (s : State) : Prop :=
  Memory.wf s.text ∧ Memory.wf s.freq ∧ Memory.wf s.tree ∧ Memory.wf s.codetab ∧
  Memory.wf s.bits ∧ Memory.wf s.payload ∧ Memory.wf s.table ∧ Memory.wf s.grid

/-- Nothing is stored at or beyond a capacity (10_state.md R40). -/
abbrev State.buffersBelow (s : State) : Prop :=
  Memory.below s.text s.params.maxText ∧ Memory.below s.freq s.params.maxSyms ∧
  Memory.below s.tree s.params.maxNodes ∧ Memory.below s.codetab s.params.maxSyms ∧
  Memory.below s.bits s.params.maxBits ∧ Memory.below s.payload s.params.maxPayload ∧
  Memory.below s.table s.params.maxTable ∧ Memory.below s.grid (9 * s.params.maxRows)

/-- Every length is at most the capacity (10_state.md R22, R28). -/
abbrev State.lengthsOk (s : State) : Prop :=
  s.textLen.toNat ≤ s.params.maxText ∧ s.freqN.toNat ≤ s.params.maxSyms ∧
  s.nodeN.toNat ≤ s.params.maxNodes ∧ s.codeN.toNat ≤ s.params.maxSyms ∧
  s.bitsLen.toNat ≤ s.params.maxBits ∧ s.payLen.toNat ≤ s.params.maxPayload ∧
  s.tabLen.toNat ≤ s.params.maxTable ∧ s.gridRows.toNat ≤ s.params.maxRows

/-- At most one of BUSY, DONE, ERR is 1 (10_state.md R23). -/
abbrev State.flagsOk (s : State) : Prop :=
  ¬ (s.status.busy = true ∧ s.status.done = true) ∧ ¬ (s.status.done = true ∧ s.status.err = true) ∧
  ¬ (s.status.busy = true ∧ s.status.err = true)

/-- ERRCODE and ERRINFO are 0 while `ERR = 0`, and ERRCODE is a code of 60_exceptions.md R221 while `ERR = 1`
(10_state.md R26). -/
abbrev State.errRecordOk (s : State) : Prop :=
  (s.status.err = false → s.errcode = 0#8 ∧ s.errinfo = 0#32) ∧
  (s.status.err = true → 1 ≤ s.errcode.toNat ∧ s.errcode.toNat ≤ 0x0B)

/-- STAGE is the opcode of a primitive or control command, never of a composite (10_state.md R27). -/
abbrev State.stageOk (s : State) : Prop :=
  s.stage.toNat ≤ 0x0D ∨ s.stage = 0x1E#8

/-- Every stored symbol has at most `SYM_W` bits (10_state.md R40). -/
abbrev State.symbolsOk (s : State) : Prop :=
  (∀ c ∈ s.text, c.2.toNat < 2 ^ s.params.symW) ∧ (∀ c ∈ s.freq, c.2.sym.toNat < 2 ^ s.params.symW) ∧
  (∀ c ∈ s.tree, c.2.sym.toNat < 2 ^ s.params.symW) ∧ (∀ c ∈ s.codetab, c.2.sym.toNat < 2 ^ s.params.symW)

/-- FREQ as ANALYZE leaves it: symbols pairwise distinct, every count at least 1, and counts that sum to the
length of some text (10_state.md R42, 41_huffman_encoder.md R122). -/
abbrev State.freqOk (s : State) : Prop :=
  (s.validFreq.map FreqEntry.sym).Nodup ∧ (∀ e ∈ s.validFreq, 1 ≤ e.count.toNat) ∧
  (s.validFreq.map fun e => e.count.toNat).sum ≤ s.params.maxText

/-- Node `g` has the child `h`. -/
abbrev hasChild (node : Nat → TreeNode) (g h : Nat) : Prop :=
  (node g).left.toNat = h ∨ (node g).right.toNat = h

/-- TREE as BUILD_TREE leaves it for `n` symbols (10_state.md R43, 41_huffman_encoder.md R126): `2n - 1` nodes,
the first `n` leaves with distinct symbols, the others internal with smaller children, the last the root, and
every other node the child of exactly one node. -/
abbrev State.treeShape (s : State) (n : Nat) : Prop :=
  1 ≤ n ∧ n ≤ s.params.maxSyms ∧ s.nodeN.toNat = 2 * n - 1 ∧ s.root.toNat = 2 * n - 2 ∧
  (∀ h < n, (s.treeAt h).kind = .leaf ∧ (s.treeAt h).left = noHandle ∧ (s.treeAt h).right = noHandle) ∧
  (∀ h < n, ∀ g < n, (s.treeAt h).sym = (s.treeAt g).sym → h = g) ∧
  (∀ h < 2 * n - 1, n ≤ h → (s.treeAt h).kind = .internal ∧ (s.treeAt h).sym = 0#32 ∧
    (s.treeAt h).left.toNat < h ∧ (s.treeAt h).right.toNat < h ∧
    (s.treeAt h).left ≠ (s.treeAt h).right ∧
    (s.treeAt h).freq.toNat = (s.treeAt (s.treeAt h).left.toNat).freq.toNat +
      (s.treeAt (s.treeAt h).right.toNat).freq.toNat) ∧
  (∀ h < 2 * n - 2, ∃ g < 2 * n - 1, n ≤ g ∧ hasChild s.treeAt g h ∧
    ∀ k < 2 * n - 1, n ≤ k → hasChild s.treeAt k h → k = g)

/-- ROOT is NONE exactly when there is no tree (10_state.md R29); otherwise TREE is a tree. -/
def State.treeOk (s : State) : Prop :=
  (s.nodeN = 0#32 ∧ s.root = noHandle) ∨ ∃ n, s.treeShape n

/-- CODETAB as both its producers leave it: every code has 1 to 65535 bits and no code occurs twice
(10_state.md R44, 43_huffman_decoder.md R166). -/
abbrev State.codesOk (s : State) : Prop :=
  (∀ e ∈ s.validCodes, 1 ≤ e.code.length ∧ e.code.length ≤ 65535) ∧ (s.validCodes.map CodeEntry.code).Nodup

/-- The invariant of the core: what reset establishes and every step keeps. -/
structure State.Inv (s : State) : Prop where
  params : s.params.wf
  canonical : s.buffersCanonical
  below : s.buffersBelow
  lengths : s.lengthsOk
  flags : s.flagsOk
  errRecord : s.errRecordOk
  stage : s.stageOk
  symbols : s.symbolsOk
  freqs : s.freqOk
  tree : s.treeOk
  codes : s.codesOk

/-! ### What a command may write -/

/-- The buffers a command writes (30_encoding.md R91, and the Operands line of each command's rule). -/
def outBuffers : Instr → List BufName
  | .nop => []
  | .analyze => [.freq]
  | .buildTree => [.tree]
  | .genCodes => [.codetab]
  | .encBits => [.bits]
  | .pad => [.bits]
  | .toBytes => [.payload]
  | .serTable => [.table]
  | .gridPack => [.grid]
  | .gridUnpack => [.payload, .table]
  | .deserTable => [.codetab]
  | .toBits => [.bits]
  | .unpad => [.bits]
  | .decBits => [.text]
  | .compress => [.freq, .tree, .codetab, .bits, .payload, .table, .grid]
  | .decompress => [.payload, .table, .codetab, .bits, .text]
  | .clrStatus => []
  | .softReset => []

/-- The registers a command writes beside STATUS, ERRCODE, ERRINFO and STAGE (the same rules). -/
def outRegisters : Instr → List RegName
  | .nop => []
  | .analyze => [.freqN]
  | .buildTree => [.nodeN, .root]
  | .genCodes => [.codeN]
  | .encBits => [.bitsLen]
  | .pad => [.bitsLen, .padcnt]
  | .toBytes => [.payLen]
  | .serTable => [.tabLen]
  | .gridPack => [.gridRows]
  | .gridUnpack => [.payLen, .tabLen]
  | .deserTable => [.codeN]
  | .toBits => [.bitsLen]
  | .unpad => [.bitsLen, .padcnt]
  | .decBits => [.textLen]
  | .compress => [.freqN, .nodeN, .root, .codeN, .bitsLen, .padcnt, .payLen, .tabLen, .gridRows]
  | .decompress => [.payLen, .tabLen, .codeN, .bitsLen, .padcnt, .textLen]
  | .clrStatus => []
  | .softReset => [.textLen, .freqN, .nodeN, .root, .codeN, .bitsLen, .payLen, .tabLen, .gridRows, .padcnt,
      .bufSel, .bufIdx]

/-- The commands that write STATUS.RESIDUE (10_state.md R23). -/
def writesResidue : Instr → Bool
  | .decBits | .decompress | .softReset => true
  | .nop | .analyze | .buildTree | .genCodes | .encBits | .pad | .toBytes | .serTable | .gridPack | .gridUnpack
  | .deserTable | .toBits | .unpad | .compress | .clrStatus => false

/-- The composite commands (30_encoding.md R91, kind C). -/
def isComposite : Instr → Bool
  | .compress | .decompress => true
  | .nop | .analyze | .buildTree | .genCodes | .encBits | .pad | .toBytes | .serTable | .gridPack | .gridUnpack
  | .deserTable | .toBits | .unpad | .decBits | .clrStatus | .softReset => false

/-- The two states' buffer `b` reads the same at every index from `n` on. -/
def sameFrom (b : BufName) (n : Nat) (s t : State) : Prop :=
  match b with
  | .text => ∀ i, n ≤ i → t.textAt i = s.textAt i
  | .freq => ∀ i, n ≤ i → t.freqAt i = s.freqAt i
  | .tree => ∀ i, n ≤ i → t.treeAt i = s.treeAt i
  | .codetab => ∀ i, n ≤ i → t.codeAt i = s.codeAt i
  | .bits => ∀ i, n ≤ i → t.bitAt i = s.bitAt i
  | .payload => ∀ i, n ≤ i → t.payloadAt i = s.payloadAt i
  | .table => ∀ i, n ≤ i → t.tableAt i = s.tableAt i
  | .grid => ∀ i, n ≤ i → t.gridAt i = s.gridAt i

/-- The number of valid elements of a buffer (10_state.md R40). -/
def validLength (s : State) : BufName → Nat
  | .text => s.textLen.toNat
  | .freq => s.freqN.toNat
  | .tree => s.nodeN.toNat
  | .codetab => s.codeN.toNat
  | .bits => s.bitsLen.toNat
  | .payload => s.payLen.toNat
  | .table => s.tabLen.toNat
  | .grid => 9 * s.gridRows.toNat

/-- The two states agree on every register, the latch and the parameters, and on every VALID element of every
buffer (10_state.md R49, R55). -/
structure Agree (s u : State) : Prop where
  params : u.params = s.params
  status : u.status = s.status
  errcode : u.errcode = s.errcode
  errinfo : u.errinfo = s.errinfo
  stage : u.stage = s.stage
  textLen : u.textLen = s.textLen
  freqN : u.freqN = s.freqN
  nodeN : u.nodeN = s.nodeN
  root : u.root = s.root
  codeN : u.codeN = s.codeN
  bitsLen : u.bitsLen = s.bitsLen
  payLen : u.payLen = s.payLen
  tabLen : u.tabLen = s.tabLen
  gridRows : u.gridRows = s.gridRows
  padcnt : u.padcnt = s.padcnt
  bufSel : u.bufSel = s.bufSel
  bufIdx : u.bufIdx = s.bufIdx
  cmdLatch : u.cmdLatch = s.cmdLatch
  text : ∀ i < s.textLen.toNat, u.textAt i = s.textAt i
  freq : ∀ i < s.freqN.toNat, u.freqAt i = s.freqAt i
  tree : ∀ i < s.nodeN.toNat, u.treeAt i = s.treeAt i
  codetab : ∀ i < s.codeN.toNat, u.codeAt i = s.codeAt i
  bits : ∀ i < s.bitsLen.toNat, u.bitAt i = s.bitAt i
  payload : ∀ i < s.payLen.toNat, u.payloadAt i = s.payloadAt i
  table : ∀ i < s.tabLen.toNat, u.tableAt i = s.tableAt i
  grid : ∀ i < 9 * s.gridRows.toNat, u.gridAt i = s.gridAt i

/-! ### Structures and formats of the spec -/

/-- `(freq, handle)` of `g` is below that of `h`, lexicographically (41_huffman_encoder.md R125). -/
abbrev lighter (node : Nat → TreeNode) (g h : Nat) : Prop :=
  (node g).freq.toNat < (node h).freq.toNat ∨ ((node g).freq.toNat = (node h).freq.toNat ∧ g < h)

/-- Handle `h` is live when node `g` is made: it exists, and no internal node made before has it as a child
(41_huffman_encoder.md R125). `n` is the number of leaves. -/
abbrev liveWhen (node : Nat → TreeNode) (n g h : Nat) : Prop :=
  h < g ∧ ∀ k < g, n ≤ k → ¬ hasChild node k h

/-- The handle reached from `h` along a path of internal nodes, 0 left and 1 right (41_huffman_encoder.md R130). -/
def follow (node : Nat → TreeNode) : Nat → Bitstring → Option Nat
  | h, [] => some h
  | h, b :: bs =>
    match (node h).kind with
    | .leaf => none
    | .internal => follow node (if b then (node h).right.toNat else (node h).left.toNat) bs

/-- Code `c` is left of code `d`: they part at some bit, `c` with 0 and `d` with 1. Neither is then a prefix of
the other (41_huffman_encoder.md R130, R133). -/
abbrev leftOf (c d : Bitstring) : Prop := ∃ p c' d', c = p ++ false :: c' ∧ d = p ++ true :: d'

/-- No code of the list is a prefix of another (00_scope.md R15). -/
abbrev prefixFree (codes : List Bitstring) : Prop :=
  codes.Pairwise fun c d => ¬ c <+: d ∧ ¬ d <+: c

/-- The bytes `r` are the table record of entry `e` (30_encoding.md R108). -/
abbrev isRecord (p : Params) (e : CodeEntry) (r : List Byte) : Prop :=
  r.length = 2 + ceilDiv e.code.length 8 + p.symBytes ∧
  256 * (r.getD 0 0#8).toNat + (r.getD 1 0#8).toNat = e.code.length ∧
  (∀ j < 8 * ceilDiv e.code.length 8,
    (r.getD (2 + j / 8) 0#8).getLsbD (7 - j % 8) = e.code.getD j false) ∧
  (∀ j < p.symBytes, (r.getD (2 + ceilDiv e.code.length 8 + j) 0#8).toNat =
    e.sym.toNat / 256 ^ (p.symBytes - 1 - j) % 256)

/-- The bytes are the records of the entries, in order and nothing else (30_encoding.md R108). -/
abbrev areRecords (p : Params) (tab : List CodeEntry) (bytes : List Byte) : Prop :=
  ∃ rs, List.Forall₂ (isRecord p) tab rs ∧ bytes = rs.flatten

/-- A code table that DESER_TABLE takes: codes of at least 1 bit, no code twice, symbols of `SYM_W` bits, no more
entries than fit (43_huffman_decoder.md R165, R166). -/
abbrev tableFits (p : Params) (tab : List CodeEntry) : Prop :=
  (∀ e ∈ tab, 1 ≤ e.code.length ∧ e.sym.toNat < 2 ^ p.symW) ∧ (tab.map CodeEntry.code).Nodup ∧
  tab.length ≤ p.maxSyms

/-- How many of the slots before slot `k` hold bytes of `bot`, for lengths `tl` of `top` and `bl` of `bot`
(44_grid_container.md R184). -/
def botBefore (tl bl : Nat) : Nat → Nat
  | 0 => 0
  | k + 1 =>
    let b := botBefore tl bl k
    if (k % 3 = 2 ∧ b < bl) ∨ tl ≤ k - b then b + 1 else b

/-- The byte that slot `k` holds (44_grid_container.md R184, R185): of `top`, the longer of PAYLOAD and TABLE
(PAYLOAD on a tie), or of `bot`. -/
def slotByte (s : State) (len1 len2 k : Nat) : Byte :=
  let tl := max len1 len2
  let bl := min len1 len2
  let b := botBefore tl bl k
  let fromBot : Bool := decide ((k % 3 = 2 ∧ b < bl) ∨ tl ≤ k - b)
  let payloadIsTop : Bool := decide (len1 ≥ len2)
  if fromBot then (if payloadIsTop then s.tableAt b else s.payloadAt b)
  else (if payloadIsTop then s.payloadAt (k - b) else s.tableAt (k - b))

/-- The number that four digits of the header at flat index `j` hold (30_encoding.md R104). -/
def headerField (s : State) (j : Nat) : Nat :=
  (((s.gridAt j).toNat * 255 + (s.gridAt (j + 1)).toNat) * 255 + (s.gridAt (j + 2)).toNat) * 255 +
    (s.gridAt (j + 3)).toNat

end Sys2Proof.Machine
end

