-- ==== Sys2Proof/Certificates/Slice0/Obligations.lean ====
section
/-! DEFINITION. The statements for the provers. Each says what the machine of Machine/ does, in the terms of
Safety.lean; the rule it follows stands in its docstring. -/

open Sys2Proof Sys2Proof.Machine

/-! ### The step -/

/-- 60_exceptions.md R234: while `BUSY = 1` the step runs the command of the latched word. When the host has an
action of its own to come, which of the two moves first is the model's free choice (log entry 2); what that action
does is `BusyCommandUndisturbed`. -/
def Obligations.StepRunsLatchedCommand : Prop :=
  ∀ (s : State) (i : Instr), s.status.busy = true → decode s.cmdLatch = .ok i →
    (onlyWaits s → step s = exec i s) ∧
    (∀ a rest, s.inbox = a :: rest → a ≠ .wait →
      step s = if Config.engineFirst s.turn then exec i { s with turn := s.turn + 1 }
        else .next { hostAct a { s with inbox := rest } with turn := s.turn + 1 })

/-- 60_exceptions.md R224: a latched word that is no command faults IllegalCommand with the word in ERRINFO; STAGE
and everything else stay; and such a word is dropped, not latched, while `ERR = 1`. When the host has an action of
its own to come, which of the two moves first is the model's free choice (log entry 2). -/
def Obligations.IllegalWordFaults : Prop :=
  (∀ s : State, s.status.busy = true → ¬ commandWordWf s.cmdLatch →
    (onlyWaits s → step s = .next { s with
      errcode := 0x01#8, errinfo := s.cmdLatch, status := { s.status with busy := false, err := true } }) ∧
    (∀ a rest, s.inbox = a :: rest → a ≠ .wait →
      step s = if Config.engineFirst s.turn then
          .next { s with
            errcode := 0x01#8, errinfo := s.cmdLatch, status := { s.status with busy := false, err := true }
            turn := s.turn + 1 }
        else .next { hostAct a { s with inbox := rest } with turn := s.turn + 1 })) ∧
  (∀ (s : State) (w : Word), ¬ commandWordWf w → s.status.err = true → hostWrite 0x00 w s = s)

/-- The model's reading of an idle engine (60_exceptions.md R240; log entries 1, 11): with no action to come nothing
changes, otherwise the host's next action is taken. A read is HostRead, its value an answer; a write is HostWrite
(20_memory.md R61), and where it accepts CLR_STATUS or SOFT_RESET with `ERR = 1`, that command runs in the same step
(10_state.md R23; log entry 8); a `wait` has read STATUS (log entry 3); the reset input leaves `State.reset`, with the parameters
and the host's lists kept and the buffers unspecified afresh (70_reset_and_hazards.md R250; log entries 5, 6, 12). -/
def Obligations.IdleCoreServesHost : Prop :=
  ∀ s : State, s.status.busy = false →
    (s.inbox = [] → step s = .next s) ∧
    (∀ a rest, s.inbox = a :: rest →
      let t := hostAct a { s with inbox := rest }
      ¬ (t.status.busy = true ∧ t.status.err = true) → step s = .next t) ∧
    (∀ off rest, s.inbox = .read off :: rest →
      step s = .next { (hostRead off { s with inbox := rest }).2 with
        replies := s.replies ++ [(hostRead off { s with inbox := rest }).1] }) ∧
    (∀ off v rest, s.inbox = .write off v :: rest → (off ≠ 0x00 ∨ s.status.err = false ∨ v ≠ 0x1E#32 ∧ v ≠ 0x1F#32) →
      step s = .next (hostWrite off v { s with inbox := rest })) ∧
    (∀ rest, s.inbox = .write 0x00 0x1E#32 :: rest → s.status.err = true →
      step s = exec .clrStatus (hostWrite 0x00 0x1E#32 { s with inbox := rest })) ∧
    (∀ rest, s.inbox = .write 0x00 0x1F#32 :: rest → s.status.err = true →
      step s = exec .softReset (hostWrite 0x00 0x1F#32 { s with inbox := rest })) ∧
    (∀ rest, s.inbox = .wait :: rest →
      step s = .next { s with inbox := rest, replies := s.replies ++ [s.status.toWord] }) ∧
    (∀ rest, s.inbox = .reset :: rest →
      step s = .next { State.reset with
        params := s.params, inbox := rest, replies := s.replies, epoch := s.epoch + 1, turn := s.turn })

/-- 20_memory.md R80, R64 at the level of the host's actions: whatever the host does while the core is busy, short of
reset, the command and the data it will see stay. A read of STATUS answers the STATUS word, any other read a free
value (log entry 7), a write nothing. Reset abandons the command (70_reset_and_hazards.md R251; log entries 5, 6, 12).
The rest of the list and the answers are the model's own (log entries 1, 2). -/
def Obligations.BusyCommandUndisturbed : Prop :=
  ∀ (s : State) (rest : List HostAction), s.status.busy = true →
    (∀ a, a ≠ .reset → ∃ answers,
      hostAct a { s with inbox := rest } = { s with inbox := rest, replies := s.replies ++ answers }) ∧
    (∀ off, hostAct (.read off) { s with inbox := rest } = { s with
      inbox := rest
      replies := s.replies ++ [if off = 0x04 then s.status.toWord else Config.busyReadValue s.turn] }) ∧
    (∀ off v, hostAct (.write off v) { s with inbox := rest } = { s with inbox := rest }) ∧
    hostAct .wait { s with inbox := rest } =
      { s with inbox := rest, replies := s.replies ++ [s.status.toWord] } ∧
    hostAct .reset { s with inbox := rest } = { State.reset with
      params := s.params, inbox := rest, replies := s.replies, epoch := s.epoch + 1, turn := s.turn }

/-! ### Encoding -/

/-- A word decodes to a command exactly when it is that command's word, and to none exactly when it is one of the
words 30_encoding.md R94 lists as illegal. -/
def Obligations.DecodeInvertsEncode : Prop :=
  (∀ (w : Word) (i : Instr), decode w = .ok i ↔ w = encode i) ∧
  (∀ w : Word, ¬ commandWordWf w ↔ decode w = .error .nonzeroField ∨ decode w = .error .undefinedOpcode)

/-- The 18 words of 30_encoding.md R91, written out (sanity). -/
def Obligations.TableWordsDecode : Prop :=
  decode 0x00000000#32 = .ok .nop ∧ decode 0x00000001#32 = .ok .analyze ∧
  decode 0x00000002#32 = .ok .buildTree ∧ decode 0x00000003#32 = .ok .genCodes ∧
  decode 0x00000004#32 = .ok .encBits ∧ decode 0x00000005#32 = .ok .pad ∧
  decode 0x00000006#32 = .ok .toBytes ∧ decode 0x00000007#32 = .ok .serTable ∧
  decode 0x00000008#32 = .ok .gridPack ∧ decode 0x00000009#32 = .ok .gridUnpack ∧
  decode 0x0000000A#32 = .ok .deserTable ∧ decode 0x0000000B#32 = .ok .toBits ∧
  decode 0x0000000C#32 = .ok .unpad ∧ decode 0x0000000D#32 = .ok .decBits ∧
  decode 0x00000010#32 = .ok .compress ∧ decode 0x00000011#32 = .ok .decompress ∧
  decode 0x0000001E#32 = .ok .clrStatus ∧ decode 0x0000001F#32 = .ok .softReset

/-! ### The host port -/

/-- 30_encoding.md R92. -/
def Obligations.CommandAcceptance : Prop :=
  ∀ (s : State) (w : Word),
    (s.status.busy = true → hostWrite 0x00 w s = s) ∧
    (s.status.busy = false → s.status.err = true → w ≠ 0x1E#32 → w ≠ 0x1F#32 → hostWrite 0x00 w s = s) ∧
    (s.status.busy = false → (s.status.err = false ∨ w = 0x1E#32 ∨ w = 0x1F#32) →
      hostWrite 0x00 w s = { s with cmdLatch := w, status := { s.status with busy := true, done := false } })

/-- 20_memory.md R64. -/
def Obligations.BusyPortDropsAndShields : Prop :=
  ∀ s : State, s.status.busy = true →
    (∀ off v, hostWrite off v s = s) ∧ hostRead 0x04 s = (s.status.toWord, s) ∧
    (∀ off, (hostRead off s).2 = s)

/-- 10_state.md R22, R23: STATUS reads `[0]` BUSY, `[1]` DONE, `[2]` ERR, `[3]` RESIDUE, `[31:4]` 0, busy or idle,
and reading it changes nothing. -/
def Obligations.StatusWordLayout : Prop :=
  ∀ s : State, ∃ v : Word, hostRead 0x04 s = (v, s) ∧
    v.getLsbD 0 = s.status.busy ∧ v.getLsbD 1 = s.status.done ∧ v.getLsbD 2 = s.status.err ∧
    v.getLsbD 3 = s.status.residue ∧ ∀ j, 4 ≤ j → v.getLsbD j = false

/-- 10_state.md R22, 20_memory.md R65: what the idle core answers at each of the offsets of the registers that hold
a value, and that these reads change nothing. -/
def Obligations.RegisterReads : Prop :=
  ∀ s : State, s.status.busy = false →
    hostRead 0x00 s = (0#32, s) ∧ hostRead 0x08 s = (s.errcode.zeroExtend 32, s) ∧
    hostRead 0x0C s = (s.errinfo, s) ∧ hostRead 0x10 s = (s.stage.zeroExtend 32, s) ∧
    hostRead 0x14 s = (s.textLen, s) ∧ hostRead 0x18 s = (s.freqN, s) ∧ hostRead 0x1C s = (s.nodeN, s) ∧
    hostRead 0x20 s = (s.root, s) ∧ hostRead 0x24 s = (s.codeN, s) ∧ hostRead 0x28 s = (s.bitsLen, s) ∧
    hostRead 0x2C s = (s.payLen, s) ∧ hostRead 0x30 s = (s.tabLen, s) ∧ hostRead 0x34 s = (s.gridRows, s) ∧
    hostRead 0x38 s = (s.padcnt.zeroExtend 32, s) ∧ hostRead 0x3C s = (s.bufSel.zeroExtend 32, s) ∧
    hostRead 0x40 s = (s.bufIdx, s)

/-- 20_memory.md R62, R63 (idle core; while busy R64 leaves every read but STATUS open, log entry 7): misaligned and
unmapped offsets, and writes to the registers that are R only. -/
def Obligations.UnmappedAndReadOnly : Prop :=
  ∀ (s : State) (off : Nat) (v : Word),
    (off % 4 ≠ 0 ∨ 0x48 ≤ off → hostWrite off v s = s ∧ (s.status.busy = false → hostRead off s = (0#32, s))) ∧
    (off ∈ [0x04, 0x08, 0x0C, 0x10, 0x18, 0x1C, 0x20, 0x24, 0x38] → hostWrite off v s = s)

/-- 10_state.md R28: a length at most the capacity is stored, a greater one is dropped; no buffer changes. -/
def Obligations.LengthWrites : Prop :=
  ∀ (s : State) (v : Word), s.status.busy = false →
    hostWrite 0x14 v s = (if v.toNat ≤ s.params.maxText then { s with textLen := v } else s) ∧
    hostWrite 0x28 v s = (if v.toNat ≤ s.params.maxBits then { s with bitsLen := v } else s) ∧
    hostWrite 0x2C v s = (if v.toNat ≤ s.params.maxPayload then { s with payLen := v } else s) ∧
    hostWrite 0x30 v s = (if v.toNat ≤ s.params.maxTable then { s with tabLen := v } else s) ∧
    hostWrite 0x34 v s = (if v.toNat ≤ s.params.maxRows then { s with gridRows := v } else s)

/-- 10_state.md R31: BUF_SEL keeps the low three bits, BUF_IDX all 32. -/
def Obligations.WindowPointerWrites : Prop :=
  ∀ (s : State) (v : Word), s.status.busy = false →
    hostWrite 0x3C v s = { s with bufSel := BitVec.ofNat 3 (v.toNat % 8) } ∧
    hostWrite 0x40 v s = { s with bufIdx := v }

/-- 20_memory.md R67, R69, R70, with the window sizes of R66: a read of BUF_DATA returns the unit at BUF_IDX, or 0
beyond the window, and moves BUF_IDX by one. -/
def Obligations.WindowReads : Prop :=
  ∀ s : State, s.status.busy = false → ∃ v : Word,
    hostRead 0x44 s = (v, { s with bufIdx := BitVec.ofNat 32 ((s.bufIdx.toNat + 1) % 2 ^ 32) }) ∧
    (s.bufSel = 0#3 → v = if s.bufIdx.toNat < s.params.maxText then s.textAt s.bufIdx.toNat else 0#32) ∧
    (s.bufSel = 1#3 → ∀ k, 2 * s.params.maxSyms ≤ s.bufIdx.toNat ∧ v = 0#32 ∨
      s.bufIdx.toNat < 2 * s.params.maxSyms ∧
        (s.bufIdx.toNat = 2 * k → v = (s.freqAt k).sym) ∧ (s.bufIdx.toNat = 2 * k + 1 → v = (s.freqAt k).count)) ∧
    (s.bufSel = 2#3 → ∀ h, 4 * (2 * s.params.maxSyms - 1) ≤ s.bufIdx.toNat ∧ v = 0#32 ∨
      s.bufIdx.toNat < 4 * (2 * s.params.maxSyms - 1) ∧
        (s.bufIdx.toNat = 4 * h → v = if (s.treeAt h).kind = .leaf then 0#32 else 1#32) ∧
        (s.bufIdx.toNat = 4 * h + 1 → v = (s.treeAt h).freq) ∧
        (s.bufIdx.toNat = 4 * h + 2 → v = if (s.treeAt h).kind = .leaf then (s.treeAt h).sym else (s.treeAt h).left) ∧
        (s.bufIdx.toNat = 4 * h + 3 → v = if (s.treeAt h).kind = .leaf then 0#32 else (s.treeAt h).right)) ∧
    (s.bufSel = 3#3 → v = if s.bufIdx.toNat < s.params.maxBits ∧ s.bitAt s.bufIdx.toNat = true then 1#32 else 0#32) ∧
    (s.bufSel = 4#3 → v.toNat =
      if s.bufIdx.toNat < s.params.maxPayload then (s.payloadAt s.bufIdx.toNat).toNat else 0) ∧
    (s.bufSel = 5#3 → v.toNat =
      if s.bufIdx.toNat < s.params.maxTable then (s.tableAt s.bufIdx.toNat).toNat else 0) ∧
    (s.bufSel = 6#3 → v.toNat =
      if s.bufIdx.toNat < 9 * s.params.maxRows then (s.gridAt s.bufIdx.toNat).toNat else 0) ∧
    (s.bufSel = 7#3 → v = 0#32)

/-- 20_memory.md R68, R71, with the window sizes of R66: a write of BUF_DATA stores the low bits of the value in the
one unit at BUF_IDX of a host-writable buffer, or nothing, and moves BUF_IDX by one. -/
def Obligations.WindowWrites : Prop :=
  ∀ (s : State) (v : Word), s.status.busy = false → s.buffersCanonical → ∃ t : State,
    hostWrite 0x44 v s = t ∧
    t = { s with
      bufIdx := BitVec.ofNat 32 ((s.bufIdx.toNat + 1) % 2 ^ 32)
      text := t.text, bits := t.bits, payload := t.payload, table := t.table, grid := t.grid } ∧
    (∀ i, (t.textAt i).toNat = if s.bufSel = 0#3 ∧ i = s.bufIdx.toNat ∧ i < s.params.maxText
      then v.toNat % 2 ^ s.params.symW else (s.textAt i).toNat) ∧
    (∀ i, t.bitAt i = if s.bufSel = 3#3 ∧ i = s.bufIdx.toNat ∧ i < s.params.maxBits
      then v.getLsbD 0 else s.bitAt i) ∧
    (∀ i, (t.payloadAt i).toNat = if s.bufSel = 4#3 ∧ i = s.bufIdx.toNat ∧ i < s.params.maxPayload
      then v.toNat % 256 else (s.payloadAt i).toNat) ∧
    (∀ i, (t.tableAt i).toNat = if s.bufSel = 5#3 ∧ i = s.bufIdx.toNat ∧ i < s.params.maxTable
      then v.toNat % 256 else (s.tableAt i).toNat) ∧
    (∀ i, (t.gridAt i).toNat = if s.bufSel = 6#3 ∧ i = s.bufIdx.toNat ∧ i < 9 * s.params.maxRows
      then v.toNat % 256 else (s.gridAt i).toNat)

/-! ### Reset -/

/-- 10_state.md R55: the register values after hardware reset, of `State.reset` and of the reset input asserted in
any state, busy or not (70_reset_and_hazards.md R250). -/
def Obligations.ResetRegisterValues : Prop :=
  ∀ s : State, ∀ t ∈ [State.reset, hostAct .reset s],
    t.status = { busy := false, done := false, err := false, residue := false } ∧
    t.errcode = 0#8 ∧ t.errinfo = 0#32 ∧ t.stage = 0#8 ∧ t.textLen = 0#32 ∧ t.freqN = 0#32 ∧ t.nodeN = 0#32 ∧
    t.codeN = 0#32 ∧ t.bitsLen = 0#32 ∧ t.payLen = 0#32 ∧ t.tabLen = 0#32 ∧ t.gridRows = 0#32 ∧
    t.root = 0xFFFFFFFF#32 ∧ t.padcnt = 0#8 ∧ t.bufSel = 0#3 ∧ t.bufIdx = 0#32

/-! ### Control commands -/

/-- 45_pipeline_and_control.md R205: STAGE and completion, nothing else; not accepted while `ERR = 1`. -/
def Obligations.NopOnlyCompletes : Prop :=
  decode 0x00000000#32 = .ok .nop ∧ (∀ s : State, exec .nop s = .next (completed s 0x00#8)) ∧
  ∀ s : State, s.status.err = true → hostWrite 0x00 0x00000000#32 s = s

/-- 45_pipeline_and_control.md R206: the return from a fault; accepted whatever ERR is. -/
def Obligations.ClrStatusReturnsFromFault : Prop :=
  decode 0x0000001E#32 = .ok .clrStatus ∧
  (∀ s : State, exec .clrStatus s = .next { s with
    stage := 0x1E#8, errcode := 0#8, errinfo := 0#32
    status := { s.status with busy := false, done := true, err := false } }) ∧
  ∀ s : State, s.status.busy = false → hostWrite 0x00 0x0000001E#32 s =
    { s with cmdLatch := 0x0000001E#32, status := { s.status with busy := true, done := false } }

/-- 45_pipeline_and_control.md R207: every register to its reset value but DONE, no buffer touched; accepted whatever
ERR is, and dropped while BUSY (30_encoding.md R92). That CMDLATCH stays is the model's choice (log entry 6): 10_state.md
R55 leaves it unspecified. -/
def Obligations.SoftResetKeepsBuffers : Prop :=
  decode 0x0000001F#32 = .ok .softReset ∧
  (∀ s : State, exec .softReset s = .next { s with
    status := { busy := false, done := true, err := false, residue := false }
    errcode := 0#8, errinfo := 0#32, stage := 0#8, textLen := 0#32, freqN := 0#32, nodeN := 0#32
    root := 0xFFFFFFFF#32, codeN := 0#32, bitsLen := 0#32, payLen := 0#32, tabLen := 0#32, gridRows := 0#32
    padcnt := 0#8, bufSel := 0#3, bufIdx := 0#32 }) ∧
  ∀ s : State, hostWrite 0x00 0x0000001F#32 s = if s.status.busy then s else
    { s with cmdLatch := 0x0000001F#32, status := { s.status with busy := true, done := false } }

/-! ### Huffman encoder -/

/-- 41_huffman_encoder.md R121: one entry per distinct symbol in order of first occurrence, with its count; or
Overflow at the first symbol that finds no room. -/
def Obligations.AnalyzeCountsSymbols : Prop :=
  decode 0x00000001#32 = .ok .analyze ∧
  ∀ s : State,
    (s.validText.eraseDups.length ≤ s.params.maxSyms → ∃ m,
      let t := { completed s 0x01#8 with freq := m, freqN := BitVec.ofNat 32 s.validText.eraseDups.length }
      exec .analyze s = .next t ∧ sameFrom .freq s.validText.eraseDups.length s t ∧
      ∀ k (h : k < s.validText.eraseDups.length), (t.freqAt k).sym = s.validText.eraseDups[k] ∧
        (t.freqAt k).count.toNat = s.validText.count s.validText.eraseDups[k]) ∧
    (∀ i < s.textLen.toNat, (s.validText.take i).eraseDups.length = s.params.maxSyms →
      s.textAt i ∉ s.validText.take i → exec .analyze s = .next (faultEnd s 0x01#8 0x06#8 (BitVec.ofNat 32 i)))

/-- 41_huffman_encoder.md R125: EmptyInput without entries; else leaves copying FREQ, then internal nodes, each over
the lightest live handle (left) and the lightest of the rest (right), with the sum of their frequencies; `2n - 1`
nodes, the last the root. The premise on the sum is what FREQ satisfies after ANALYZE (R122). -/
def Obligations.BuildTreeMergesLightest : Prop :=
  decode 0x00000002#32 = .ok .buildTree ∧
  (∀ s : State, s.freqN = 0#32 → exec .buildTree s = .next (faultEnd s 0x02#8 0x02#8 0#32)) ∧
  (∀ (s : State) (n : Nat), s.params.wf → s.freqN.toNat = n → 1 ≤ n → n ≤ s.params.maxSyms →
    (s.validFreq.map fun e => e.count.toNat).sum < 2 ^ 32 → ∃ m,
      let t := { completed s 0x02#8 with
        tree := m, nodeN := BitVec.ofNat 32 (2 * n - 1), root := BitVec.ofNat 32 (2 * n - 2) }
      exec .buildTree s = .next t ∧ sameFrom .tree (2 * n - 1) s t ∧
      (∀ h < n, t.treeAt h = ⟨.leaf, (s.freqAt h).count, (s.freqAt h).sym, 0xFFFFFFFF#32, 0xFFFFFFFF#32⟩) ∧
      (∀ g < 2 * n - 1, n ≤ g → ∃ a b, t.treeAt g =
          ⟨.internal, BitVec.ofNat 32 ((t.treeAt a).freq.toNat + (t.treeAt b).freq.toNat), 0#32,
            BitVec.ofNat 32 a, BitVec.ofNat 32 b⟩ ∧
        liveWhen t.treeAt n g a ∧ liveWhen t.treeAt n g b ∧ a ≠ b ∧
        (t.treeAt g).freq.toNat = (t.treeAt a).freq.toNat + (t.treeAt b).freq.toNat ∧
        (∀ h, liveWhen t.treeAt n g h → h ≠ a → lighter t.treeAt a h) ∧
        (∀ h, liveWhen t.treeAt n g h → h ≠ a → h ≠ b → lighter t.treeAt b h)))

/-- What BUILD_TREE leaves is a tree (10_state.md R43, 41_huffman_encoder.md R126, which the spec marks derived),
from FREQ as ANALYZE leaves it. -/
def Obligations.BuildTreeLeavesTree : Prop :=
  ∀ s : State, s.params.wf → s.freqN ≠ 0#32 → s.freqN.toNat ≤ s.params.maxSyms → s.freqOk →
    ∃ t, exec .buildTree s = .next t ∧ t.status.err = s.status.err ∧ t.treeShape s.freqN.toNat ∧
      (t.treeAt t.root.toNat).freq.toNat = (s.validFreq.map fun e => e.count.toNat).sum

/-- 41_huffman_encoder.md R130: EmptyInput without a tree; the code "0" for a single leaf; else one entry per leaf,
its code the path to it, entries in left-to-right order. The premise is the shape BUILD_TREE leaves (R126). -/
def Obligations.GenCodesWalksTree : Prop :=
  decode 0x00000003#32 = .ok .genCodes ∧
  (∀ s : State, s.nodeN = 0#32 → exec .genCodes s = .next (faultEnd s 0x03#8 0x02#8 0#32)) ∧
  (∀ (s : State) (n : Nat), s.params.wf → s.treeShape n → ∃ m,
    let t := { completed s 0x03#8 with codetab := m, codeN := BitVec.ofNat 32 n }
    exec .genCodes s = .next t ∧ sameFrom .codetab n s t ∧
    (n = 1 → t.codeAt 0 = ⟨(s.treeAt s.root.toNat).sym, [false]⟩) ∧
    (2 ≤ n →
      (∀ k < n, ∃ h < n, follow s.treeAt s.root.toNat (t.codeAt k).code = some h ∧
        (t.codeAt k).sym = (s.treeAt h).sym) ∧
      (∀ h < n, ∃ k < n, follow s.treeAt s.root.toNat (t.codeAt k).code = some h) ∧
      (∀ j k, j < k → k < n → leftOf (t.codeAt j).code (t.codeAt k).code)))

/-- 41_huffman_encoder.md R133, R131 (which the spec marks derived): after GEN_CODES on a tree, no code is a prefix
of another, symbols are distinct, and every code has 1 to `max 1 (n - 1)` bits. -/
def Obligations.GenCodesPrefixFree : Prop :=
  ∀ (s : State) (n : Nat), s.params.wf → s.treeShape n → ∃ t, exec .genCodes s = .next t ∧
    t.status.err = s.status.err ∧ t.validCodes.length = n ∧ prefixFree (t.validCodes.map CodeEntry.code) ∧
    (t.validCodes.map CodeEntry.sym).Nodup ∧
    ∀ e ∈ t.validCodes, 1 ≤ e.code.length ∧ e.code.length ≤ max 1 (n - 1)

/-! ### BitPacker -/

/-- 42_bitpacker.md R141: the codes of the symbols one after the other, each that of the first entry with the symbol;
MissingCode at the first symbol without one; then Overflow (ERRINFO saturated, R140). -/
def Obligations.EncBitsConcatenatesCodes : Prop :=
  decode 0x00000004#32 = .ok .encBits ∧
  (∀ (s : State) (ks : List Nat), s.params.maxBits < 2 ^ 32 → ks.length = s.textLen.toNat →
    (∀ i (h : i < ks.length), ks[i] < s.codeN.toNat ∧ (s.codeAt ks[i]).sym = s.textAt i ∧
      ∀ j < ks[i], (s.codeAt j).sym ≠ s.textAt i) →
    let out := (ks.map fun k => (s.codeAt k).code).flatten
    (out.length ≤ s.params.maxBits → ∃ m,
      let t := { completed s 0x04#8 with bits := m, bitsLen := BitVec.ofNat 32 out.length }
      exec .encBits s = .next t ∧ sameFrom .bits out.length s t ∧
      ∀ i (h : i < out.length), t.bitAt i = out[i]) ∧
    (s.params.maxBits < out.length →
      exec .encBits s = .next (faultEnd s 0x04#8 0x06#8 (BitVec.ofNat 32 (min out.length 0xFFFFFFFF))))) ∧
  (∀ (s : State) (i : Nat), i < s.textLen.toNat →
    (∀ k < s.codeN.toNat, (s.codeAt k).sym ≠ s.textAt i) →
    (∀ j < i, ∃ k < s.codeN.toNat, (s.codeAt k).sym = s.textAt j) →
    exec .encBits s = .next (faultEnd s 0x04#8 0x03#8 (BitVec.ofNat 32 i)))

/-- 42_bitpacker.md R144. -/
def Obligations.PadPrefixesCount : Prop :=
  decode 0x00000005#32 = .ok .pad ∧
  ∀ s : State, s.params.maxBits < 2 ^ 32 →
    let len := s.bitsLen.toNat
    let p := 8 - len % 8
    (len + 8 + p ≤ s.params.maxBits → ∃ m,
      let t := { completed s 0x05#8 with
        bits := m, bitsLen := BitVec.ofNat 32 (len + 8 + p), padcnt := BitVec.ofNat 8 p }
      exec .pad s = .next t ∧ sameFrom .bits (len + 8 + p) s t ∧
      (∀ i < 8, t.bitAt i = p.testBit (7 - i)) ∧ (∀ i < len, t.bitAt (8 + i) = s.bitAt i) ∧
      (∀ i < p, t.bitAt (8 + len + i) = false)) ∧
    (s.params.maxBits < len + 8 + p →
      exec .pad s = .next (faultEnd s 0x05#8 0x06#8 (BitVec.ofNat 32 (min (len + 8 + p) 0xFFFFFFFF))))

/-- 42_bitpacker.md R147: first bit of each 8 to bit 7 of the byte; MisalignedPadding before Overflow. -/
def Obligations.ToBytesPacksMsbFirst : Prop :=
  decode 0x00000006#32 = .ok .toBytes ∧
  ∀ s : State,
    let len := s.bitsLen.toNat
    (len % 8 = 0 → len / 8 ≤ s.params.maxPayload → ∃ m,
      let t := { completed s 0x06#8 with payload := m, payLen := BitVec.ofNat 32 (len / 8) }
      exec .toBytes s = .next t ∧ sameFrom .payload (len / 8) s t ∧
      ∀ i < len / 8, ∀ j < 8, (t.payloadAt i).getLsbD (7 - j) = s.bitAt (8 * i + j)) ∧
    (len % 8 ≠ 0 → exec .toBytes s = .next (faultEnd s 0x06#8 0x04#8 s.bitsLen)) ∧
    (len % 8 = 0 → s.params.maxPayload < len / 8 →
      exec .toBytes s = .next (faultEnd s 0x06#8 0x06#8 (BitVec.ofNat 32 (len / 8))))

/-- 42_bitpacker.md R150: bit 7 of each byte first; Overflow with the size saturated (R140). -/
def Obligations.ToBitsUnpacksMsbFirst : Prop :=
  decode 0x0000000B#32 = .ok .toBits ∧
  ∀ s : State, s.params.maxBits < 2 ^ 32 →
    let n := s.payLen.toNat
    (8 * n ≤ s.params.maxBits → ∃ m,
      let t := { completed s 0x0B#8 with bits := m, bitsLen := BitVec.ofNat 32 (8 * n) }
      exec .toBits s = .next t ∧ sameFrom .bits (8 * n) s t ∧
      ∀ i < n, ∀ j < 8, t.bitAt (8 * i + j) = (s.payloadAt i).getLsbD (7 - j)) ∧
    (s.params.maxBits < 8 * n →
      exec .toBits s = .next (faultEnd s 0x0B#8 0x06#8 (BitVec.ofNat 32 (min (8 * n) 0xFFFFFFFF))))

/-- 42_bitpacker.md R152: the first 8 bits are the count `p`, taken as read; they and `p` bits at the end go. -/
def Obligations.UnpadDropsCountedBits : Prop :=
  decode 0x0000000C#32 = .ok .unpad ∧
  ∀ (s : State) (p : Nat), p < 256 →
    let len := s.bitsLen.toNat
    (len < 8 → exec .unpad s = .next (faultEnd s 0x0C#8 0x0A#8 s.bitsLen)) ∧
    (8 ≤ len → (∀ i < 8, s.bitAt i = p.testBit (7 - i)) →
      (len - 8 < p → exec .unpad s = .next (faultEnd s 0x0C#8 0x0A#8 s.bitsLen)) ∧
      (p ≤ len - 8 → ∃ m,
        let t := { completed s 0x0C#8 with
          bits := m, bitsLen := BitVec.ofNat 32 (len - 8 - p), padcnt := BitVec.ofNat 8 p }
        exec .unpad s = .next t ∧ sameFrom .bits (len - 8 - p) s t ∧
        ∀ i < len - 8 - p, t.bitAt i = s.bitAt (8 + i)))

/-! ### Huffman decoder -/

/-- 43_huffman_decoder.md R161 with the records of 30_encoding.md R108; the premise on code lengths is
10_state.md R44's. -/
def Obligations.SerTableWritesRecords : Prop :=
  decode 0x00000007#32 = .ok .serTable ∧
  ∀ s : State, s.params.wf → (∀ e ∈ s.validCodes, 1 ≤ e.code.length ∧ e.code.length ≤ 65535) →
    let size := (s.validCodes.map fun e => 2 + ceilDiv e.code.length 8 + s.params.symBytes).sum
    (size ≤ s.params.maxTable → ∃ m,
      let t := { completed s 0x07#8 with table := m, tabLen := BitVec.ofNat 32 size }
      exec .serTable s = .next t ∧ sameFrom .table size s t ∧ areRecords s.params s.validCodes t.validTable) ∧
    (s.params.maxTable < size →
      exec .serTable s = .next (faultEnd s 0x07#8 0x06#8 (BitVec.ofNat 32 (min size 0xFFFFFFFF))))

/-- 43_huffman_decoder.md R165. A TABLE that is the records of a fitting code table parses to exactly that table, and
DESER_TABLE succeeds on no other TABLE. After the records of `tab`, where the rest does not start with a record that
can be taken: MalformedTable with the rest's offset, and Overflow only for a record that is well formed. -/
def Obligations.DeserTableParsesRecords : Prop :=
  decode 0x0000000A#32 = .ok .deserTable ∧
  (∀ s : State, s.params.wf →
    (∀ tab, tableFits s.params tab → areRecords s.params tab s.validTable → ∃ m,
      let t := { completed s 0x0A#8 with codetab := m, codeN := BitVec.ofNat 32 tab.length }
      exec .deserTable s = .next t ∧ sameFrom .codetab tab.length s t ∧ t.validCodes = tab) ∧
    (∀ t, s.status.err = false → exec .deserTable s = .next t → t.status.err = false →
      tableFits s.params t.validCodes ∧ areRecords s.params t.validCodes s.validTable)) ∧
  ∀ (s : State) (tab : List CodeEntry) (done rest : List Byte), s.params.wf → tableFits s.params tab →
    areRecords s.params tab done → s.validTable = done ++ rest → rest ≠ [] →
    let len := 256 * (rest.getD 0 0#8).toNat + (rest.getD 1 0#8).toNat
    let k := ceilDiv len 8
    let codeBit := fun j => (rest.getD (2 + j / 8) 0#8).getLsbD (7 - j % 8)
    let malformed := rest.length < 2 ∨ len = 0 ∨ rest.length < 2 + k + s.params.symBytes ∨
      (∃ j < 8 * k, len ≤ j ∧ codeBit j = true) ∨
      (∃ e ∈ tab, e.code.length = len ∧ ∀ j < len, e.code.getD j false = codeBit j)
    (malformed → exec .deserTable s = .next (faultEnd s 0x0A#8 0x0B#8 (BitVec.ofNat 32 done.length))) ∧
    (¬ malformed → tab.length = s.params.maxSyms →
      exec .deserTable s = .next (faultEnd s 0x0A#8 0x06#8 (BitVec.ofNat 32 (s.params.maxSyms + 1))))

/-- 43_huffman_decoder.md R170: every bitstring has one reading as codes `ks`, each the first code that matches since
the code before, and a rest `q` no start of which is a code; the symbols of `ks` are the text and RESIDUE says that
the rest is not empty; or Overflow. -/
def Obligations.DecBitsEmitsShortestMatches : Prop :=
  decode 0x0000000D#32 = .ok .decBits ∧
  ∀ s : State, s.params.maxText < 2 ^ 32 → ∃ (ks : List Nat) (q : Bitstring),
    s.validBits = (ks.map fun k => (s.codeAt k).code).flatten ++ q ∧
    (∀ k ∈ ks, k < s.codeN.toNat ∧ (s.codeAt k).code ≠ [] ∧
      (∀ j < k, (s.codeAt j).code ≠ (s.codeAt k).code) ∧
      ∀ j < s.codeN.toNat, (s.codeAt j).code ≠ [] → (s.codeAt j).code <+: (s.codeAt k).code →
        (s.codeAt j).code = (s.codeAt k).code) ∧
    (∀ j < s.codeN.toNat, (s.codeAt j).code ≠ [] → ¬ (s.codeAt j).code <+: q) ∧
    (ks.length ≤ s.params.maxText → ∃ m,
      let t := { completed s 0x0D#8 with
        text := m, textLen := BitVec.ofNat 32 ks.length
        status := { s.status with busy := false, done := true, residue := decide (q ≠ []) } }
      exec .decBits s = .next t ∧ sameFrom .text ks.length s t ∧
      ∀ i (h : i < ks.length), t.textAt i = (s.codeAt ks[i]).sym) ∧
    (s.params.maxText < ks.length →
      exec .decBits s = .next (faultEnd s 0x0D#8 0x06#8 (BitVec.ofNat 32 (min ks.length 0xFFFFFFFF))))

/-! ### Grid container -/

/-- 44_grid_container.md R182 with R181, R183, R184, R185: header digits, signature 0, interleaved slots, zeros to the
end of the last row; LengthOverflow before Overflow. -/
def Obligations.GridPackWritesContainer : Prop :=
  decode 0x00000008#32 = .ok .gridPack ∧
  ∀ s : State,
    let len1 := s.payLen.toNat
    let len2 := s.tabLen.toNat
    let rows := (len1 + len2 + 8) / 9 + 1
    (len1 < 4228250625 → len2 < 4228250625 → rows ≤ s.params.maxRows → ∃ m,
      let t := { completed s 0x08#8 with grid := m, gridRows := BitVec.ofNat 32 rows }
      exec .gridPack s = .next t ∧ sameFrom .grid (9 * rows) s t ∧
      (∀ j < 4, (t.gridAt j).toNat = len1 / 255 ^ (3 - j) % 255) ∧ t.gridAt 4 = 0#8 ∧
      (∀ j < 4, (t.gridAt (5 + j)).toNat = len2 / 255 ^ (3 - j) % 255) ∧
      (∀ k < len1 + len2, t.gridAt (9 + k) = slotByte s len1 len2 k) ∧
      (∀ k, 9 + len1 + len2 ≤ k → k < 9 * rows → t.gridAt k = 0#8)) ∧
    (4228250625 ≤ len1 → exec .gridPack s = .next (faultEnd s 0x08#8 0x07#8 s.payLen)) ∧
    (len1 < 4228250625 → 4228250625 ≤ len2 → exec .gridPack s = .next (faultEnd s 0x08#8 0x07#8 s.tabLen)) ∧
    (len1 < 4228250625 → len2 < 4228250625 → s.params.maxRows < rows →
      exec .gridPack s = .next (faultEnd s 0x08#8 0x06#8 (BitVec.ofNat 32 rows)))

/-- 44_grid_container.md R188, R189. The success: the lengths of the header, every slot's byte back where R184 and
R185 took it from. The faults in the order they are tested: no row, the signature, a digit of 255 (the first), too few
rows, payload and table too long. -/
def Obligations.GridUnpackSplitsSlots : Prop :=
  decode 0x00000009#32 = .ok .gridUnpack ∧
  (∀ s : State,
    let len1 := headerField s 0
    let len2 := headerField s 5
    s.gridRows ≠ 0#32 → s.gridAt 4 = 0#8 → (∀ j ∈ [0, 1, 2, 3, 5, 6, 7, 8], s.gridAt j ≠ 255#8) →
    (len1 + len2 + 8) / 9 + 1 ≤ s.gridRows.toNat → len1 ≤ s.params.maxPayload → len2 ≤ s.params.maxTable →
    ∃ m1 m2,
      let t := { completed s 0x09#8 with
        payload := m1, payLen := BitVec.ofNat 32 len1, table := m2, tabLen := BitVec.ofNat 32 len2 }
      exec .gridUnpack s = .next t ∧ sameFrom .payload len1 s t ∧ sameFrom .table len2 s t ∧
      ∀ k < len1 + len2, slotByte t len1 len2 k = s.gridAt (9 + k)) ∧
  ∀ s : State,
    let len1 := headerField s 0
    let len2 := headerField s 5
    let rows := (len1 + len2 + 8) / 9 + 1
    let digits := [0, 1, 2, 3, 5, 6, 7, 8]
    (s.gridRows = 0#32 → exec .gridUnpack s = .next (faultEnd s 0x09#8 0x09#8 1#32)) ∧
    (s.gridRows ≠ 0#32 →
      (s.gridAt 4 ≠ 0#8 →
        exec .gridUnpack s = .next (faultEnd s 0x09#8 0x05#8 ((s.gridAt 4).zeroExtend 32))) ∧
      (s.gridAt 4 = 0#8 →
        (∀ j ∈ digits, s.gridAt j = 255#8 → (∀ i ∈ digits, i < j → s.gridAt i ≠ 255#8) →
          exec .gridUnpack s = .next (faultEnd s 0x09#8 0x08#8 (BitVec.ofNat 32 j))) ∧
        ((∀ j ∈ digits, s.gridAt j ≠ 255#8) →
          (s.gridRows.toNat < rows →
            exec .gridUnpack s = .next (faultEnd s 0x09#8 0x09#8 (BitVec.ofNat 32 rows))) ∧
          (rows ≤ s.gridRows.toNat → s.params.maxPayload < len1 →
            exec .gridUnpack s = .next (faultEnd s 0x09#8 0x06#8 (BitVec.ofNat 32 len1))) ∧
          (rows ≤ s.gridRows.toNat → len1 ≤ s.params.maxPayload → s.params.maxTable < len2 →
            exec .gridUnpack s = .next (faultEnd s 0x09#8 0x06#8 (BitVec.ofNat 32 len2))))))

/-- 44_grid_container.md R192, 30_encoding.md R104: four base-255 digits hold every length below 255^4 and decode to
it; the two failing cases beyond are those of 90_conflicts.md C1. -/
def Obligations.HeaderDigitsRoundTrip : Prop :=
  (∀ n, n < 4228250625 → undigits255 (digits255 n) = n ∧ (digits255 n).length = 4 ∧
    ∀ d ∈ digits255 n, d.toNat ≤ 254) ∧
  undigits255 (digits255 4228250625) = 0 ∧ undigits255 (digits255 4294967295) = 66716670

/-! ### Composite commands -/

/-- 45_pipeline_and_control.md R201, R200: COMPRESS is its chain of eight primitives, to the first fault. -/
def Obligations.CompressIsChain : Prop :=
  decode 0x00000010#32 = .ok .compress ∧
  ∀ s : State, s.status.busy = true → s.status.done = false → s.status.err = false →
    exec .compress s =
      runChain [.analyze, .buildTree, .genCodes, .encBits, .pad, .toBytes, .serTable, .gridPack] s

/-- 45_pipeline_and_control.md R203, R200: DECOMPRESS is its chain of five primitives, to the first fault. -/
def Obligations.DecompressIsChain : Prop :=
  decode 0x00000011#32 = .ok .decompress ∧
  ∀ s : State, s.status.busy = true → s.status.done = false → s.status.err = false →
    exec .decompress s = runChain [.gridUnpack, .deserTable, .toBits, .unpad, .decBits] s

/-- 45_pipeline_and_control.md R201's corner case: COMPRESS of an empty text faults EmptyInput at BUILD_TREE, FREQ_N 0
and everything else as before. -/
def Obligations.CompressEmptyTextFaults : Prop :=
  ∀ s : State, s.textLen = 0#32 →
    exec .compress s = .next { faultEnd s 0x02#8 0x02#8 0#32 with freqN := 0#32 }

/-- COMPRESS succeeds on every non-empty text whose distinct symbols fit and for which the capacities hold what the
longest possible codes would need (45_pipeline_and_control.md R202, 41_huffman_encoder.md R131: the spec's own
inferences); `d` distinct symbols, codes of at most `max 1 (d - 1)` bits. -/
def Obligations.CompressCompletes : Prop :=
  ∀ s : State, s.params.wf → 1 ≤ s.textLen.toNat →
    let d := s.validText.eraseDups.length
    let longest := max 1 (d - 1)
    let payMax := (s.textLen.toNat * longest + 16) / 8
    let tabMax := d * (2 + (longest + 7) / 8 + s.params.symBytes)
    d ≤ s.params.maxSyms → s.textLen.toNat * longest + 16 ≤ s.params.maxBits → payMax ≤ s.params.maxPayload →
    tabMax ≤ s.params.maxTable → (payMax + tabMax + 8) / 9 + 1 ≤ s.params.maxRows →
    ∃ t, exec .compress s = .next t ∧ t.status = { s.status with busy := false, done := true } ∧
      t.errcode = s.errcode ∧ t.errinfo = s.errinfo ∧ t.stage = 0x08#8 ∧
      t.text = s.text ∧ t.textLen = s.textLen ∧ t.freqN.toNat = d ∧ t.nodeN.toNat = 2 * d - 1 ∧
      t.root.toNat = 2 * d - 2 ∧ t.codeN.toNat = d ∧
      1 ≤ t.padcnt.toNat ∧ t.padcnt.toNat ≤ 8 ∧ 2 ≤ t.payLen.toNat ∧ t.bitsLen.toNat = 8 * t.payLen.toNat ∧
      3 + s.params.symBytes ≤ t.tabLen.toNat ∧
      t.gridRows.toNat = (t.payLen.toNat + t.tabLen.toNat + 8) / 9 + 1

/-- DECOMPRESS reads back every genuine container: a grid that holds, by the formats of 30_encoding.md R102, R104,
R108 and 44_grid_container.md R181, R184, the records of a prefix-free table `tab` and the padded codes of the
entries `es` gives their symbols as TEXT (45_pipeline_and_control.md R203). -/
def Obligations.DecompressReadsContainer : Prop :=
  ∀ (s : State) (tab es : List CodeEntry),
    let code := (es.map CodeEntry.code).flatten
    let pay := bytesOf (padBits code)
    let bytes := serialize s.params tab
    s.params.wf → tableFits s.params tab → (∀ e ∈ tab, e.code.length ≤ 65535) →
    prefixFree (tab.map CodeEntry.code) → (∀ e ∈ es, e ∈ tab) → es.length ≤ s.params.maxText →
    pay.length ≤ s.params.maxPayload → 8 * pay.length ≤ s.params.maxBits →
    bytes.length ≤ s.params.maxTable → bytes.length < 4228250625 →
    (packGrid pay bytes).length ≤ 9 * s.gridRows.toNat →
    (∀ i (h : i < (packGrid pay bytes).length), s.gridAt i = (packGrid pay bytes)[i]) →
    ∃ t, exec .decompress s = .next t ∧
      t.status = { s.status with busy := false, done := true, residue := false } ∧
      t.errcode = s.errcode ∧ t.errinfo = s.errinfo ∧ t.stage = 0x0D#8 ∧
      t.validText = es.map CodeEntry.sym ∧ t.validCodes = tab ∧ t.validPayload = pay ∧ t.validTable = bytes ∧
      t.validBits = code ∧ t.padcnt.toNat = 8 - code.length % 8

/-! ### Round trips -/

/-- 42_bitpacker.md R153 (which the spec marks derived): PAD, TO_BYTES, TO_BITS, UNPAD restore the bitstring. -/
def Obligations.PackingRoundTrip : Prop :=
  ∀ s : State, s.params.maxBits < 2 ^ 32 → s.status.err = false →
    s.bitsLen.toNat + 16 ≤ s.params.maxBits → (s.bitsLen.toNat + 16 + 7) / 8 ≤ s.params.maxPayload →
    ∃ t, runChain [.pad, .toBytes, .toBits, .unpad] s = .next t ∧ t.status.err = false ∧
      t.bitsLen = s.bitsLen ∧ t.validBits = s.validBits ∧ t.padcnt.toNat = 8 - s.bitsLen.toNat % 8

/-- 43_huffman_decoder.md R167 (which the spec marks derived): DESER_TABLE on what SER_TABLE wrote restores the table,
whatever CODETAB holds by then. -/
def Obligations.TableRoundTrip : Prop :=
  ∀ (s t : State), s.Inv → s.status.err = false → exec .serTable s = .next t → t.status.err = false →
    ∀ (m : Memory CodeEntry) (n : Word), ∃ v, exec .deserTable { t with codetab := m, codeN := n } = .next v ∧
      v.status.err = false ∧ v.codeN = s.codeN ∧ v.validCodes = s.validCodes

/-- 43_huffman_decoder.md R173 (which the spec marks derived): with a table of distinct symbols and prefix-free
codes, DEC_BITS on what ENC_BITS wrote restores the text and leaves no residue, whatever TEXT holds by then. -/
def Obligations.CodingRoundTrip : Prop :=
  ∀ (s t : State), s.params.wf → s.textLen.toNat ≤ s.params.maxText → s.status.err = false →
    (s.validCodes.map CodeEntry.sym).Nodup → prefixFree (s.validCodes.map CodeEntry.code) →
    (∀ e ∈ s.validCodes, e.code ≠ []) → exec .encBits s = .next t → t.status.err = false →
    ∀ (m : Memory Symbol) (n : Word), ∃ v, exec .decBits { t with text := m, textLen := n } = .next v ∧
      v.status.err = false ∧ v.textLen = s.textLen ∧ v.validText = s.validText ∧ v.status.residue = false

/-- 44_grid_container.md R191 (which the spec marks derived): GRID_UNPACK on what GRID_PACK wrote restores payload and
table, whatever PAYLOAD and TABLE hold by then. -/
def Obligations.ContainerRoundTrip : Prop :=
  ∀ (s t : State), s.Inv → s.status.err = false → exec .gridPack s = .next t → t.status.err = false →
    ∀ (m1 m2 : Memory Byte) (n1 n2 : Word), ∃ v,
      exec .gridUnpack { t with payload := m1, payLen := n1, table := m2, tabLen := n2 } = .next v ∧
      v.status.err = false ∧ v.payLen = s.payLen ∧ v.validPayload = s.validPayload ∧
      v.tabLen = s.tabLen ∧ v.validTable = s.validTable

/-- 45_pipeline_and_control.md R204 (which the spec marks derived): if COMPRESS succeeds, DECOMPRESS of the grid it
wrote, on any core of the same parameters, succeeds and leaves the same text with no residue. -/
def Obligations.CompressDecompressRoundTrip : Prop :=
  ∀ (s t u : State), s.Inv → s.status.err = false → exec .compress s = .next t → t.status.err = false →
    u.params = t.params → u.grid = t.grid → u.gridRows = t.gridRows →
    ∃ v, exec .decompress u = .next v ∧ v.status.err = u.status.err ∧ v.status.done = true ∧
      v.textLen = s.textLen ∧ v.validText = s.validText ∧ v.status.residue = false

/-! ### Every command -/

/-- 41_huffman_encoder.md R120, 60_exceptions.md R236: a primitive or control command that faults changes nothing but
STAGE, ERRCODE, ERRINFO, `ERR` and `BUSY`. -/
def Obligations.FaultsArePrecise : Prop :=
  ∀ (i : Instr) (s t : State), isComposite i = false → s.status.err = false → exec i s = .next t →
    t.status.err = true → ∃ code info, t = faultEnd s i.opcode code info

/-- The writes of 30_encoding.md R91 and of each command's Operands line are all a command writes (TEXT, which R91
lists for COMPRESS, is unchanged by 45_pipeline_and_control.md R201): every other register but STATUS, ERRCODE,
ERRINFO, STAGE, every other buffer, RESIDUE but for DEC_BITS, DECOMPRESS and SOFT_RESET (10_state.md R23), and the
parameters (R52) stay. That the latch stays through SOFT_RESET (log entry 6), and the model's own fields through every
command (log entries 1, 2, 5, 15), is the model's. -/
def Obligations.CommandsWriteOnlyOutputs : Prop :=
  ∀ (i : Instr) (s t : State), exec i s = .next t →
    (∀ r : RegName, r ∉ outRegisters i → r ∉ [.status, .errcode, .errinfo, .stage, .bufData] →
      regValue t r = regValue s r) ∧
    (∀ b : BufName, b ∉ outBuffers i → sameFrom b 0 s t) ∧
    (writesResidue i = false → t.status.residue = s.status.residue) ∧
    t.cmdLatch = s.cmdLatch ∧ t.params = s.params ∧ t.inbox = s.inbox ∧ t.replies = s.replies ∧
    t.epoch = s.epoch ∧ t.turn = s.turn

/-- 10_state.md R49: a primitive or control command that completes leaves every element at or above the new length of
each buffer as it was (SOFT_RESET and the lengths it clears included). -/
def Obligations.NonValidElementsKept : Prop :=
  ∀ (i : Instr) (s t : State), isComposite i = false → s.params.wf → s.lengthsOk → s.treeOk →
    exec i s = .next t → ∀ b : BufName, sameFrom b (validLength t b) s t

/-- 10_state.md R49: the engine never reads an element that is not valid, so two states that agree on what is valid
run every command to states that agree on what is valid. -/
def Obligations.NonValidElementsNeverRead : Prop :=
  ∀ (i : Instr) (s u t : State), s.Inv → Agree s u → exec i s = .next t →
    ∃ v, exec i u = .next v ∧ Agree t v

/-! ### Invariants -/

/-- The state after reset meets the invariant. -/
def Obligations.ResetMeetsInvariant : Prop := State.reset.Inv

/-- Every step keeps the canonical form of all eight buffers, and no step changes the parameters
(10_state.md R52). -/
def Obligations.StepKeepsCanonicalBuffers : Prop :=
  ∀ s t : State, s.buffersCanonical → step s = .next t → t.buffersCanonical ∧ t.params = s.params

/-- Every step keeps at most one of BUSY, DONE, ERR at 1 (10_state.md R23; log entry 8), the fault record of R26 and
STAGE of R27. -/
def Obligations.StepKeepsFlagsAndRecord : Prop :=
  ∀ s t : State, s.flagsOk → s.errRecordOk → s.stageOk → step s = .next t →
    t.flagsOk ∧ t.errRecordOk ∧ t.stageOk

/-- Every step keeps the whole invariant: lengths within capacities, symbols of `SYM_W` bits, FREQ, TREE and CODETAB as
their producers leave them, and the parts above. -/
def Obligations.StepKeepsInvariant : Prop := ∀ s t : State, s.Inv → step s = .next t → t.Inv

/-- 60_exceptions.md R241, 70_reset_and_hazards.md R264: where the engine runs, the command ends in that step, with
exactly one of DONE and ERR, and no stop of the model. That an idle core with no host action to come has a next step
too, the same state, is the model's reading (log entry 11): 60_exceptions.md R240 enables none. -/
def Obligations.EveryCommandEnds : Prop :=
  ∀ s : State, s.Inv → ∃ t, step s = .next t ∧
    (s.status.busy = true → onlyWaits s → t.status.busy = false ∧ t.status.done = !t.status.err)
end

