-- ==== Sys2Proof/Laws/Operands.lean ====
section
/-! SUPPORT. Bits and bytes: lengths, elements and round trips of `bin8`, `val`, `bits_of`, `bytes_of`, and the length
of a padded bitstring. -/

namespace Sys2Proof.Machine

/-! ### Bits and bytes -/

@[simp] theorem bin8_length (v : Byte) : (bin8 v).length = 8 := rfl

theorem valFrom_append (a : Nat) (b c : Bitstring) : valFrom a (b ++ c) = valFrom (valFrom a b) c := by
  induction b generalizing a with
  | nil => rfl
  | cons x xs ih => exact ih _

theorem valFrom_eq (a : Nat) (b : Bitstring) : valFrom a b = a * 2 ^ b.length + valFrom 0 b := by
  induction b generalizing a with
  | nil => simp [valFrom]
  | cons x xs ih =>
    simp only [valFrom, List.length_cons]
    rw [ih (2 * a + x.toNat), ih (2 * 0 + x.toNat)]
    ring

/-- `val` of a bitstring of `n` bits is below `2^n`. -/
theorem val_lt (b : Bitstring) : val b < 2 ^ b.length := by
  unfold val
  induction b with
  | nil => simp [valFrom]
  | cons x xs ih =>
    simp only [valFrom, List.length_cons]
    rw [valFrom_eq]
    have : x.toNat ≤ 1 := by cases x <;> simp
    have h2 : (2 * 0 + x.toNat) * 2 ^ xs.length ≤ 2 ^ xs.length := by
      calc (2 * 0 + x.toNat) * 2 ^ xs.length ≤ 1 * 2 ^ xs.length := Nat.mul_le_mul_right _ (by omega)
        _ = 2 ^ xs.length := by ring
    rw [pow_succ]; omega

/-- The first bit of a bitstring is the most significant of its number (00_scope.md R12). -/
theorem testBit_val (b : Bitstring) (i : Nat) (h : i < b.length) : (val b).testBit (b.length - 1 - i) = b[i] := by
  unfold val
  induction b generalizing i with
  | nil => simp at h
  | cons x xs ih =>
    simp only [valFrom, List.length_cons]
    rw [valFrom_eq]
    have hlt := val_lt xs
    unfold val at hlt
    cases i with
    | zero =>
      have e : xs.length + 1 - 1 - 0 = xs.length := by omega
      rw [e, Nat.mul_comm, Nat.testBit_two_pow_mul_add _ hlt]
      cases x <;> simp
    | succ i =>
      have hi : i < xs.length := by simpa using h
      have e : xs.length + 1 - 1 - (i + 1) = xs.length - 1 - i := by omega
      rw [e, Nat.mul_comm, Nat.testBit_two_pow_mul_add _ hlt]
      have : xs.length - 1 - i < xs.length := by omega
      simp [this, ih i hi]

theorem bin8_getElem (v : Byte) (i : Nat) (h : i < (bin8 v).length) : (bin8 v)[i] = v.getLsbD (7 - i) := by
  have : i < 8 := by simpa using h
  match i, this with
  | 0, _ | 1, _ | 2, _ | 3, _ | 4, _ | 5, _ | 6, _ | 7, _ => rfl

theorem val_bin8 (v : Byte) : val (bin8 v) = v.toNat := by
  apply Nat.eq_of_testBit_eq
  intro i
  by_cases h : i < 8
  · have := testBit_val (bin8 v) (7 - i) (by simp; omega)
    simp only [bin8_length] at this
    rw [show 8 - 1 - (7 - i) = i by omega] at this
    rw [this, bin8_getElem, show 7 - (7 - i) = i by omega]
    rfl
  · have h1 : val (bin8 v) < 2 ^ i := lt_of_lt_of_le (val_lt _) (Nat.pow_le_pow_right (by norm_num) (by simp; omega))
    have h2 : v.toNat < 2 ^ i := lt_of_lt_of_le v.isLt (Nat.pow_le_pow_right (by norm_num) (by omega))
    rw [Nat.testBit_lt_two_pow h1, Nat.testBit_lt_two_pow h2]

theorem bin8_val (b : Bitstring) (h : b.length = 8) : bin8 (BitVec.ofNat 8 (val b)) = b := by
  apply List.ext_getElem (by simp [h])
  intro i h1 h2
  have hv := val_lt b
  rw [bin8_getElem]
  have := testBit_val b i h2
  rw [h] at this
  simp only [BitVec.getLsbD_ofNat]
  rw [show 8 - 1 - i = 7 - i by omega] at this
  rw [this]
  simp; intro; omega

theorem bitsOf_cons (v : Byte) (s : List Byte) : bitsOf (v :: s) = bin8 v ++ bitsOf s := rfl

@[simp] theorem bitsOf_length (s : List Byte) : (bitsOf s).length = 8 * s.length := by
  induction s with
  | nil => rfl
  | cons v s ih => rw [bitsOf_cons]; simp [ih]; omega

theorem bytesOf_append8 (b c : Bitstring) (h : b.length = 8) :
    bytesOf (b ++ c) = BitVec.ofNat 8 (val b) :: bytesOf c := by
  match b, h with
  | [b7, b6, b5, b4, b3, b2, b1, b0], _ => rfl

theorem bytesOf_bitsOf (s : List Byte) : bytesOf (bitsOf s) = s := by
  induction s with
  | nil => rfl
  | cons v s ih => rw [bitsOf_cons, bytesOf_append8 _ _ rfl, ih, val_bin8]; simp

/-- Induction over whole groups of 8 bits. -/
theorem bits_induction {P : Bitstring → Prop} (nil : P [])
    (step : ∀ b c : Bitstring, b.length = 8 → c.length % 8 = 0 → P c → P (b ++ c)) :
    ∀ b : Bitstring, b.length % 8 = 0 → P b := by
  intro b
  induction hn : b.length using Nat.strong_induction_on generalizing b with
  | _ n ih =>
    intro hb
    by_cases h0 : b.length = 0
    · rw [List.length_eq_zero_iff.1 h0]; exact nil
    · have h8 : 8 ≤ b.length := by omega
      have := step (b.take 8) (b.drop 8) (by simp; omega) (by simp; omega)
        (ih (b.drop 8).length (by simp; omega) _ rfl (by simp; omega))
      rwa [List.take_append_drop] at this

theorem bitsOf_bytesOf (b : Bitstring) (h : b.length % 8 = 0) : bitsOf (bytesOf b) = b := by
  refine bits_induction (P := fun b => bitsOf (bytesOf b) = b) rfl ?_ b h
  intro b c hb _ ih
  rw [bytesOf_append8 _ _ hb, bitsOf_cons, ih, bin8_val b hb]

theorem bytesOf_length (b : Bitstring) (h : b.length % 8 = 0) : (bytesOf b).length = b.length / 8 := by
  have := congrArg List.length (bitsOf_bytesOf b h)
  simp at this; omega

/-- Bit `7 - j` of byte `i` is bit `8 i + j` of the bitstring (20_memory.md R72). -/
theorem bitsOf_getElem (s : List Byte) (i j : Nat) (hi : i < s.length) (hj : j < 8) :
    (bitsOf s)[8 * i + j]'(by simp; omega) = s[i].getLsbD (7 - j) := by
  induction s generalizing i with
  | nil => simp at hi
  | cons v s ih =>
    simp only [bitsOf_cons]
    cases i with
    | zero =>
      rw [List.getElem_append_left (by simp; omega)]
      simp only [Nat.mul_zero, Nat.zero_add]
      rw [bin8_getElem]; rfl
    | succ i =>
      rw [List.getElem_append_right (by simp; omega)]
      have := ih i (by simpa using hi)
      simp only [bin8_length, List.getElem_cons_succ]
      rw [← this]
      congr 1; omega

theorem bytesOf_getLsbD (b : Bitstring) (h : b.length % 8 = 0) (i j : Nat) (hi : i < b.length / 8) (hj : j < 8) :
    ((bytesOf b)[i]'(by rw [bytesOf_length b h]; exact hi)).getLsbD (7 - j) = b[8 * i + j]'(by omega) := by
  have hl := bytesOf_length b h
  rw [← bitsOf_getElem (bytesOf b) i j (by omega) hj]
  simp only [bitsOf_bytesOf b h]

/-! ### Padding -/
theorem padCount_pos (n : Nat) : 1 ≤ padCount n ∧ padCount n ≤ 8 := by unfold padCount; omega
theorem padBits_length (b : Bitstring) : (padBits b).length = b.length + 8 + padCount b.length := by
  simp [padBits]; omega
theorem padBits_mod (b : Bitstring) : (padBits b).length % 8 = 0 := by
  rw [padBits_length]; unfold padCount; omega

end Sys2Proof.Machine
end

