-- ==== Sys2Proof/Laws/Decoder.lean ====
section
/-! SUPPORT. The Huffman decoder: table records and their parser, and the scan of DEC_BITS. -/

namespace Sys2Proof.Machine

/-! ### Records -/

theorem ceilDiv8 (n : Nat) : n ≤ 8 * ceilDiv n 8 ∧ 8 * ceilDiv n 8 < n + 8 := by
  unfold ceilDiv; omega

/-- The code bits of a record with the unused bits after them. -/
abbrev filledCode (c : Bitstring) : Bitstring := c ++ List.replicate (8 * ceilDiv c.length 8 - c.length) false

theorem filledCode_length (c : Bitstring) : (filledCode c).length = 8 * ceilDiv c.length 8 := by
  have := ceilDiv8 c.length
  simp [filledCode]; omega

@[simp] theorem symBytesOf_length (n : Nat) (x : Symbol) : (symBytesOf n x).length = n := by simp [symBytesOf]

theorem bytesOf_filledCode_length (c : Bitstring) : (bytesOf (filledCode c)).length = ceilDiv c.length 8 := by
  rw [bytesOf_length _ (by rw [filledCode_length]; omega), filledCode_length]; omega

theorem codeRecord_eq (p : Params) (e : CodeEntry) : codeRecord p e =
    [BitVec.ofNat 8 (e.code.length / 256), BitVec.ofNat 8 (e.code.length % 256)] ++
      bytesOf (filledCode e.code) ++ symBytesOf p.symBytes e.sym := rfl

theorem codeRecord_length (p : Params) (e : CodeEntry) :
    (codeRecord p e).length = 2 + ceilDiv e.code.length 8 + p.symBytes := by
  simp only [codeRecord_eq, List.length_append, bytesOf_filledCode_length, symBytesOf_length, List.length_cons,
    List.length_nil]

theorem valFrom_bytes (a : Nat) (s : List Byte) :
    valFrom a (bitsOf s) = s.foldl (fun n x => n * 256 + x.toNat) a := by
  induction s generalizing a with
  | nil => rfl
  | cons x s ih =>
    rw [bitsOf_cons, valFrom_append, ih, List.foldl_cons]
    congr 1
    rw [valFrom_eq, show valFrom 0 (bin8 x) = val (bin8 x) from rfl, val_bin8]; simp

theorem fold_symBytes (n a x : Nat) : 
    ((List.range n).map fun j => BitVec.ofNat 8 (x / 256 ^ (n - 1 - j))).foldl (fun (n : Nat) (x : Byte) => n * 256 + x.toNat) a
      = a * 256 ^ n + x % 256 ^ n := by
  induction n generalizing x with
  | zero => simp [Nat.mod_one]
  | succ n ih =>
    rw [List.range_succ, List.map_append, List.foldl_append]
    have hmap : ((List.range n).map fun j => BitVec.ofNat 8 (x / 256 ^ (n + 1 - 1 - j))) =
        ((List.range n).map fun j => BitVec.ofNat 8 (x / 256 / 256 ^ (n - 1 - j))) := by
      apply List.map_congr_left
      intro j hj
      have hj := List.mem_range.1 hj
      congr 1
      rw [Nat.div_div_eq_div_mul, ← pow_succ']
      congr 2; omega
    rw [hmap, ih (x / 256)]
    simp only [List.map_cons, List.map_nil, List.foldl_cons, List.foldl_nil, BitVec.toNat_ofNat]
    have : n + 1 - 1 - n = 0 := by omega
    rw [this]
    have e1 := Nat.mod_mul (x := x) (a := 256) (b := 256 ^ n)
    have e2 : x % 256 ^ (n + 1) = x % 256 + 256 * (x / 256 % 256 ^ n) := by rw [pow_succ, Nat.mul_comm, e1]
    rw [e2]
    simp only [pow_zero, Nat.div_one]
    norm_num
    ring

/-- The symbol field read back. -/
theorem val_symBytesOf (n : Nat) (x : Symbol) (h : x.toNat < 256 ^ n) :
    BitVec.ofNat 32 (val (bitsOf (symBytesOf n x))) = x := by
  unfold val symBytesOf
  rw [valFrom_bytes, fold_symBytes, Nat.mod_eq_of_lt h]
  simp

theorem symW_pow (p : Params) : 2 ^ p.symW = 256 ^ p.symBytes := by
  unfold Params.symW; rw [pow_mul]; rfl

/-- A record is the spec's record of its entry (30_encoding.md R108). -/
theorem isRecord_codeRecord (p : Params) (e : CodeEntry) (h : e.code.length ≤ 65535) : isRecord p e (codeRecord p e) := by
  have hl := bytesOf_filledCode_length e.code
  have hf := filledCode_length e.code
  have hc := ceilDiv8 e.code.length
  refine ⟨codeRecord_length p e, ?_, ?_, ?_⟩
  · simp only [codeRecord_eq, List.append_assoc, List.cons_append, List.getD_cons_zero, List.getD_cons_succ,
      BitVec.toNat_ofNat]
    omega
  · intro j hj
    rw [codeRecord_eq]
    have hb := bytesOf_getLsbD (filledCode e.code) (by omega) (j / 8) (j % 8) (by omega) (by omega)
    have e1 : ([BitVec.ofNat 8 (e.code.length / 256), BitVec.ofNat 8 (e.code.length % 256)] ++
        bytesOf (filledCode e.code) ++ symBytesOf p.symBytes e.sym).getD (2 + j / 8) 0#8 =
        (bytesOf (filledCode e.code))[j / 8]'(by omega) := by
      rw [List.getD_eq_getElem?_getD, List.append_assoc, List.getElem?_append_right (by simp)]
      simp only [List.length_cons, List.length_nil]
      rw [List.getElem?_append_left (by omega)]
      have : 2 + j / 8 - (0 + 1 + 1) = j / 8 := by omega
      simp only [this]
      rw [List.getElem?_eq_getElem (by omega)]; rfl
    rw [e1, hb]
    have : 8 * (j / 8) + j % 8 = j := by omega
    simp only [this, filledCode]
    rw [List.getElem_append, List.getD_eq_getElem?_getD]
    split
    · next h => simp [h]
    · next h => simp [h]
  · intro j hj
    rw [codeRecord_eq]
    rw [List.getD_eq_getElem?_getD, List.getElem?_append_right (by simp; omega)]
    have : 2 + ceilDiv e.code.length 8 + j - ([BitVec.ofNat 8 (e.code.length / 256), BitVec.ofNat 8 (e.code.length % 256)] ++
        bytesOf (filledCode e.code)).length = j := by simp [hl]; omega
    rw [this]
    simp [symBytesOf, hj]

theorem byte_ext {a b : Byte} (h : ∀ j < 8, a.getLsbD (7 - j) = b.getLsbD (7 - j)) : a = b := by
  apply BitVec.eq_of_getLsbD_eq
  intro i hi
  have := h (7 - i) (by omega)
  rwa [show 7 - (7 - i) = i by omega] at this

/-- Nothing else is a record of the entry. -/
theorem eq_codeRecord (p : Params) (e : CodeEntry) (r : List Byte) (h : isRecord p e r) : r = codeRecord p e := by
  obtain ⟨h1, h2, h3, h4⟩ := h
  have hlen : e.code.length ≤ 65535 := by
    have := (r.getD 0 0#8).isLt; have := (r.getD 1 0#8).isLt; omega
  obtain ⟨g1, g2, g3, g4⟩ := isRecord_codeRecord p e hlen
  have key : ∀ i, i < r.length → r.getD i 0#8 = (codeRecord p e).getD i 0#8 := by
    intro i hi
    have b0 := (r.getD 0 0#8).isLt; have b1 := (r.getD 1 0#8).isLt
    have c0 := ((codeRecord p e).getD 0 0#8).isLt; have c1 := ((codeRecord p e).getD 1 0#8).isLt
    by_cases i0 : i = 0
    · subst i0; apply BitVec.eq_of_toNat_eq; omega
    by_cases i1 : i = 1
    · subst i1; apply BitVec.eq_of_toNat_eq; omega
    by_cases i2 : i < 2 + ceilDiv e.code.length 8
    · apply byte_ext
      intro j hj
      have a := h3 (8 * (i - 2) + j) (by omega)
      have b := g3 (8 * (i - 2) + j) (by omega)
      have x1 : 2 + (8 * (i - 2) + j) / 8 = i := by omega
      have x2 : (8 * (i - 2) + j) % 8 = j := by omega
      rw [x1, x2] at a b
      rw [a, b]
    · have a := h4 (i - 2 - ceilDiv e.code.length 8) (by omega)
      have b := g4 (i - 2 - ceilDiv e.code.length 8) (by omega)
      have x1 : 2 + ceilDiv e.code.length 8 + (i - 2 - ceilDiv e.code.length 8) = i := by omega
      rw [x1] at a b
      apply BitVec.eq_of_toNat_eq; rw [a, b]
  apply List.ext_getElem (by rw [h1, g1])
  intro i i1 i2
  have := key i i1
  simpa [List.getD_eq_getElem?_getD, i1, i2] using this

/-- The records of a table are its serialization and nothing else. -/
theorem areRecords_iff (p : Params) (tab : List CodeEntry) (bytes : List Byte)
    (h : ∀ e ∈ tab, e.code.length ≤ 65535) : areRecords p tab bytes ↔ bytes = serialize p tab := by
  constructor
  · rintro ⟨rs, hr, rfl⟩
    unfold serialize
    induction hr with
    | nil => rfl
    | cons h1 _ ih =>
      rw [List.flatten_cons, List.flatMap_cons, eq_codeRecord p _ _ h1, ih fun e he => h e (List.mem_cons_of_mem _ he)]
  · rintro rfl
    refine ⟨tab.map (codeRecord p), ?_, by simp [serialize, List.flatMap]⟩
    rw [List.forall₂_map_right_iff]
    apply List.forall₂_same.2
    intro e he
    exact isRecord_codeRecord p e (h e he)

theorem areRecords_length_le {p : Params} {tab : List CodeEntry} {bytes : List Byte} (h : areRecords p tab bytes) :
    ∀ e ∈ tab, e.code.length ≤ 65535 := by
  obtain ⟨rs, hr, -⟩ := h
  induction hr with
  | nil => simp
  | @cons e r _ _ h1 _ ih =>
    intro e' he
    rcases List.mem_cons.1 he with rfl | he
    · have := (r.getD 0 0#8).isLt; have := (r.getD 1 0#8).isLt; have := h1.2.1; omega
    · exact ih e' he

/-! ### Parsing -/

theorem serialize_append (p : Params) (a b : List CodeEntry) :
    serialize p (a ++ b) = serialize p a ++ serialize p b := by simp [serialize]

/-- The record parser on the record of an entry that can be taken. -/
theorem parseRecord_codeRecord (p : Params) (tab : List CodeEntry) (pos : Nat) (e : CodeEntry) (rest : List Byte)
    (h1 : 1 ≤ e.code.length) (h2 : e.code.length ≤ 65535) (hs : e.sym.toNat < 2 ^ p.symW)
    (hd : ∀ x ∈ tab, x.code ≠ e.code) (hc : tab.length ≠ p.maxSyms) :
    parseRecord p tab pos (codeRecord p e ++ rest) = .ok (e, (codeRecord p e).length) := by
  have hl := codeRecord_length p e
  have hb := bytesOf_filledCode_length e.code
  have hcd := ceilDiv8 e.code.length
  unfold parseRecord
  have a1 : ¬ (codeRecord p e ++ rest).length < 2 := by rw [List.length_append, hl]; omega
  have a2 : 256 * ((codeRecord p e ++ rest).getD 0 0#8).toNat + ((codeRecord p e ++ rest).getD 1 0#8).toNat = e.code.length := by
    simp only [codeRecord_eq, List.append_assoc, List.cons_append, List.getD_cons_zero, List.getD_cons_succ,
      BitVec.toNat_ofNat]
    omega
  have a3 : ¬ (2 + ceilDiv e.code.length 8 + p.symBytes > (codeRecord p e ++ rest).length) := by
    rw [List.length_append, hl]; omega
  have d2 : (codeRecord p e ++ rest).drop 2 = bytesOf (filledCode e.code) ++ (symBytesOf p.symBytes e.sym ++ rest) := by
    simp [codeRecord_eq]
  have a4 : ((codeRecord p e ++ rest).drop 2).take (ceilDiv e.code.length 8) = bytesOf (filledCode e.code) := by
    rw [d2, List.take_left' hb]
  have a5 : bitsOf (bytesOf (filledCode e.code)) = filledCode e.code :=
    bitsOf_bytesOf _ (by rw [filledCode_length]; omega)
  have a6 : ((codeRecord p e ++ rest).drop (2 + ceilDiv e.code.length 8)).take p.symBytes = symBytesOf p.symBytes e.sym := by
    rw [← List.drop_drop, d2, List.drop_left' hb, List.take_left' (by simp)]
  have a7 : (filledCode e.code).take e.code.length = e.code := List.take_left' rfl
  have a8 : (filledCode e.code).drop e.code.length = List.replicate (8 * ceilDiv e.code.length 8 - e.code.length) false :=
    List.drop_left' rfl
  simp only [a1, if_false, a2, a3, a4, a5, a6, a7, a8, hc]
  have h0 : ¬ e.code.length = 0 := by omega
  have hany : tab.any (fun x => decide (x.code = e.code)) = false := by
    rw [List.any_eq_false]; intro x hx; simpa using hd x hx
  simp [h0, hany, hl, val_symBytesOf _ _ (symW_pow p ▸ hs)]

/-- What the record parser takes is a record of an entry that can be taken. -/
theorem parseRecord_ok {p : Params} {tab : List CodeEntry} {pos : Nat} {t : List Byte} {e : CodeEntry} {size : Nat}
    (hp : p.symBytes ≤ 4) (h : parseRecord p tab pos t = .ok (e, size)) :
    1 ≤ e.code.length ∧ e.code.length ≤ 65535 ∧ e.sym.toNat < 2 ^ p.symW ∧ (∀ x ∈ tab, x.code ≠ e.code) ∧
      tab.length ≠ p.maxSyms ∧ size = (codeRecord p e).length ∧ t = codeRecord p e ++ t.drop size := by
  unfold parseRecord at h
  split at h
  · cases h
  next g1 =>
  dsimp only at h
  split at h
  · cases h
  next g2 =>
  split at h
  · cases h
  next g3 =>
  split at h
  · cases h
  next g4 =>
  split at h
  · cases h
  next g5 =>
  split at h
  · cases h
  next g6 =>
  have e1 : e = _ := (Prod.mk.inj (Except.ok.inj h)).1.symm
  have e2 : size = _ := (Prod.mk.inj (Except.ok.inj h)).2.symm
  clear h
  have b0 := (t.getD 0 0#8).isLt
  have b1 := (t.getD 1 0#8).isLt
  generalize hL : 256 * (t.getD 0 0#8).toNat + (t.getD 1 0#8).toNat = L at *
  have hK := ceilDiv8 L
  have hcb : (bitsOf ((t.drop 2).take (ceilDiv L 8))).length = 8 * ceilDiv L 8 := by
    simp; omega
  have hlen : e.code.length = L := by
    rw [e1]; simp only [List.length_take, hcb]; omega
  have hsym : e.sym.toNat < 2 ^ p.symW := by
    rw [e1]
    have := val_lt (bitsOf ((t.drop (2 + ceilDiv L 8)).take p.symBytes))
    have h2 : (bitsOf ((t.drop (2 + ceilDiv L 8)).take p.symBytes)).length = p.symW := by
      simp [Params.symW]; omega
    rw [h2] at this
    simp only [BitVec.toNat_ofNat]
    exact Nat.lt_of_le_of_lt (Nat.mod_le _ _) this
  refine ⟨by omega, by omega, hsym, ?_, g6, ?_, ?_⟩
  · intro x hx hxe
    apply g5
    rw [List.any_eq_true]
    exact ⟨x, hx, by rw [hxe, e1]; simp⟩
  · rw [codeRecord_length, hlen, e2]
  · have hrec : isRecord p e (t.take size) := by
      have tg : ∀ i, i < size → (t.take size).getD i 0#8 = t.getD i 0#8 := by
        intro i hi; simp [List.getD_eq_getElem?_getD, hi]
      refine ⟨by simp [hlen]; omega, ?_, ?_, ?_⟩
      · rw [tg 0 (by omega), tg 1 (by omega), hL, hlen]
      · rw [hlen]
        intro j hj
        rw [tg _ (by omega)]
        have h2 := bitsOf_getElem ((t.drop 2).take (ceilDiv L 8)) (j / 8) (j % 8) (by simp; omega) (by omega)
        have h3 : ((t.drop 2).take (ceilDiv L 8))[j / 8]'(by simp; omega) = t.getD (2 + j / 8) 0#8 := by
          rw [List.getElem_take, List.getElem_drop, List.getD_eq_getElem?_getD, List.getElem?_eq_getElem (by omega)]; rfl
        rw [← h3, ← h2]
        have h4 : 8 * (j / 8) + j % 8 = j := by omega
        simp only [h4]
        rw [e1]
        simp only [List.getD_eq_getElem?_getD, List.getElem?_take]
        split
        · rw [List.getElem?_eq_getElem (by omega)]; rfl
        · next hjl =>
          have : ((bitsOf ((t.drop 2).take (ceilDiv L 8))).drop L).any id = false := by simpa using g4
          rw [List.any_eq_false] at this
          have := this ((bitsOf ((t.drop 2).take (ceilDiv L 8)))[j]'(by omega)) (by
            rw [List.mem_drop_iff_getElem]
            exact ⟨j - L, by omega, by congr 1; omega⟩)
          simpa using this
      · rw [hlen]
        intro j hj
        rw [tg _ (by omega)]
        rw [e1]
        have hv : val (bitsOf ((t.drop (2 + ceilDiv L 8)).take p.symBytes)) < 2 ^ 32 := by
          have := val_lt (bitsOf ((t.drop (2 + ceilDiv L 8)).take p.symBytes))
          refine Nat.lt_of_lt_of_le this (Nat.pow_le_pow_right (by omega) ?_)
          simp; omega
        simp only [BitVec.toNat_ofNat, Nat.mod_eq_of_lt hv]
        have hdig : ∀ (s : List Byte) (j : Nat) (hj : j < s.length), (s[j]).toNat = val (bitsOf s) / 256 ^ (s.length - 1 - j) % 256 := by
          intro s
          unfold val
          rw [valFrom_bytes]
          induction s using List.reverseRecOn with
          | nil => intro j hj; simp at hj
          | append_singleton s x ih =>
            intro j hj
            rw [List.foldl_append, List.foldl_cons, List.foldl_nil, List.getElem_append]
            have hx := x.isLt
            simp only [List.length_append, List.length_cons, List.length_nil] at hj ⊢
            split
            · next hjs =>
              rw [ih j hjs]
              have e : s.length + (0 + 1) - 1 - j = (s.length - 1 - j) + 1 := by omega
              rw [e, pow_succ', ← Nat.div_div_eq_div_mul]
              congr 2; omega
            · next hjs =>
              have e : s.length + (0 + 1) - 1 - j = 0 := by omega
              rw [e]; simp; omega
        have hl' : ((t.drop (2 + ceilDiv L 8)).take p.symBytes).length = p.symBytes := by simp; omega
        have := hdig ((t.drop (2 + ceilDiv L 8)).take p.symBytes) j (by omega)
        rw [show (p.symBytes - 1 - j) = ((t.drop (2 + ceilDiv L 8)).take p.symBytes).length - 1 - j by rw [hl']]
        rw [← this, List.getElem_take, List.getElem_drop, List.getD_eq_getElem?_getD, List.getElem?_eq_getElem (by omega)]
        rfl
    rw [← eq_codeRecord p e _ hrec, List.take_append_drop]

/-- The loop of DESER_TABLE over the records of entries that can be taken one after the other. -/
theorem parseFrom_serialize (p : Params) (n : Nat) (tab tab2 : List CodeEntry) (pos : Nat) (rest : List Byte)
    (h1 : ∀ e ∈ tab2, 1 ≤ e.code.length ∧ e.code.length ≤ 65535 ∧ e.sym.toNat < 2 ^ p.symW)
    (hd : ((tab ++ tab2).map CodeEntry.code).Nodup) (hc : (tab ++ tab2).length ≤ p.maxSyms) :
    parseFrom p (tab2.length + n) tab pos (serialize p tab2 ++ rest) =
      parseFrom p n (tab ++ tab2) (pos + (serialize p tab2).length) rest := by
  induction tab2 generalizing tab pos with
  | nil => simp [serialize]
  | cons e tab2 ih =>
    obtain ⟨a1, a2, a3⟩ := h1 e List.mem_cons_self
    have hsz := codeRecord_length p e
    have e0 : serialize p (e :: tab2) = codeRecord p e ++ serialize p tab2 := by simp [serialize]
    rw [List.length_cons, show tab2.length + 1 + n = (tab2.length + n) + 1 by omega]
    simp only [parseFrom]
    have hne : serialize p (e :: tab2) ++ rest ≠ [] := by
      rw [e0]; intro h; have := congrArg List.length h
      rw [List.length_append, List.length_append, hsz, List.length_nil] at this; omega
    rw [if_neg hne, e0, List.append_assoc, parseRecord_codeRecord p tab pos e _ a1 a2 a3]
    · simp only
      rw [List.drop_left' rfl, ih (tab ++ [e])]
      · simp only [List.append_assoc, List.cons_append, List.nil_append, List.length_append]
        congr 1; omega
      · exact fun x hx => h1 x (List.mem_cons_of_mem _ hx)
      · simpa using hd
      · simpa using hc
    · intro x hx hxe
      rw [List.map_append, List.nodup_append] at hd
      exact hd.2.2 _ (List.mem_map.2 ⟨x, hx, rfl⟩) _ (List.mem_map.2 ⟨e, List.mem_cons_self, rfl⟩) hxe
    · simp at hc; omega

theorem serialize_length_ge (p : Params) (tab : List CodeEntry) : 2 * tab.length ≤ (serialize p tab).length := by
  induction tab with
  | nil => simp
  | cons e tab ih =>
    have e0 : serialize p (e :: tab) = codeRecord p e ++ serialize p tab := by simp [serialize]
    rw [e0, List.length_append, codeRecord_length, List.length_cons]; omega

theorem parseFrom_nil (p : Params) (n : Nat) (tab : List CodeEntry) (pos : Nat) : parseFrom p n tab pos [] = .ok tab := by
  cases n <;> simp [parseFrom]

/-- DESER_TABLE of what SER_TABLE wrote (43_huffman_decoder.md R167). -/
theorem deserialize_serialize (p : Params) (tab : List CodeEntry)
    (h1 : ∀ e ∈ tab, 1 ≤ e.code.length ∧ e.code.length ≤ 65535 ∧ e.sym.toNat < 2 ^ p.symW)
    (hd : (tab.map CodeEntry.code).Nodup) (hc : tab.length ≤ p.maxSyms) :
    deserialize p (serialize p tab) = .ok tab := by
  have hl := serialize_length_ge p tab
  have := parseFrom_serialize p ((serialize p tab).length - tab.length) [] tab 0 [] h1 (by simpa using hd) (by simpa using hc)
  rw [List.append_nil, parseFrom_nil] at this
  unfold deserialize
  rw [show (serialize p tab).length = tab.length + ((serialize p tab).length - tab.length) by omega]
  simpa using this

/-- What DESER_TABLE takes is the serialization of what it makes of it. -/
theorem parseFrom_ok {p : Params} (hp : p.symBytes ≤ 4) (n : Nat) (tab : List CodeEntry) (pos : Nat) (t : List Byte)
    (out : List CodeEntry) (hn : t.length ≤ n) (hd : (tab.map CodeEntry.code).Nodup) (hc : tab.length ≤ p.maxSyms)
    (h : parseFrom p n tab pos t = .ok out) :
    ∃ tab2, out = tab ++ tab2 ∧ t = serialize p tab2 ∧ (out.map CodeEntry.code).Nodup ∧ out.length ≤ p.maxSyms ∧
      ∀ e ∈ tab2, 1 ≤ e.code.length ∧ e.code.length ≤ 65535 ∧ e.sym.toNat < 2 ^ p.symW := by
  induction n generalizing tab pos t with
  | zero =>
    have : t = [] := List.length_eq_zero_iff.1 (by omega)
    simp only [parseFrom, Except.ok.injEq] at h
    subst h; exact ⟨[], by simp, by simp [this, serialize], hd, hc, by simp⟩
  | succ n ih =>
    simp only [parseFrom] at h
    split at h
    · next ht => cases h; exact ⟨[], by simp, by simp [ht, serialize], hd, hc, by simp⟩
    · split at h
      · cases h
      · next e size hr =>
        obtain ⟨a1, a2, a3, a4, a5, a6, a7⟩ := parseRecord_ok hp hr
        have hsz := codeRecord_length p e
        obtain ⟨tab2, b1, b2, b3, b4, b5⟩ := ih (tab ++ [e]) (pos + size) (t.drop size)
          (by simp; omega) (by
            rw [List.map_append, List.nodup_append]
            refine ⟨hd, by simp, ?_⟩
            intro x hx y hy
            obtain ⟨z, hz, rfl⟩ := List.mem_map.1 hx
            simp at hy; subst hy; exact a4 z hz) (by simp; omega) h
        refine ⟨e :: tab2, by simp [b1], ?_, b3, b4, ?_⟩
        · rw [a7, b2]; simp [serialize]
        · intro x hx
          rcases List.mem_cons.1 hx with rfl | hx
          · exact ⟨a1, a2, a3⟩
          · exact b5 x hx

theorem deserialize_ok {p : Params} (hp : p.symBytes ≤ 4) {t : List Byte} {tab : List CodeEntry}
    (h : deserialize p t = .ok tab) : t = serialize p tab ∧ tableFits p tab ∧ ∀ e ∈ tab, e.code.length ≤ 65535 := by
  obtain ⟨tab2, h1, h2, h3, h4, h5⟩ := parseFrom_ok hp _ [] 0 t tab (Nat.le_refl _) (by simp) (by simp) h
  rw [List.nil_append] at h1
  subst h1
  exact ⟨h2, ⟨fun e he => ⟨(h5 e he).1, (h5 e he).2.2⟩, h3, h4⟩, fun e he => (h5 e he).2.1⟩

/-! ### DEC_BITS and ENC_BITS -/

theorem symbolOf_none {tab : List CodeEntry} {p : Bitstring} : symbolOf tab p = none ↔ ∀ e ∈ tab, e.code ≠ p := by
  simp [symbolOf]

/-- The scan over the rest `q` of a code whose start is the running prefix `p`, when no code is reached earlier. -/
theorem decodeFrom_code (tab : List CodeEntry) (p q bs : Bitstring) (x : Symbol) (hq : q ≠ [])
    (hx : symbolOf tab (p ++ q) = some x)
    (hno : ∀ r, r <+: q → r ≠ [] → r ≠ q → symbolOf tab (p ++ r) = none) :
    decodeFrom tab p (q ++ bs) = (x :: (decodeFrom tab [] bs).1, (decodeFrom tab [] bs).2) := by
  induction q generalizing p with
  | nil => exact absurd rfl hq
  | cons b q ih =>
    simp only [List.cons_append, decodeFrom]
    by_cases hq' : q = []
    · subst hq'; simp [hx]
    · rw [hno [b] (by simp) (by simp) (by simpa using fun h => hq' h)]
      simp only
      refine ih (p ++ [b]) hq' (by simpa using hx) ?_
      intro r h1 h2 h3
      have := hno (b :: r) (by simpa using h1) (by simp) (by simpa using h3)
      simpa using this

/-- In a prefix-free table only an entry's own code starts its code. -/
theorem prefixFree_eq {tab : List CodeEntry} (hp : prefixFree (tab.map CodeEntry.code)) {a b : CodeEntry} (ha : a ∈ tab)
    (hb : b ∈ tab) (h : a.code <+: b.code) : a = b := by
  obtain ⟨i, hi, rfl⟩ := List.getElem_of_mem ha
  obtain ⟨j, hj, rfl⟩ := List.getElem_of_mem hb
  have hq := List.pairwise_iff_getElem.1 (List.pairwise_map.1 hp)
  rcases Nat.lt_trichotomy i j with hij | hij | hij
  · exact absurd h (hq i j hi hj hij).1
  · simp [hij]
  · exact absurd h (hq j i hj hi hij).2

/-- Concatenated codes of a prefix-free table scan to their symbols with nothing left. -/
theorem decodeBits_codes (tab es : List CodeEntry) (hp : prefixFree (tab.map CodeEntry.code))
    (hne : ∀ e ∈ tab, e.code ≠ []) (hes : ∀ e ∈ es, e ∈ tab) :
    decodeBits tab ((es.map CodeEntry.code).flatten) = (es.map CodeEntry.sym, []) := by
  have hsame : ∀ e ∈ tab, symbolOf tab e.code = some e.sym := by
    intro e he
    cases h : symbolOf tab e.code with
    | none => exact absurd rfl (symbolOf_none.1 h e he)
    | some x =>
      simp only [symbolOf, Option.map_eq_some_iff] at h
      obtain ⟨f, hf, rfl⟩ := h
      have h1 := List.mem_of_find?_eq_some hf
      have h2 := List.find?_some hf
      simp only [decide_eq_true_eq] at h2
      by_cases hfe : f = e
      · rw [hfe]
      · exfalso
        exact hfe (prefixFree_eq hp h1 he (by rw [h2]))
  unfold decodeBits
  induction es with
  | nil => simp [decodeFrom]
  | cons e es ih =>
    have he := hes e List.mem_cons_self
    simp only [List.map_cons, List.flatten_cons]
    rw [decodeFrom_code tab [] e.code _ e.sym (hne e he) (by simpa using hsame e he)]
    · rw [ih fun x hx => hes x (List.mem_cons_of_mem _ hx)]
    · intro r h1 h2 h3
      rw [List.nil_append, symbolOf_none]
      rintro f hf rfl
      exact h3 (by rw [prefixFree_eq hp hf he h1])

/-- Every bitstring has one reading as codes, each the first that matches, and a rest no start of which is a code. -/
theorem decodeFrom_spec (tab : List CodeEntry) (p bs : Bitstring)
    (hp : ∀ r, r <+: p → r ≠ [] → symbolOf tab r = none) :
    ∃ (ks : List Nat) (q : Bitstring), (decodeFrom tab p bs).2 = q ∧
      (∀ k ∈ ks, k < tab.length) ∧
      (decodeFrom tab p bs).1 = ks.map (fun k => (tab.getD k default).sym) ∧
      p ++ bs = (ks.map fun k => (tab.getD k default).code).flatten ++ q ∧
      (∀ k ∈ ks, (tab.getD k default).code ≠ [] ∧ (∀ j < k, (tab.getD j default).code ≠ (tab.getD k default).code) ∧
        ∀ j < tab.length, (tab.getD j default).code ≠ [] → (tab.getD j default).code <+: (tab.getD k default).code →
          (tab.getD j default).code = (tab.getD k default).code) ∧
      (∀ j < tab.length, (tab.getD j default).code ≠ [] → ¬ (tab.getD j default).code <+: q) := by
  induction bs generalizing p with
  | nil =>
    refine ⟨[], p, rfl, by simp, by simp [decodeFrom], by simp, by simp, ?_⟩
    intro j hj hne hpre
    have := symbolOf_none.1 (hp _ hpre hne) (tab.getD j default) (by
      rw [List.getD_eq_getElem?_getD, List.getElem?_eq_getElem hj]; exact List.getElem_mem hj)
    exact this rfl
  | cons b bs ih =>
    simp only [decodeFrom]
    cases hs : symbolOf tab (p ++ [b]) with
    | none =>
      simp only
      obtain ⟨ks, q, h1, h2, h3, h4, h5⟩ := ih (p ++ [b]) (by
        intro r hr hne
        rcases List.prefix_concat_iff.1 (by simpa using hr) with rfl | hr
        · exact hs
        · exact hp r hr hne)
      exact ⟨ks, q, h1, h2, h3, by simpa using h4, h5⟩
    | some x =>
      simp only
      obtain ⟨ks, q, h1, h2, h3, h4, h5, h6⟩ := ih [] (by simp)
      simp only [symbolOf, Option.map_eq_some_iff] at hs
      obtain ⟨e, he, rfl⟩ := hs
      rw [List.find?_eq_some_iff_getElem] at he
      obtain ⟨hc, k, hk, hke, hkl⟩ := he
      simp only [decide_eq_true_eq] at hc
      have gk : tab.getD k default = e := by
        rw [List.getD_eq_getElem?_getD, List.getElem?_eq_getElem hk]; exact hke
      refine ⟨k :: ks, q, h1, ?_, ?_, ?_, ?_, h6⟩
      · intro j hj
        rcases List.mem_cons.1 hj with rfl | hj
        · exact hk
        · exact h2 j hj
      · rw [List.map_cons, gk, h3]
      · rw [List.map_cons, List.flatten_cons, gk, hc, List.append_assoc, List.append_assoc, ← h4]; simp
      · intro j hj
        rcases List.mem_cons.1 hj with rfl | hj
        · rw [gk, hc]
          refine ⟨by simp, ?_, ?_⟩
          · intro i hi
            have := hkl i hi
            rw [List.getD_eq_getElem?_getD, List.getElem?_eq_getElem (by omega)]
            simpa using this
          · intro i hi hne hpre
            rcases List.prefix_concat_iff.1 (by simpa using hpre) with h | hr
            · exact h
            · exfalso
              exact symbolOf_none.1 (hp _ hr hne) (tab.getD i default) (by
                rw [List.getD_eq_getElem?_getD, List.getElem?_eq_getElem hi]; exact List.getElem_mem hi) rfl
        · exact h5 j hj

end Sys2Proof.Machine
end

