-- ==== Sys2Proof/Laws/Memory.lean ====
section
/-! SUPPORT. One buffer: reading after writing, and that every write keeps the canonical form. -/

namespace Sys2Proof.Machine

variable {α : Type}

/-! ### Reading -/

@[simp] theorem Memory.get?_nil (i : Nat) : Memory.get? ([] : Memory α) i = none := rfl

theorem Memory.get?_cons (j : Nat) (w : α) (m : Memory α) (i : Nat) :
    Memory.get? ((j, w) :: m) i = if i = j then some w else Memory.get? m i := rfl

theorem Memory.get?_append (m k : Memory α) (i : Nat) :
    Memory.get? (m ++ k) i = (Memory.get? m i).or (Memory.get? k i) := by
  induction m with
  | nil => simp
  | cons c m ih =>
    obtain ⟨j, w⟩ := c
    simp only [List.cons_append, Memory.get?_cons]
    split <;> simp [ih]

theorem Memory.get?_filter (p : Nat → Bool) (m : Memory α) (i : Nat) :
    Memory.get? (m.filter fun c => p c.1) i = if p i then Memory.get? m i else none := by
  induction m with
  | nil => simp
  | cons c m ih =>
    obtain ⟨j, w⟩ := c
    by_cases hj : p j
    · simp only [List.filter_cons, hj, if_true, Memory.get?_cons, ih]
      split
      · next h => subst h; simp [hj]
      · rfl
    · have hj' : p j = false := by simpa using hj
      simp only [List.filter_cons, hj', Bool.false_eq_true, if_false, Memory.get?_cons, ih]
      by_cases h : i = j
      · subst h; simp [hj']
      · simp [h]

theorem Memory.get?_cells (i : Nat) (s : List α) (j : Nat) :
    Memory.get? (Memory.cells i s) j = if i ≤ j then s[j - i]? else none := by
  induction s generalizing i with
  | nil => simp [Memory.cells]
  | cons v vs ih =>
    simp only [Memory.cells, Memory.get?_cons, ih]
    by_cases h : j = i
    · subst h; simp
    · by_cases h' : i ≤ j
      · have e : j - i = (j - (i + 1)) + 1 := by omega
        have h2 : i + 1 ≤ j := by omega
        simp [h, h', h2, e]
      · have h2 : ¬ i + 1 ≤ j := by omega
        simp [h, h', h2]

/-! ### Read after write -/

theorem Memory.get?_set (m : Memory α) (i j : Nat) (v : α) (h : Memory.wf m) :
    Memory.get? (Memory.set m i v) j = if j = i then some v else Memory.get? m j := by
  induction m with
  | nil => simp [Memory.set, Memory.get?_cons]
  | cons c m ih =>
    obtain ⟨k, w⟩ := c
    have hm : Memory.wf m := (List.pairwise_cons.1 h).2
    simp only [Memory.set]
    split
    · simp only [Memory.get?_cons]
    · split
      · next h2 => subst h2; simp only [Memory.get?_cons]; split <;> rfl
      · next h1 h2 =>
        simp only [Memory.get?_cons, ih hm]
        by_cases hj : j = i
        · subst hj; simp [h2]
        · simp [hj]

theorem Memory.get?_writeSeq (m : Memory α) (i : Nat) (s : List α) (j : Nat) :
    Memory.get? (Memory.writeSeq m i s) j =
      if j < i then Memory.get? m j
      else if j < i + s.length then s[j - i]?
      else Memory.get? m j := by
  simp only [Memory.writeSeq, Memory.get?_append, Memory.get?_cells]
  rw [Memory.get?_filter (fun k => decide (k < i)), Memory.get?_filter (fun k => decide (i + s.length ≤ k))]
  by_cases h1 : j < i
  · have h2 : ¬ i ≤ j := by omega
    have h3 : ¬ i + s.length ≤ j := by omega
    simp [h1, h2, h3]
  · have h2 : i ≤ j := by omega
    by_cases h3 : j < i + s.length
    · have h4 : ¬ i + s.length ≤ j := by omega
      simp [h1, h2, h3, h4]
    · have h4 : i + s.length ≤ j := by omega
      have h5 : s[j - i]? = none := by simp; omega
      simp [h1, h2, h3, h4, h5]

theorem Memory.read_set (d : Nat → α) (m : Memory α) (i j : Nat) (v : α) (h : Memory.wf m) :
    Memory.read d (Memory.set m i v) j = if j = i then v else Memory.read d m j := by
  simp only [Memory.read, Memory.get?_set m i j v h]
  split <;> rfl

/-- Below the new length a buffer written from index 0 reads as the sequence. -/
theorem Memory.read_writeSeq_lt (d : Nat → α) (m : Memory α) (s : List α) (j : Nat) (h : j < s.length) :
    Memory.read d (Memory.writeSeq m 0 s) j = s[j] := by
  simp [Memory.read, Memory.get?_writeSeq, h]

/-- At or above the new length it reads as before (10_state.md R49). -/
theorem Memory.read_writeSeq_ge (d : Nat → α) (m : Memory α) (s : List α) (j : Nat) (h : s.length ≤ j) :
    Memory.read d (Memory.writeSeq m 0 s) j = Memory.read d m j := by
  have : ¬ j < s.length := by omega
  simp [Memory.read, Memory.get?_writeSeq, this]

/-! ### The canonical form -/

theorem Memory.wf_nil : Memory.wf ([] : Memory α) := List.Pairwise.nil

theorem Memory.wf_cons {j : Nat} {w : α} {m : Memory α} :
    Memory.wf ((j, w) :: m) ↔ (∀ c ∈ m, j < c.1) ∧ Memory.wf m := by
  simp [Memory.wf, List.pairwise_cons]

theorem Memory.fst_mem_set (m : Memory α) (i : Nat) (v : α) (c : Nat × α) (h : c ∈ Memory.set m i v) :
    c.1 = i ∨ c ∈ m := by
  induction m with
  | nil => simp only [Memory.set, List.mem_singleton] at h; subst h; simp
  | cons e m ih =>
    obtain ⟨j, w⟩ := e
    simp only [Memory.set] at h
    split at h
    · rcases List.mem_cons.1 h with rfl | h
      · exact .inl rfl
      · exact .inr h
    · split at h
      · rcases List.mem_cons.1 h with rfl | h
        · exact .inl rfl
        · exact .inr (List.mem_cons_of_mem _ h)
      · rcases List.mem_cons.1 h with rfl | h
        · exact .inr List.mem_cons_self
        · rcases ih h with h | h
          · exact .inl h
          · exact .inr (List.mem_cons_of_mem _ h)

/-- Writing one element keeps the canonical form. -/
theorem Memory.wf_set (m : Memory α) (i : Nat) (v : α) (h : Memory.wf m) : Memory.wf (Memory.set m i v) := by
  induction m with
  | nil => simp [Memory.set, Memory.wf]
  | cons e m ih =>
    obtain ⟨j, w⟩ := e
    obtain ⟨h1, h2⟩ := Memory.wf_cons.1 h
    simp only [Memory.set]
    split
    · next hlt =>
      refine Memory.wf_cons.2 ⟨?_, h⟩
      intro c hc
      rcases List.mem_cons.1 hc with rfl | hc
      · exact hlt
      · exact Nat.lt_trans hlt (h1 c hc)
    · split
      · next heq => subst heq; exact Memory.wf_cons.2 ⟨h1, h2⟩
      · refine Memory.wf_cons.2 ⟨?_, ih h2⟩
        intro c hc
        rcases Memory.fst_mem_set m i v c hc with hc | hc
        · omega
        · exact h1 c hc

theorem Memory.mem_cells (i : Nat) (s : List α) (c : Nat × α) (h : c ∈ Memory.cells i s) :
    i ≤ c.1 ∧ c.1 < i + s.length ∧ c.2 ∈ s := by
  induction s generalizing i with
  | nil => simp [Memory.cells] at h
  | cons v vs ih =>
    rcases List.mem_cons.1 h with rfl | h
    · simp
    · obtain ⟨h1, h2, h3⟩ := ih (i + 1) h
      refine ⟨by omega, ?_, List.mem_cons_of_mem _ h3⟩
      simp only [List.length_cons]; omega

theorem Memory.wf_cells (i : Nat) (s : List α) : Memory.wf (Memory.cells i s) := by
  induction s generalizing i with
  | nil => exact Memory.wf_nil
  | cons v vs ih =>
    refine Memory.wf_cons.2 ⟨?_, ih (i + 1)⟩
    intro c hc
    have := Memory.mem_cells _ _ _ hc
    omega

theorem Memory.wf_filter (p : Nat × α → Bool) (m : Memory α) (h : Memory.wf m) : Memory.wf (m.filter p) :=
  List.Pairwise.sublist (List.Sublist.map _ List.filter_sublist) h

theorem Memory.wf_append {m k : Memory α} (hm : Memory.wf m) (hk : Memory.wf k)
    (h : ∀ c ∈ m, ∀ e ∈ k, c.1 < e.1) : Memory.wf (m ++ k) := by
  simp only [Memory.wf, List.map_append]
  refine List.pairwise_append.2 ⟨hm, hk, ?_⟩
  intro a ha b hb
  obtain ⟨c, hc, rfl⟩ := List.mem_map.1 ha
  obtain ⟨e, he, rfl⟩ := List.mem_map.1 hb
  exact h c hc e he

/-- The cells after `MemWrite`: the sequence's, and those of before outside it. -/
theorem Memory.mem_writeSeq (m : Memory α) (i : Nat) (s : List α) (c : Nat × α)
    (h : c ∈ Memory.writeSeq m i s) : c ∈ m ∨ (i ≤ c.1 ∧ c.1 < i + s.length ∧ c.2 ∈ s) := by
  simp only [Memory.writeSeq, List.mem_append, List.mem_filter] at h
  rcases h with (h | h) | h
  · exact .inl h.1
  · exact .inr (Memory.mem_cells i s c h)
  · exact .inl h.1

/-- `MemWrite` keeps the canonical form. -/
theorem Memory.wf_writeSeq (m : Memory α) (i : Nat) (s : List α) (h : Memory.wf m) :
    Memory.wf (Memory.writeSeq m i s) := by
  refine Memory.wf_append (Memory.wf_append (Memory.wf_filter _ m h) (Memory.wf_cells i s) ?_)
    (Memory.wf_filter _ m h) ?_
  · intro c hc e he
    have h1 := (List.mem_filter.1 hc).2
    have h2 := Memory.mem_cells _ _ _ he
    simp only [decide_eq_true_eq] at h1
    omega
  · intro c hc e he
    have h2 := (List.mem_filter.1 he).2
    simp only [decide_eq_true_eq] at h2
    rcases List.mem_append.1 hc with hc | hc
    · have h1 := (List.mem_filter.1 hc).2
      simp only [decide_eq_true_eq] at h1
      omega
    · have h1 := Memory.mem_cells _ _ _ hc
      omega

/-! ### Sequences of elements -/

@[simp] theorem memRead_length (elem : Nat → α) (i n : Nat) : (memRead elem i n).length = n := by
  simp [memRead]

@[simp] theorem memRead_zero (elem : Nat → α) (i : Nat) : memRead elem i 0 = [] := rfl

@[simp] theorem memRead_getElem (elem : Nat → α) (i n j : Nat) (h : j < (memRead elem i n).length) :
    (memRead elem i n)[j] = elem (i + j) := by
  simp [memRead]

theorem memRead_congr (e f : Nat → α) (i n : Nat) (h : ∀ j, i ≤ j → j < i + n → e j = f j) :
    memRead e i n = memRead f i n := by
  apply List.ext_getElem (by simp)
  intro j h1 h2
  have hn : j < n := by simpa using h1
  simpa using h (i + j) (by omega) (by omega)

/-- Reading back a sequence written from index 0. -/
theorem memRead_writeSeq (d : Nat → α) (m : Memory α) (s : List α) :
    memRead (Memory.read d (Memory.writeSeq m 0 s)) 0 s.length = s := by
  apply List.ext_getElem (by simp)
  intro j h1 h2
  simp [Memory.read_writeSeq_lt d m s j h2]

theorem mem_memRead (elem : Nat → α) (i n : Nat) (x : α) :
    x ∈ memRead elem i n ↔ ∃ j, i ≤ j ∧ j < i + n ∧ elem j = x := by
  simp only [memRead, List.mem_map, List.mem_range'_1]
  constructor
  · rintro ⟨j, h, rfl⟩; exact ⟨j, h.1, h.2, rfl⟩
  · rintro ⟨j, h1, h2, rfl⟩; exact ⟨j, ⟨h1, h2⟩, rfl⟩

end Sys2Proof.Machine
end

