-- ==== Sys2Proof/Laws/Encoder.lean ====
section
/-! SUPPORT. The Huffman encoder: the frequency table of a text, the merging loop of BUILD_TREE, and the walk of
GEN_CODES over a tree. -/

namespace Sys2Proof.Machine

/-! ### ANALYZE -/

/-- The frequency table of a text: its distinct symbols in order of first occurrence, with their counts. -/
def tableOf (xs : List Symbol) : List FreqEntry :=
  xs.eraseDups.map fun x => { sym := x, count := BitVec.ofNat 32 (xs.count x) }

@[simp] theorem tableOf_length (xs : List Symbol) : (tableOf xs).length = xs.eraseDups.length := by simp [tableOf]

theorem mem_eraseDups (xs : List Symbol) (x : Symbol) : x ∈ xs.eraseDups ↔ x ∈ xs := by
  simp

theorem eraseDups_snoc (xs : List Symbol) (x : Symbol) :
    (xs ++ [x]).eraseDups = if x ∈ xs then xs.eraseDups else xs.eraseDups ++ [x] := by
  rw [List.eraseDups_append]
  split <;> simp_all [List.removeAll, List.eraseDups_cons]

theorem nodup_eraseDups (xs : List Symbol) : xs.eraseDups.Nodup := by
  induction xs using List.reverseRecOn with
  | nil => simp
  | append_singleton xs x ih =>
    rw [eraseDups_snoc]
    split
    · exact ih
    · next h => 
      rw [List.nodup_append]
      refine ⟨ih, by simp, ?_⟩
      intro a ha b hb
      simp at hb ha; subst hb; intro h2; subst h2; exact h ha

/-- Counting a symbol of a list of entries with distinct symbols adds 1 to its entry. -/
theorem countSymbol_map (x : Symbol) (ds : List Symbol) (c : Symbol → Word) (hn : ds.Nodup) :
    countSymbol x (ds.map fun y => { sym := y, count := c y }) =
      if x ∈ ds then some (ds.map fun y => { sym := y, count := if y = x then c y + 1#32 else c y }) else none := by
  induction ds with
  | nil => simp [countSymbol]
  | cons d ds ih =>
    obtain ⟨h1, h2⟩ := List.nodup_cons.1 hn
    simp only [List.map_cons, countSymbol]
    by_cases hd : d = x
    · subst hd
      simp only [if_true, List.mem_cons, true_or]
      congr 1
      congr 1
      apply List.map_congr_left
      intro y hy
      have : y ≠ d := by rintro rfl; exact h1 hy
      simp [this]
    · have hx : x ≠ d := fun h => hd h.symm
      simp only [hd, if_false, ih h2, List.mem_cons, hx, false_or]
      split <;> simp

theorem countSymbol_tableOf (x : Symbol) (xs : List Symbol) :
    countSymbol x (tableOf xs) = if x ∈ xs then some (tableOf (xs ++ [x])) else none := by
  rw [tableOf, countSymbol_map _ _ _ (nodup_eraseDups xs)]
  simp only [List.mem_eraseDups]
  split
  · next h =>
    simp only [tableOf, eraseDups_snoc, h, if_true, Option.some.injEq]
    apply List.map_congr_left
    intro y _
    simp only [List.count_append, FreqEntry.mk.injEq, true_and]
    split
    · next hy => subst hy; rw [List.count_singleton_self, BitVec.ofNat_add]
    · next hy => 
      have : List.count y [x] = 0 := by simp [List.count_singleton]; exact fun h => hy h.symm
      rw [this]; rfl
  · rfl

theorem tableOf_snoc_new (x : Symbol) (xs : List Symbol) (h : x ∉ xs) :
    tableOf (xs ++ [x]) = tableOf xs ++ [{ sym := x, count := 1#32 }] := by
  simp only [tableOf, eraseDups_snoc, h, if_false, List.map_append, List.map_cons, List.map_nil]
  congr 1
  · apply List.map_congr_left
    intro y hy
    have hy' : y ∈ xs := (mem_eraseDups _ _).1 hy
    have : List.count y [x] = 0 := by
      simp [List.count_singleton]; rintro rfl; exact h hy'
    simp [this]
  · have : List.count x xs = 0 := List.count_eq_zero.2 h
    simp [this]

theorem eraseDups_take_le (xs ys : List Symbol) : xs.eraseDups.length ≤ (xs ++ ys).eraseDups.length := by
  rw [List.eraseDups_append]; simp

/-- ANALYZE on a text whose distinct symbols fit. -/
theorem countFrom_ok (maxSyms i : Nat) (seen xs : List Symbol) (h : (seen ++ xs).eraseDups.length ≤ maxSyms) :
    countFrom maxSyms i (tableOf seen) xs = .ok (tableOf (seen ++ xs)) := by
  induction xs generalizing i seen with
  | nil => simp [countFrom]
  | cons x xs ih =>
    have e : seen ++ x :: xs = (seen ++ [x]) ++ xs := by simp
    simp only [countFrom, countSymbol_tableOf]
    by_cases hx : x ∈ seen
    · simp only [hx, if_true]; rw [e] at h ⊢; exact ih _ _ h
    · have hl : (seen ++ [x]).eraseDups.length ≤ maxSyms := by
        rw [e] at h; exact Nat.le_trans (eraseDups_take_le _ _) h
      have hl2 : (tableOf seen).length ≠ maxSyms := by
        rw [eraseDups_snoc, if_neg hx] at hl; simp at hl ⊢; omega
      simp only [hx, if_false, hl2]
      rw [← tableOf_snoc_new x seen hx, e]
      rw [e] at h
      exact ih _ _ h

/-- ANALYZE on a text whose symbol `j` is the first that finds no room. -/
theorem countFrom_error (maxSyms i : Nat) (seen xs : List Symbol) (j : Nat) (hj : j < xs.length)
    (h : (seen ++ xs.take j).eraseDups.length = maxSyms) (hx : xs[j] ∉ seen ++ xs.take j) :
    countFrom maxSyms i (tableOf seen) xs = .error (i + j) := by
  induction xs generalizing i seen j with
  | nil => simp at hj
  | cons x xs ih =>
    simp only [countFrom, countSymbol_tableOf]
    cases j with
    | zero =>
      simp only [List.take_zero, List.append_nil, List.getElem_cons_zero] at h hx
      simp [hx, h]
    | succ j =>
      simp only [List.take_succ_cons, List.getElem_cons_succ] at h hx
      have e : seen ++ x :: xs.take j = (seen ++ [x]) ++ xs.take j := by simp
      rw [e] at h hx
      have hj' : j < xs.length := by simpa using hj
      have e2 : i + (j + 1) = i + 1 + j := by omega
      by_cases hm : x ∈ seen
      · simp only [hm, if_true]; rw [e2]; exact ih _ _ j hj' h hx
      · have hl : (seen ++ [x]).eraseDups.length ≤ maxSyms := by
          rw [← h]; exact eraseDups_take_le _ _
        have hl2 : (tableOf seen).length ≠ maxSyms := by
          rw [eraseDups_snoc, if_neg hm] at hl; simp at hl ⊢; omega
        simp only [hm, if_false, hl2]
        rw [← tableOf_snoc_new x seen hm, e2]
        exact ih _ _ j hj' h hx

theorem countFrom_inv (maxSyms : Nat) (xs : List Symbol) (f : List FreqEntry)
    (h : countFrom maxSyms 0 [] xs = .ok f) : f = tableOf xs ∧ xs.eraseDups.length ≤ maxSyms := by
  have key : ∀ (i : Nat) (seen xs : List Symbol), seen.eraseDups.length ≤ maxSyms → countFrom maxSyms i (tableOf seen) xs = .ok f →
      f = tableOf (seen ++ xs) ∧ (seen ++ xs).eraseDups.length ≤ maxSyms := by
    intro i seen xs
    induction xs generalizing i seen with
    | nil => intro hs h; simp [countFrom] at h; simp [h, hs]
    | cons x xs ih =>
      intro hs h
      have e : seen ++ x :: xs = (seen ++ [x]) ++ xs := by simp
      simp only [countFrom, countSymbol_tableOf] at h
      by_cases hm : x ∈ seen
      · simp only [hm, if_true] at h
        rw [e]; exact ih _ _ (by rw [eraseDups_snoc, if_pos hm]; exact hs) h
      · simp only [hm, if_false] at h
        split at h
        · cases h
        · next hl =>
          rw [← tableOf_snoc_new x seen hm] at h
          rw [e]; refine ih _ _ ?_ h
          rw [eraseDups_snoc, if_neg hm]; simp at hl ⊢; omega
  exact key 0 [] xs (by simp) h

/-- The counts of a text's table sum to its length (41_huffman_encoder.md R122). -/
theorem sum_count_eraseDups (xs : List Symbol) : (xs.eraseDups.map fun x => xs.count x).sum = xs.length := by
  have h := List.sum_map_count_dedup_eq_length xs
  have p : xs.eraseDups.Perm xs.dedup := by
    rw [List.perm_ext_iff_of_nodup (nodup_eraseDups xs) (List.nodup_dedup xs)]
    simp
  rw [← h]; exact (p.map _).sum_eq

/-! ### BUILD_TREE -/

/-- The arena as a function of the handle. -/
abbrev nodeOf (nodes : List TreeNode) (h : Nat) : TreeNode := nodes.getD h default

theorem keyLess_iff (nodes : List TreeNode) (g h : Nat) : keyLess nodes g h = true ↔ lighter (nodeOf nodes) g h := by
  simp [keyLess, nodeFreq, lighter, nodeOf]

theorem lighter_trans {node : Nat → TreeNode} {a b c : Nat} (h : lighter node a b) (k : lighter node b c) :
    lighter node a c := by
  unfold lighter at *; omega

theorem lighter_total (node : Nat → TreeNode) {a b : Nat} (h : a ≠ b) : lighter node a b ∨ lighter node b a := by
  unfold lighter; omega

theorem leastFrom_spec (nodes : List TreeNode) (best : Nat) (hs : List Nat) :
    leastFrom nodes best hs ∈ best :: hs ∧
      ∀ h ∈ best :: hs, h ≠ leastFrom nodes best hs → lighter (nodeOf nodes) (leastFrom nodes best hs) h := by
  induction hs generalizing best with
  | nil => simp [leastFrom]
  | cons x xs ih =>
    simp only [leastFrom]
    split
    · next hk =>
      rw [keyLess_iff] at hk
      obtain ⟨h1, h2⟩ := ih x
      refine ⟨List.mem_cons_of_mem _ h1, ?_⟩
      intro h hm hne
      rcases List.mem_cons.1 hm with rfl | hm
      · by_cases hx : leastFrom nodes x xs = x
        · rw [hx]; exact hk
        · exact lighter_trans (h2 x List.mem_cons_self (fun e => hx e.symm)) hk
      · exact h2 h hm hne
    · next hk =>
      rw [keyLess_iff] at hk
      obtain ⟨h1, h2⟩ := ih best
      refine ⟨?_, ?_⟩
      · rcases List.mem_cons.1 h1 with h1 | h1
        · rw [h1]; exact List.mem_cons_self
        · exact List.mem_cons_of_mem _ (List.mem_cons_of_mem _ h1)
      · intro h hm hne
        rcases List.mem_cons.1 hm with rfl | hm
        · exact h2 h List.mem_cons_self hne
        · rcases List.mem_cons.1 hm with rfl | hm
          · by_cases hx : best = h
            · subst hx; exact h2 _ List.mem_cons_self hne
            · have hb : lighter (nodeOf nodes) best h := by
                rcases lighter_total (nodeOf nodes) hx with hb | hb
                · exact hb
                · exact absurd hb hk
              by_cases hx2 : leastFrom nodes best xs = best
              · rw [hx2]; exact hb
              · exact lighter_trans (h2 best List.mem_cons_self (fun e => hx2 e.symm)) hb
          · exact h2 h (List.mem_cons_of_mem _ hm) hne

/-- Taking the lightest handle out of a live set that is not empty. -/
theorem popLeast_spec (nodes : List TreeNode) (live : List Nat) (h : live ≠ []) :
    ∃ a, popLeast nodes live = some (a, live.erase a) ∧ a ∈ live ∧
      ∀ h ∈ live, h ≠ a → lighter (nodeOf nodes) a h := by
  cases live with
  | nil => exact absurd rfl h
  | cons x xs =>
    obtain ⟨h1, h2⟩ := leastFrom_spec nodes x xs
    exact ⟨_, rfl, h1, h2⟩

/-- What the loop of BUILD_TREE keeps: `nodes` and `live` over the frequency list `f`. -/
structure Built (f : List FreqEntry) (nodes : List TreeNode) (live : List Nat) : Prop where
  size : nodes.length + live.length = 2 * f.length
  some_live : live ≠ []
  nodup : live.Nodup
  leaves : ∀ h (hh : h < f.length), nodeOf nodes h = leafNode f[h]
  inner : ∀ g < nodes.length, f.length ≤ g → ∃ a b, nodeOf nodes g = mergedNode nodes a b ∧
    liveWhen (nodeOf nodes) f.length g a ∧ liveWhen (nodeOf nodes) f.length g b ∧ a ≠ b ∧
    (nodeOf nodes g).freq.toNat = (nodeOf nodes a).freq.toNat + (nodeOf nodes b).freq.toNat ∧
    (∀ h, liveWhen (nodeOf nodes) f.length g h → h ≠ a → lighter (nodeOf nodes) a h) ∧
    (∀ h, liveWhen (nodeOf nodes) f.length g h → h ≠ a → h ≠ b → lighter (nodeOf nodes) b h)
  live_iff : ∀ h, h ∈ live ↔ liveWhen (nodeOf nodes) f.length nodes.length h
  sum : (live.map fun h => (nodeOf nodes h).freq.toNat).sum = (f.map fun e => e.count.toNat).sum

theorem Built.start (f : List FreqEntry) (hf : f ≠ []) : Built f (f.map leafNode) (List.range f.length) where
  size := by simp; omega
  some_live := by simpa using hf
  nodup := List.nodup_range
  leaves h hh := by simp [nodeOf, hh]
  inner g hg hn := by simp at hg; omega
  live_iff h := by
    simp only [List.mem_range, liveWhen, List.length_map]
    constructor
    · intro hh; exact ⟨hh, fun k hk hn => by omega⟩
    · exact fun hh => hh.1
  sum := by
    congr 1
    apply List.ext_getElem (by simp)
    intro i h1 h2
    simp at h1 h2
    simp [nodeOf, h1, leafNode]

theorem nodeOf_snoc_lt (nodes : List TreeNode) (x : TreeNode) (h : Nat) (hh : h < nodes.length) :
    nodeOf (nodes ++ [x]) h = nodeOf nodes h := by
  simp [nodeOf, List.getElem?_append, hh]

theorem nodeOf_snoc_eq (nodes : List TreeNode) (x : TreeNode) : nodeOf (nodes ++ [x]) nodes.length = x := by
  simp [nodeOf]

theorem liveWhen_congr {p q : Nat → TreeNode} {n g h : Nat} (e : ∀ k < g, p k = q k) :
    liveWhen p n g h ↔ liveWhen q n g h := by
  unfold liveWhen hasChild
  constructor
  · rintro ⟨h1, h2⟩; exact ⟨h1, fun k hk hn => by rw [← e k hk]; exact h2 k hk hn⟩
  · rintro ⟨h1, h2⟩; exact ⟨h1, fun k hk hn => by rw [e k hk]; exact h2 k hk hn⟩

theorem lighter_congr {p q : Nat → TreeNode} {g h : Nat} (e1 : p g = q g) (e2 : p h = q h) :
    lighter p g h ↔ lighter q g h := by
  unfold lighter; rw [e1, e2]

theorem mergedNode_congr {p q : List TreeNode} {a b : Nat} (e1 : nodeOf p a = nodeOf q a) (e2 : nodeOf p b = nodeOf q b) :
    mergedNode p a b = mergedNode q a b := by
  unfold mergedNode nodeFreq; unfold nodeOf at e1 e2; rw [e1, e2]

theorem Built.step {f : List FreqEntry} {nodes : List TreeNode} {live : List Nat} {a b : Nat} (B : Built f nodes live)
    (hN : f.length ≤ 2 ^ 31) (hS : (f.map fun e => e.count.toNat).sum < 2 ^ 32)
    (ha : a ∈ live) (hmin : ∀ h ∈ live, h ≠ a → lighter (nodeOf nodes) a h)
    (hb : b ∈ live.erase a) (hmin2 : ∀ h ∈ live.erase a, h ≠ b → lighter (nodeOf nodes) b h) :
    Built f (nodes ++ [mergedNode nodes a b]) ((live.erase a).erase b ++ [nodes.length]) := by
  have hnd := B.nodup
  have mem1 : ∀ h, h ∈ live.erase a ↔ h ≠ a ∧ h ∈ live := fun h => hnd.mem_erase_iff
  have mem2 : ∀ h, h ∈ (live.erase a).erase b ↔ h ≠ b ∧ h ≠ a ∧ h ∈ live := fun h => by
    rw [(hnd.erase a).mem_erase_iff, mem1]
  obtain ⟨hba, hbl⟩ := (mem1 b).1 hb
  have inb : ∀ h ∈ live, h < nodes.length := fun h hh => ((B.live_iff h).1 hh).1
  have haN := inb a ha
  have hbN := inb b hbl
  have hlen1 := List.length_erase_of_mem ha
  have hlen2 := List.length_erase_of_mem hb
  have hpos : 0 < live.length := List.length_pos_of_mem ha
  have hpos2 : 0 < (live.erase a).length := List.length_pos_of_mem hb
  have hsz := B.size
  -- the sum splits
  have hsum : (nodeOf nodes a).freq.toNat + ((nodeOf nodes b).freq.toNat +
      (((live.erase a).erase b).map fun h => (nodeOf nodes h).freq.toNat).sum) = (f.map fun e => e.count.toNat).sum := by
    rw [← B.sum]
    have p1 := (List.perm_cons_erase ha).map (fun h => (nodeOf nodes h).freq.toNat)
    have p2 := (List.perm_cons_erase hb).map (fun h => (nodeOf nodes h).freq.toNat)
    rw [p1.sum_eq, List.map_cons, List.sum_cons, p2.sum_eq, List.map_cons, List.sum_cons]
  have hfreq : (mergedNode nodes a b).freq.toNat = (nodeOf nodes a).freq.toNat + (nodeOf nodes b).freq.toNat := by
    simp only [mergedNode, nodeFreq, BitVec.toNat_ofNat, nodeOf] at hsum ⊢
    rw [Nat.mod_eq_of_lt]; omega
  have hlt : ∀ h, h < nodes.length → nodeOf (nodes ++ [mergedNode nodes a b]) h = nodeOf nodes h :=
    fun h hh => nodeOf_snoc_lt _ _ _ hh
  have heq := nodeOf_snoc_eq nodes (mergedNode nodes a b)
  have hleft : (mergedNode nodes a b).left.toNat = a := by
    simp only [mergedNode, BitVec.toNat_ofNat]; rw [Nat.mod_eq_of_lt]; omega
  have hright : (mergedNode nodes a b).right.toNat = b := by
    simp only [mergedNode, BitVec.toNat_ofNat]; rw [Nat.mod_eq_of_lt]; omega
  refine ⟨?_, by simp, ?_, ?_, ?_, ?_, ?_⟩
  · simp only [List.length_append, List.length_cons, List.length_nil]; omega
  · rw [List.nodup_append]
    refine ⟨(hnd.erase a).erase b, by simp, ?_⟩
    intro x hx y hy
    have := inb x ((mem2 x).1 hx).2.2
    simp at hy; omega
  · intro h hh
    have : f.length ≤ nodes.length := by
      by_contra hc
      have := B.leaves (nodes.length) (by omega)
      have h2 : (live.length ≤ nodes.length) := by
        have := List.Nodup.length_le_card (α := Fin nodes.length) (l := live.attach.map fun x => ⟨x.1, inb x.1 x.2⟩) 
          (by rw [List.nodup_map_iff_inj_on (List.nodup_attach.2 hnd)]; intro x _ y _ e; simpa [Subtype.ext_iff] using e)
        simpa using this
      omega
    rw [hlt h (by omega)]; exact B.leaves h hh
  · intro g hg hn
    rw [List.length_append] at hg
    simp only [List.length_cons, List.length_nil] at hg
    by_cases hgN : g = nodes.length
    · subst hgN
      rw [heq]
      refine ⟨a, b, ?_, ?_, ?_, fun e => hba e.symm, ?_, ?_, ?_⟩
      · exact mergedNode_congr (hlt a haN).symm (hlt b hbN).symm
      · rw [liveWhen_congr hlt]; exact (B.live_iff a).1 ha
      · rw [liveWhen_congr hlt]; exact (B.live_iff b).1 hbl
      · rw [hlt a haN, hlt b hbN]; exact hfreq
      · intro h hl hne
        rw [liveWhen_congr hlt] at hl
        rw [lighter_congr (hlt a haN) (hlt h hl.1)]
        exact hmin h ((B.live_iff h).2 hl) hne
      · intro h hl hne hne2
        rw [liveWhen_congr hlt] at hl
        rw [lighter_congr (hlt b hbN) (hlt h hl.1)]
        exact hmin2 h ((mem1 h).2 ⟨hne, (B.live_iff h).2 hl⟩) hne2
    · have hgN' : g < nodes.length := by omega
      have hlt' : ∀ h < g, nodeOf (nodes ++ [mergedNode nodes a b]) h = nodeOf nodes h := fun h hh => hlt h (by omega)
      obtain ⟨x, y, h1, h2, h3, h4, h5, h6, h7⟩ := B.inner g hgN' hn
      have hx := hlt' x h2.1
      have hy := hlt' y h3.1
      refine ⟨x, y, ?_, ?_, ?_, h4, ?_, ?_, ?_⟩
      · rw [hlt g hgN', h1]; exact mergedNode_congr hx.symm hy.symm
      · rw [liveWhen_congr hlt']; exact h2
      · rw [liveWhen_congr hlt']; exact h3
      · rw [hlt g hgN', hx, hy]; exact h5
      · intro h hl hne
        rw [liveWhen_congr hlt'] at hl
        rw [lighter_congr hx (hlt' h hl.1)]
        exact h6 h hl hne
      · intro h hl hne hne2
        rw [liveWhen_congr hlt'] at hl
        rw [lighter_congr hy (hlt' h hl.1)]
        exact h7 h hl hne hne2
  · intro h
    simp only [List.mem_append, mem2, List.mem_singleton, List.length_append, List.length_cons, List.length_nil]
    have hg : ∀ g < nodes.length, f.length ≤ g → ¬ hasChild (nodeOf nodes) g nodes.length := by
      intro g hg hn hc
      obtain ⟨x, y, h1, h2, h3, -⟩ := B.inner g hg hn
      unfold hasChild at hc
      rw [h1] at hc
      have hx := h2.1
      have hy := h3.1
      simp only [mergedNode, BitVec.toNat_ofNat] at hc
      rw [Nat.mod_eq_of_lt (by omega), Nat.mod_eq_of_lt (by omega)] at hc
      omega
    constructor
    · rintro (⟨h1, h2, h3⟩ | rfl)
      · have hl := (B.live_iff h).1 h3
        refine ⟨by have := hl.1; omega, ?_⟩
        intro k hk hn
        by_cases hkN : k = nodes.length
        · subst hkN; unfold hasChild; rw [heq, hleft, hright]; omega
        · unfold hasChild; rw [hlt k (by omega)]; exact hl.2 k (by omega) hn
      · refine ⟨by omega, ?_⟩
        intro k hk hn
        by_cases hkN : k = nodes.length
        · subst hkN; unfold hasChild; rw [heq, hleft, hright]; omega
        · unfold hasChild; rw [hlt k (by omega)]; exact hg k (by omega) hn
    · rintro ⟨h1, h2⟩
      by_cases hh : h = nodes.length
      · exact .inr hh
      · left
        have hN' : f.length ≤ nodes.length := by
          by_contra hc
          have h2 : (live.length ≤ nodes.length) := by
            have := List.Nodup.length_le_card (α := Fin nodes.length) (l := live.attach.map fun x => ⟨x.1, inb x.1 x.2⟩) 
              (by rw [List.nodup_map_iff_inj_on (List.nodup_attach.2 hnd)]; intro x _ y _ e; simpa [Subtype.ext_iff] using e)
            simpa using this
          omega
        have := h2 nodes.length (by omega) hN'
        unfold hasChild at this
        rw [heq, hleft, hright] at this
        refine ⟨by omega, by omega, (B.live_iff h).2 ⟨by omega, ?_⟩⟩
        intro k hk hn
        have := h2 k (by omega) hn
        unfold hasChild at this ⊢; rwa [hlt k hk] at this
  · rw [List.map_append, List.sum_append]
    simp only [List.map_cons, List.map_nil, List.sum_cons, List.sum_nil]
    rw [heq, hfreq]
    have : (((live.erase a).erase b).map fun h => (nodeOf (nodes ++ [mergedNode nodes a b]) h).freq.toNat) =
        (((live.erase a).erase b).map fun h => (nodeOf nodes h).freq.toNat) := by
      apply List.map_congr_left
      intro h hh
      rw [hlt h (inb h ((mem2 h).1 hh).2.2)]
    rw [this]; omega

theorem Built.loop {f : List FreqEntry} {nodes : List TreeNode} {live : List Nat} (m : Nat) (B : Built f nodes live)
    (hN : f.length ≤ 2 ^ 31) (hS : (f.map fun e => e.count.toNat).sum < 2 ^ 32) (hm : live.length ≤ m + 1) :
    Built f (mergeLoop m nodes live).1 (mergeLoop m nodes live).2 ∧ (mergeLoop m nodes live).2.length = 1 := by
  induction m generalizing nodes live with
  | zero =>
    refine ⟨B, ?_⟩
    have := List.length_pos_iff.2 B.some_live
    simp only [mergeLoop]; omega
  | succ m ih =>
    obtain ⟨a, e1, ha, hmin⟩ := popLeast_spec nodes live B.some_live
    simp only [mergeLoop, e1]
    by_cases h2 : live.erase a = []
    · rw [h2]
      simp only [popLeast]
      refine ⟨B, ?_⟩
      have := List.length_erase_of_mem ha
      rw [h2] at this; have := List.length_pos_of_mem ha; simp at *; omega
    · obtain ⟨b, e2, hb, hmin2⟩ := popLeast_spec nodes (live.erase a) h2
      simp only [e2]
      refine ih (B.step hN hS ha hmin hb hmin2) ?_
      have := List.length_erase_of_mem ha
      have := List.length_erase_of_mem hb
      have := List.length_pos_of_mem hb
      simp; omega

/-- What BUILD_TREE makes of a frequency list that is not empty. -/
theorem buildTree_spec (f : List FreqEntry) (hf : f ≠ []) (hN : f.length ≤ 2 ^ 31)
    (hS : (f.map fun e => e.count.toNat).sum < 2 ^ 32) :
    Built f (buildTree f).1 (buildTree f).2 ∧ (buildTree f).1.length = 2 * f.length - 1 ∧
      (buildTree f).2 = [2 * f.length - 2] := by
  obtain ⟨B, h1⟩ := (Built.start f hf).loop f.length hN hS (by simp)
  have hsz := B.size
  have hf' := List.length_pos_iff.2 hf
  rw [show mergeLoop f.length (f.map leafNode) (List.range f.length) = buildTree f from rfl] at *
  refine ⟨B, by omega, ?_⟩
  have hroot : 2 * f.length - 2 ∈ (buildTree f).2 := by
    rw [B.live_iff]
    refine ⟨by omega, ?_⟩
    intro k hk hn hc
    obtain ⟨x, y, h1, h2, h3, -⟩ := B.inner k hk hn
    unfold hasChild at hc
    rw [h1] at hc
    have hx := h2.1
    have hy := h3.1
    simp only [mergedNode, BitVec.toNat_ofNat] at hc
    rw [Nat.mod_eq_of_lt (by omega), Nat.mod_eq_of_lt (by omega)] at hc
    omega
  match hl : (buildTree f).2, h1 with
  | [x], _ => rw [hl] at hroot; simp at hroot; rw [hroot]

/-! ### GEN_CODES -/

/-- The leaves under handle `h` with their paths, left subtree first: the walk of GEN_CODES, with handles. -/
def pathsFrom (node : Nat → TreeNode) : Nat → Nat → Bitstring → List (Nat × Bitstring)
  | 0, _, _ => []
  | m + 1, h, p =>
    match (node h).kind with
    | .leaf => [(h, p)]
    | .internal =>
      pathsFrom node m (node h).left.toNat (p ++ [false]) ++ pathsFrom node m (node h).right.toNat (p ++ [true])

/-- Below handle `N` children are smaller than their parent. -/
abbrev descends (node : Nat → TreeNode) (N : Nat) : Prop :=
  ∀ h < N, (node h).kind = .internal → (node h).left.toNat < h ∧ (node h).right.toNat < h

theorem walk_eq {node : Nat → TreeNode} {N : Nat} (hd : descends node N) (m h : Nat) (p : Bitstring) (hN : h < N)
    (hm : h < m) : walk node m h p =
      some ((pathsFrom node m h p).map fun x => { sym := (node x.1).sym, code := x.2 }) := by
  induction m generalizing h p with
  | zero => omega
  | succ m ih =>
    simp only [walk, pathsFrom]
    cases hk : (node h).kind with
    | leaf => simp
    | internal =>
      obtain ⟨h1, h2⟩ := hd h hN hk
      simp only
      rw [ih _ _ (by omega) (by omega), ih _ _ (by omega) (by omega)]
      simp

/-- Which pairs the walk lists: every leaf that a path from `h` reaches, with that path. -/
theorem mem_pathsFrom {node : Nat → TreeNode} {N : Nat} (hd : descends node N) (m h : Nat) (p : Bitstring) (hN : h < N)
    (hm : h < m) (l : Nat) (c : Bitstring) : (l, c) ∈ pathsFrom node m h p ↔
      ∃ q, c = p ++ q ∧ follow node h q = some l ∧ (node l).kind = .leaf := by
  induction m generalizing h p with
  | zero => omega
  | succ m ih =>
    simp only [pathsFrom]
    cases hk : (node h).kind with
    | leaf =>
      simp only [List.mem_singleton, Prod.mk.injEq]
      constructor
      · rintro ⟨rfl, rfl⟩; exact ⟨[], by simp, rfl, hk⟩
      · rintro ⟨q, h1, h2, h3⟩
        cases q with
        | nil => simp only [follow, Option.some.injEq] at h2; exact ⟨h2.symm, by simpa using h1⟩
        | cons b q => simp [follow, hk] at h2
    | internal =>
      obtain ⟨h1, h2⟩ := hd h hN hk
      simp only [List.mem_append]
      rw [ih _ _ (by omega) (by omega), ih _ _ (by omega) (by omega)]
      constructor
      · rintro (⟨q, e1, e2, e3⟩ | ⟨q, e1, e2, e3⟩)
        · exact ⟨false :: q, by simp [e1], by simp [follow, hk, e2], e3⟩
        · exact ⟨true :: q, by simp [e1], by simp [follow, hk, e2], e3⟩
      · rintro ⟨q, e1, e2, e3⟩
        cases q with
        | nil => 
          simp only [follow, Option.some.injEq] at e2
          subst e2; rw [hk] at e3; cases e3
        | cons b q =>
          cases b
          · left; exact ⟨q, by simp [e1], by simpa [follow, hk] using e2, e3⟩
          · right; exact ⟨q, by simp [e1], by simpa [follow, hk] using e2, e3⟩

/-- The walk lists paths from left to right. -/
theorem pairwise_pathsFrom {node : Nat → TreeNode} {N : Nat} (hd : descends node N) (m h : Nat) (p : Bitstring)
    (hN : h < N) (hm : h < m) : (pathsFrom node m h p).Pairwise fun x y => leftOf x.2 y.2 := by
  induction m generalizing h p with
  | zero => omega
  | succ m ih =>
    simp only [pathsFrom]
    cases hk : (node h).kind with
    | leaf => simp
    | internal =>
      obtain ⟨h1, h2⟩ := hd h hN hk
      simp only
      refine List.pairwise_append.2 ⟨ih _ _ (by omega) (by omega), ih _ _ (by omega) (by omega), ?_⟩
      rintro ⟨x, c⟩ hx ⟨y, d⟩ hy
      obtain ⟨q, e, -⟩ := (mem_pathsFrom hd m _ _ (by omega) (by omega) x c).1 hx
      obtain ⟨r, e', -⟩ := (mem_pathsFrom hd m _ _ (by omega) (by omega) y d).1 hy
      exact ⟨p, q, r, by simp [e], by simp [e']⟩

theorem leftOf_not_prefix {c d : Bitstring} (h : leftOf c d) : ¬ c <+: d ∧ ¬ d <+: c := by
  obtain ⟨p, c', d', rfl, rfl⟩ := h
  simp [List.prefix_append_right_inj]

theorem follow_append (node : Nat → TreeNode) (h : Nat) (q r : Bitstring) :
    follow node h (q ++ r) = (follow node h q).bind fun g => follow node g r := by
  induction q generalizing h with
  | nil => simp [follow]
  | cons b q ih =>
    simp only [List.cons_append, follow]
    cases (node h).kind <;> simp [ih]

theorem follow_le {node : Nat → TreeNode} {N : Nat} (hd : descends node N) {h l : Nat} {q : Bitstring} (hN : h < N)
    (hf : follow node h q = some l) : l + q.length ≤ h := by
  induction q generalizing h with
  | nil => simp [follow] at hf; simp [hf]
  | cons b q ih =>
    cases hk : (node h).kind with
    | leaf => simp [follow, hk] at hf
    | internal =>
      obtain ⟨h1, h2⟩ := hd h hN hk
      simp only [follow, hk] at hf
      cases b
      · have := ih (by simpa using (by omega : (node h).left.toNat < N)) hf; simp at this ⊢; omega
      · have := ih (by simpa using (by omega : (node h).right.toNat < N)) hf; simp at this ⊢; omega

/-- One step along a path. -/
theorem follow_one {node : Nat → TreeNode} {g l : Nat} {b : Bool} (h : follow node g [b] = some l) :
    (node g).kind = .internal ∧ l = if b then (node g).right.toNat else (node g).left.toNat := by
  simp only [follow] at h
  cases hk : (node g).kind <;> simp [hk] at h
  exact ⟨rfl, h.symm⟩

section Tree
variable {node : Nat → TreeNode} {n : Nat} 
  (h1 : 1 ≤ n)
  (hleaf : ∀ h < n, (node h).kind = .leaf)
  (hint : ∀ h < 2 * n - 1, n ≤ h → (node h).kind = .internal ∧ 
    (node h).left.toNat < h ∧ (node h).right.toNat < h ∧ (node h).left ≠ (node h).right)
  (hpar : ∀ h < 2 * n - 2, ∃ g < 2 * n - 1, n ≤ g ∧ hasChild node g h ∧
    ∀ k < 2 * n - 1, n ≤ k → hasChild node k h → k = g)
include hleaf hint 

theorem tree_descends : descends node (2 * n - 1) := by
  intro h hN hk
  by_cases hn : n ≤ h
  · exact ⟨(hint h hN hn).2.1, (hint h hN hn).2.2.1⟩
  · rw [hleaf h (by omega)] at hk; cases hk

theorem tree_kind {h : Nat} (hN : h < 2 * n - 1) : (node h).kind = .leaf ↔ h < n := by
  constructor
  · intro hk
    by_contra hc
    rw [(hint h hN (by omega)).1] at hk; cases hk
  · exact hleaf h

theorem tree_depth {h l : Nat} {q : Bitstring} (hN : h < 2 * n - 1) (hf : follow node h q = some l) :
    q.length ≤ h + 1 - n := by
  induction q generalizing h with
  | nil => simp
  | cons b q ih =>
    have hd := tree_descends hleaf hint
    cases hk : (node h).kind with
    | leaf => simp [follow, hk] at hf
    | internal =>
      have hn : n ≤ h := by
        by_contra hc
        rw [hleaf h (by omega)] at hk; cases hk
      obtain ⟨h1, h2⟩ := hd h hN hk
      simp only [follow, hk] at hf
      have key : ∀ g, g < h → follow node g q = some l → (b :: q).length ≤ h + 1 - n := by
        intro g hg hf
        have := ih (by omega) hf
        simp; omega
      cases b
      · exact key _ h1 hf
      · exact key _ h2 hf

include hpar

include h1 in
theorem tree_path_unique {l : Nat} {q r : Bitstring} (hq : follow node (2 * n - 2) q = some l)
    (hr : follow node (2 * n - 2) r = some l) : q = r := by
  have hd := tree_descends hleaf hint
  have hroot : 2 * n - 2 < 2 * n - 1 := by omega
  induction q using List.reverseRecOn generalizing l r with
  | nil =>
    cases r using List.reverseRecOn with
    | nil => rfl
    | append_singleton r b =>
      simp only [follow, Option.some.injEq] at hq
      have := follow_le hd hroot hr
      simp at this; omega
  | append_singleton q b ih =>
    cases r using List.reverseRecOn with
    | nil =>
      simp only [follow, Option.some.injEq] at hr
      have := follow_le hd hroot hq
      simp at this; omega
    | append_singleton r c =>
      rw [follow_append] at hq hr
      obtain ⟨g, hg, hq⟩ := Option.bind_eq_some_iff.1 hq
      obtain ⟨k, hk, hr⟩ := Option.bind_eq_some_iff.1 hr
      obtain ⟨i1, e1⟩ := follow_one hq
      obtain ⟨i2, e2⟩ := follow_one hr
      have gle := follow_le hd hroot hg
      have kle := follow_le hd hroot hk
      have gn : n ≤ g := by by_contra hc; rw [hleaf g (by omega)] at i1; cases i1
      have kn : n ≤ k := by by_contra hc; rw [hleaf k (by omega)] at i2; cases i2
      have c1 : hasChild node g l := by rw [e1]; unfold hasChild; cases b <;> simp
      have c2 : hasChild node k l := by rw [e2]; unfold hasChild; cases c <;> simp
      have hl : l < 2 * n - 2 := by
        have := hint g (by omega) gn
        rcases c1 with c1 | c1 <;> omega
      obtain ⟨p, -, -, -, hu⟩ := hpar l hl
      have egk : g = k := (hu g (by omega) gn c1).trans (hu k (by omega) kn c2).symm
      subst egk
      have hqr : b = c := by
        have hne := (hint g (by omega) gn).2.2.2
        have hne' : (node g).left.toNat ≠ (node g).right.toNat := fun e => hne (BitVec.eq_of_toNat_eq e)
        rw [e1] at e2
        cases b <;> cases c
        · rfl
        · exact absurd e2 hne'
        · exact absurd e2.symm hne'
        · rfl
      rw [ih hg hk, hqr]

omit hleaf in
theorem tree_reachable (h : Nat) (hN : h < 2 * n - 1) : ∃ q, follow node (2 * n - 2) q = some h := by
  by_cases hr : h = 2 * n - 2
  · exact ⟨[], by simp [follow, hr]⟩
  · obtain ⟨g, hg, hn, hc, -⟩ := hpar h (by omega)
    have hi := hint g hg hn
    have hlt : h < g := by rcases hc with hc | hc <;> omega
    obtain ⟨q, hq⟩ := tree_reachable g hg
    rcases hc with hc | hc
    · exact ⟨q ++ [false], by rw [follow_append, hq]; simp [follow, hi.1, hc]⟩
    · exact ⟨q ++ [true], by rw [follow_append, hq]; simp [follow, hi.1, hc]⟩
termination_by 2 * n - 1 - h

include h1 in
/-- The handles the walk from the root lists are the `n` leaves, each once. -/
theorem tree_paths_perm : ((pathsFrom node (2 * n - 1) (2 * n - 2) []).map Prod.fst).Perm (List.range n) := by
  have hd := tree_descends hleaf hint
  have hm := fun l c => mem_pathsFrom hd (2 * n - 1) (2 * n - 2) [] (by omega) (by omega) l c
  rw [List.perm_ext_iff_of_nodup _ List.nodup_range]
  · intro l
    simp only [List.mem_map, List.mem_range, Prod.exists, exists_and_right, exists_eq_right, hm, List.nil_append]
    constructor
    · rintro ⟨c, q, -, hf, hk⟩
      have := follow_le hd (by omega) hf
      exact (tree_kind hleaf hint (by omega)).1 hk
    · intro hl
      obtain ⟨q, hq⟩ := tree_reachable hint hpar l (by omega)
      exact ⟨q, q, rfl, hq, hleaf l hl⟩
  · rw [List.Nodup, List.pairwise_map]
    refine (pairwise_pathsFrom hd (2 * n - 1) (2 * n - 2) [] (by omega) (by omega)).imp_of_mem ?_
    rintro ⟨x, c⟩ ⟨y, d⟩ hx hy hlo rfl
    obtain ⟨q, rfl, hq, -⟩ := (hm _ _).1 hx
    obtain ⟨r, rfl, hr, -⟩ := (hm _ _).1 hy
    have := tree_path_unique h1 hleaf hint hpar hq hr
    subst this
    exact (leftOf_not_prefix hlo).1 List.prefix_rfl

end Tree

end Sys2Proof.Machine
end

