-- ==== Sys2Proof/Laws/Grid.lean ====
section
/-! SUPPORT. The grid container: the base-255 digits, and the interleaving with its inverse, slot by slot. -/

namespace Sys2Proof.Machine

/-! ### base-255 -/
theorem undigits255_digits255 (n : Nat) (h : n < 4228250625) : undigits255 (digits255 n) = n := by
  simp only [undigits255, digits255, List.foldl_cons, List.foldl_nil, BitVec.toNat_ofNat]
  omega

/-! ### Interleaving -/
theorem interleaveFrom_length (n k : Nat) (top bot : List Byte) (h : top.length + bot.length ≤ n) :
    (interleaveFrom n k top bot).length = top.length + bot.length := by
  induction n generalizing k top bot with
  | zero =>
    have h1 : top = [] := List.length_eq_zero_iff.1 (by omega)
    have h2 : bot = [] := List.length_eq_zero_iff.1 (by omega)
    simp [interleaveFrom, h1, h2]
  | succ n ih =>
    cases top with
    | nil => cases bot with
      | nil => rfl
      | cons b bs =>
        simp only [List.length_cons, List.length_nil] at h
        simp only [interleaveFrom, List.length_cons, List.length_nil]
        rw [ih _ _ _ (by simp; omega)]; simp
    | cons t ts => cases bot with
      | nil =>
        simp only [List.length_cons, List.length_nil] at h
        simp only [interleaveFrom, List.length_cons, List.length_nil]
        rw [ih _ _ _ (by simp; omega)]; simp
      | cons b bs =>
        simp only [List.length_cons] at h
        simp only [interleaveFrom]
        split
        · simp only [List.length_cons]; rw [ih _ _ _ (by simp; omega)]; simp; omega
        · simp only [List.length_cons]; rw [ih _ _ _ (by simp; omega)]; simp; omega

theorem interleave_length (top bot : List Byte) : (interleave top bot).length = top.length + bot.length :=
  interleaveFrom_length _ _ _ _ (Nat.le_refl _)

/-- The walk recovers what the interleaving took (44_grid_container.md R186). -/
theorem deinterleaveFrom_interleaveFrom (n k : Nat) (top bot : List Byte) (h : top.length + bot.length ≤ n) :
    deinterleaveFrom k top.length bot.length (interleaveFrom n k top bot) = (top, bot) := by
  induction n generalizing k top bot with
  | zero =>
    have h1 : top = [] := List.length_eq_zero_iff.1 (by omega)
    have h2 : bot = [] := List.length_eq_zero_iff.1 (by omega)
    simp [interleaveFrom, deinterleaveFrom, h1, h2]
  | succ n ih =>
    cases top with
    | nil => cases bot with
      | nil => rfl
      | cons b bs =>
        have := ih (k + 1) [] bs (by simp at h ⊢; omega)
        simp only [List.length_nil] at this
        simp [interleaveFrom, deinterleaveFrom, this]
    | cons t ts => cases bot with
      | nil =>
        have := ih (k + 1) ts [] (by simp at h ⊢; omega)
        simp only [List.length_nil] at this
        simp [interleaveFrom, deinterleaveFrom, this]
      | cons b bs =>
        simp only [interleaveFrom]
        split
        · next hk =>
          have := ih (k + 1) (t :: ts) bs (by simp at h ⊢; omega)
          simp only [List.length_cons] at this
          simp [deinterleaveFrom, hk, this]
        · next hk =>
          have := ih (k + 1) ts (b :: bs) (by simp at h ⊢; omega)
          simp only [List.length_cons] at this
          simp [deinterleaveFrom, hk, this]

theorem deinterleave_interleave (top bot : List Byte) :
    deinterleave (interleave top bot) top.length bot.length = (top, bot) :=
  deinterleaveFrom_interleaveFrom _ _ _ _ (Nat.le_refl _)

theorem splitSlots_slotData (pay tab : List Byte) : splitSlots (slotData pay tab) pay.length tab.length = (pay, tab) := by
  unfold splitSlots slotData
  by_cases h : pay.length ≥ tab.length
  · have h1 : max pay.length tab.length = pay.length := by omega
    have h2 : min pay.length tab.length = tab.length := by omega
    simp only [h, if_true, h1, h2, deinterleave_interleave]
  · have h1 : max pay.length tab.length = tab.length := by omega
    have h2 : min pay.length tab.length = pay.length := by omega
    simp [h, h1, h2, deinterleave_interleave]

theorem slotData_length (pay tab : List Byte) : (slotData pay tab).length = pay.length + tab.length := by
  unfold slotData; split <;> rw [interleave_length]; omega

theorem packGrid_length (pay tab : List Byte) : (packGrid pay tab).length = 9 * rowsNeeded pay.length tab.length := by
  simp only [packGrid, headerRow, List.length_append, slotData_length, List.length_replicate, rowsNeeded, ceilDiv]
  simp only [digits255, List.length_cons, List.length_nil]
  omega

/-! botBefore -/
theorem botBefore_le (tl bl k : Nat) : botBefore tl bl k ≤ k ∧ k - botBefore tl bl k ≤ tl ∧
    (k ≤ tl + bl → botBefore tl bl k ≤ bl) := by
  induction k with
  | zero => simp [botBefore]
  | succ k ih =>
    obtain ⟨h1, h2, h3⟩ := ih
    simp only [botBefore]
    split
    · next h => refine ⟨by omega, by omega, fun h' => ?_⟩
                have := h3 (by omega)
                rcases h with h | h <;> omega
    · next h => 
      push Not at h
      refine ⟨by omega, by omega, fun h' => ?_⟩
      have := h3 (by omega); omega

theorem interleave_getElem_aux (top bot : List Byte) (m n k b : Nat) 
    (hn : (top.drop (k - b)).length + (bot.drop b).length ≤ n)
    (hb : b = botBefore top.length bot.length k) (hk : k + m < top.length + bot.length) (hbk : b ≤ k):
    (interleaveFrom n k (top.drop (k - b)) (bot.drop b))[m]? =
      let c := botBefore top.length bot.length (k + m)
      if ((k + m) % 3 = 2 ∧ c < bot.length) ∨ top.length ≤ k + m - c then bot[c]? else top[k + m - c]? := by
  induction m generalizing n k b with
  | zero =>
    cases n with
    | zero => simp at hn; omega
    | succ n =>
      have hle := botBefore_le top.length bot.length k
      rw [← hb] at hle
      simp only [Nat.add_zero, ← hb]
      rcases ht : top.drop (k - b) with _ | ⟨t, ts⟩
      · have h1 : top.length ≤ k - b := by simpa using ht
        rcases hbd : bot.drop b with _ | ⟨x, xs⟩
        · have : bot.length ≤ b := by simpa using hbd
          omega
        · have h2 : bot[b]? = some x := by
            have := congrArg (·[0]?) hbd; simpa using this
          simp [interleaveFrom, h1, h2]
      · have h1 : k - b < top.length := by
          have := congrArg List.length ht; simp at this; omega
        have h1' : top[k-b]? = some t := by
          have := congrArg (·[0]?) ht; simpa using this
        rcases hbd : bot.drop b with _ | ⟨x, xs⟩
        · have h2 : ¬ b < bot.length := by
            have : bot.length ≤ b := by simpa using hbd
            omega
          have h3 : ¬ top.length ≤ k - b := by omega
          simp only [interleaveFrom, h2, h3, and_false, or_self, if_false, h1']; rfl
        · have h2 : b < bot.length := by
            have := congrArg List.length hbd; simp at this; omega
          have h2' : bot[b]? = some x := by
            have := congrArg (·[0]?) hbd; simpa using this
          have h3 : ¬ top.length ≤ k - b := by omega
          simp only [interleaveFrom, h2, h3, and_true, or_false, h1', h2']
          split <;> simp
  | succ m ih =>
    cases n with
    | zero => simp at hn; omega
    | succ n =>
      have hle := botBefore_le top.length bot.length k
      rw [← hb] at hle
      have key : ∀ b', b' = botBefore top.length bot.length (k+1) → 
          (top.drop (k + 1 - b')).length + (bot.drop b').length ≤ n →
          (interleaveFrom n (k+1) (top.drop (k + 1 - b')) (bot.drop b'))[m]? =
      let c := botBefore top.length bot.length (k + (m+1))
      if ((k + (m+1)) % 3 = 2 ∧ c < bot.length) ∨ top.length ≤ k + (m+1) - c then bot[c]? else top[k + (m+1) - c]? := by
        intro b' hb' hn'
        have := ih n (k+1) b' hn' hb' (by omega) (by rw [hb']; exact (botBefore_le _ _ _).1)
        rw [this]
        have e : k + 1 + m = k + (m + 1) := by omega
        rw [e]
      have hstep : botBefore top.length bot.length (k+1) = if (k % 3 = 2 ∧ b < bot.length) ∨ top.length ≤ k - b then b + 1 else b := by
        simp only [botBefore, ← hb]
      rcases ht : top.drop (k - b) with _ | ⟨t, ts⟩
      · have h1 : top.length ≤ k - b := by simpa using ht
        rcases hbd : bot.drop b with _ | ⟨x, xs⟩
        · have : bot.length ≤ b := by simpa using hbd
          omega
        · have hx : bot.drop (b+1) = xs := by
            have := congrArg (List.drop 1) hbd; simpa [List.drop_drop, Nat.add_comm] using this
          have := key (b+1) (by rw [hstep]; simp [h1]) (by
            rw [ht, hbd] at hn; rw [hx]; simp at hn ⊢; omega)
          rw [show k + 1 - (b+1) = k - b by omega, ht, hx] at this
          simpa [interleaveFrom] using this
      · have h1 : k - b < top.length := by
          have := congrArg List.length ht; simp at this; omega
        have hts : top.drop (k + 1 - b) = ts := by
          have := congrArg (List.drop 1) ht
          rw [List.drop_drop] at this
          rw [show k + 1 - b = k - b + 1 by omega]; simpa using this
        rcases hbd : bot.drop b with _ | ⟨x, xs⟩
        · have h2 : ¬ b < bot.length := by
            have : bot.length ≤ b := by simpa using hbd
            omega
          have h3 : ¬ top.length ≤ k - b := by omega
          have := key b (by rw [hstep]; simp [h2, h3]) (by
            rw [ht, hbd] at hn; rw [hts, hbd]; simp at hn ⊢; omega)
          rw [hts, hbd] at this
          simpa [interleaveFrom] using this
        · have h2 : b < bot.length := by
            have := congrArg List.length hbd; simp at this; omega
          have hx : bot.drop (b+1) = xs := by
            have := congrArg (List.drop 1) hbd; simpa [List.drop_drop, Nat.add_comm] using this
          have h3 : ¬ top.length ≤ k - b := by omega
          by_cases h4 : k % 3 = 2
          · have := key (b+1) (by rw [hstep]; simp [h2, h4]) (by
              rw [ht, hbd] at hn; rw [hx, show k + 1 - (b+1) = k - b by omega, ht]; simp at hn ⊢; omega)
            rw [show k + 1 - (b+1) = k - b by omega, ht, hx] at this
            simpa [interleaveFrom, h4] using this
          · have := key b (by rw [hstep]; simp [h3, h4]) (by
              rw [ht, hbd] at hn; rw [hts, hbd]; simp at hn ⊢; omega)
            rw [hts, hbd] at this
            simpa [interleaveFrom, h4] using this

theorem interleave_getElem? (top bot : List Byte) (k : Nat) (hk : k < top.length + bot.length) :
    (interleave top bot)[k]? =
      let c := botBefore top.length bot.length k
      if (k % 3 = 2 ∧ c < bot.length) ∨ top.length ≤ k - c then bot[c]? else top[k - c]? := by
  have := interleave_getElem_aux top bot k (top.length + bot.length) 0 0 (by simp) rfl (by omega) (by omega)
  simpa [interleave] using this

theorem interleaveFrom_deinterleaveFrom (n k tl bl : Nat) (data : List Byte) (h : data.length = tl + bl) (hn : tl + bl ≤ n) :
    let r := deinterleaveFrom k tl bl data
    r.1.length = tl ∧ r.2.length = bl ∧ interleaveFrom n k r.1 r.2 = data := by
  induction data generalizing n k tl bl with
  | nil => 
    have h1 : tl = 0 := by simp at h; omega
    have h2 : bl = 0 := by simp at h; omega
    subst h1 h2
    cases n <;> simp [deinterleaveFrom, interleaveFrom]
  | cons v vs ih =>
    simp only [List.length_cons] at h
    cases n with
    | zero => omega
    | succ n =>
    simp only [deinterleaveFrom]
    split
    · next hc =>
      obtain ⟨i1, i2, i3⟩ := ih n (k+1) tl (bl-1) (by omega) (by omega)
      generalize deinterleaveFrom (k+1) tl (bl-1) vs = r at i1 i2 i3
      obtain ⟨a, b⟩ := r
      simp only at i1 i2 i3 ⊢
      refine ⟨i1, by simp; omega, ?_⟩
      cases a <;> simp [interleaveFrom, hc.1, i3]
    · next hc =>
      split
      · next ht =>
        obtain ⟨i1, i2, i3⟩ := ih n (k+1) (tl-1) bl (by omega) (by omega)
        generalize deinterleaveFrom (k+1) (tl-1) bl vs = r at i1 i2 i3
        obtain ⟨a, b⟩ := r
        simp only at i1 i2 i3 ⊢
        refine ⟨by simp; omega, i2, ?_⟩
        cases b with
        | nil => simp [interleaveFrom, i3]
        | cons x xs => 
          have : ¬ k % 3 = 2 := by intro h3; exact hc ⟨h3, by rw [← i2]; simp⟩
          simp [interleaveFrom, this, i3]
      · next ht =>
        obtain ⟨i1, i2, i3⟩ := ih n (k+1) tl (bl-1) (by omega) (by omega)
        generalize deinterleaveFrom (k+1) tl (bl-1) vs = r at i1 i2 i3
        obtain ⟨a, b⟩ := r
        simp only at i1 i2 i3 ⊢
        refine ⟨i1, by simp; omega, ?_⟩
        have : a = [] := List.length_eq_zero_iff.1 (by omega)
        subst this
        simp [interleaveFrom, i3]

end Sys2Proof.Machine
end

