-- ==== Sys2Proof/Laws/PerInstr.lean ====
section
/-! SUPPORT. Per instruction: the word of a command is legal and decodes to it. -/

namespace Sys2Proof.Laws.Encoding

/-- The command word of `i` is one the spec leaves legal, decodes to `i`, and holds the opcode in its low byte
(30_encoding.md R90, R91). -/
def Statement (i : Sys2Proof.Instr) : Prop :=
  Sys2Proof.Instr.wf i ∧ Sys2Proof.commandWordWf (Sys2Proof.encode i) ∧
    Sys2Proof.decode (Sys2Proof.encode i) = .ok i ∧
    Sys2Proof.opcodeField (Sys2Proof.encode i) = i.opcode

theorem nop : Statement .nop := ⟨by decide, by decide, rfl, rfl⟩
theorem analyze : Statement .analyze := ⟨by decide, by decide, rfl, rfl⟩
theorem buildTree : Statement .buildTree := ⟨by decide, by decide, rfl, rfl⟩
theorem genCodes : Statement .genCodes := ⟨by decide, by decide, rfl, rfl⟩
theorem encBits : Statement .encBits := ⟨by decide, by decide, rfl, rfl⟩
theorem pad : Statement .pad := ⟨by decide, by decide, rfl, rfl⟩
theorem toBytes : Statement .toBytes := ⟨by decide, by decide, rfl, rfl⟩
theorem serTable : Statement .serTable := ⟨by decide, by decide, rfl, rfl⟩
theorem gridPack : Statement .gridPack := ⟨by decide, by decide, rfl, rfl⟩
theorem gridUnpack : Statement .gridUnpack := ⟨by decide, by decide, rfl, rfl⟩
theorem deserTable : Statement .deserTable := ⟨by decide, by decide, rfl, rfl⟩
theorem toBits : Statement .toBits := ⟨by decide, by decide, rfl, rfl⟩
theorem unpad : Statement .unpad := ⟨by decide, by decide, rfl, rfl⟩
theorem decBits : Statement .decBits := ⟨by decide, by decide, rfl, rfl⟩
theorem compress : Statement .compress := ⟨by decide, by decide, rfl, rfl⟩
theorem decompress : Statement .decompress := ⟨by decide, by decide, rfl, rfl⟩
theorem clrStatus : Statement .clrStatus := ⟨by decide, by decide, rfl, rfl⟩
theorem softReset : Statement .softReset := ⟨by decide, by decide, rfl, rfl⟩

end Sys2Proof.Laws.Encoding
end

