-- ==== Sys2Proof/Laws/State.lean ====
section
/-! SUPPORT. One lemma per field per named update of the state, true by rfl, so that no later proof unfolds a
record update; and the same for the elements of the buffers. -/

namespace Sys2Proof.Machine

/-! ### Flags -/

@[simp] theorem Status.accepted_busy (f : Status) : f.accepted.busy = true := rfl
@[simp] theorem Status.accepted_done (f : Status) : f.accepted.done = false := rfl
@[simp] theorem Status.accepted_err (f : Status) : f.accepted.err = f.err := rfl
@[simp] theorem Status.accepted_residue (f : Status) : f.accepted.residue = f.residue := rfl
@[simp] theorem Status.completed_busy (f : Status) : f.completed.busy = false := rfl
@[simp] theorem Status.completed_done (f : Status) : f.completed.done = true := rfl
@[simp] theorem Status.completed_err (f : Status) : f.completed.err = f.err := rfl
@[simp] theorem Status.completed_residue (f : Status) : f.completed.residue = f.residue := rfl
@[simp] theorem Status.faulted_busy (f : Status) : f.faulted.busy = false := rfl
@[simp] theorem Status.faulted_done (f : Status) : f.faulted.done = f.done := rfl
@[simp] theorem Status.faulted_err (f : Status) : f.faulted.err = true := rfl
@[simp] theorem Status.faulted_residue (f : Status) : f.faulted.residue = f.residue := rfl
@[simp] theorem Status.errCleared_busy (f : Status) : f.errCleared.busy = f.busy := rfl
@[simp] theorem Status.errCleared_done (f : Status) : f.errCleared.done = f.done := rfl
@[simp] theorem Status.errCleared_err (f : Status) : f.errCleared.err = false := rfl
@[simp] theorem Status.errCleared_residue (f : Status) : f.errCleared.residue = f.residue := rfl
@[simp] theorem Status.cleared_busy (f : Status) : f.cleared.busy = f.busy := rfl
@[simp] theorem Status.cleared_done (f : Status) : f.cleared.done = false := rfl
@[simp] theorem Status.cleared_err (f : Status) : f.cleared.err = false := rfl
@[simp] theorem Status.cleared_residue (f : Status) : f.cleared.residue = false := rfl

/-! ### startStage -/

@[simp] theorem startStage_params (op : Byte) (s : State) : (startStage op s).params = s.params := rfl
@[simp] theorem startStage_status (op : Byte) (s : State) : (startStage op s).status = s.status := rfl
@[simp] theorem startStage_errcode (op : Byte) (s : State) : (startStage op s).errcode = s.errcode := rfl
@[simp] theorem startStage_errinfo (op : Byte) (s : State) : (startStage op s).errinfo = s.errinfo := rfl
@[simp] theorem startStage_stage (op : Byte) (s : State) : (startStage op s).stage = op := rfl
@[simp] theorem startStage_textLen (op : Byte) (s : State) : (startStage op s).textLen = s.textLen := rfl
@[simp] theorem startStage_freqN (op : Byte) (s : State) : (startStage op s).freqN = s.freqN := rfl
@[simp] theorem startStage_nodeN (op : Byte) (s : State) : (startStage op s).nodeN = s.nodeN := rfl
@[simp] theorem startStage_root (op : Byte) (s : State) : (startStage op s).root = s.root := rfl
@[simp] theorem startStage_codeN (op : Byte) (s : State) : (startStage op s).codeN = s.codeN := rfl
@[simp] theorem startStage_bitsLen (op : Byte) (s : State) : (startStage op s).bitsLen = s.bitsLen := rfl
@[simp] theorem startStage_payLen (op : Byte) (s : State) : (startStage op s).payLen = s.payLen := rfl
@[simp] theorem startStage_tabLen (op : Byte) (s : State) : (startStage op s).tabLen = s.tabLen := rfl
@[simp] theorem startStage_gridRows (op : Byte) (s : State) : (startStage op s).gridRows = s.gridRows := rfl
@[simp] theorem startStage_padcnt (op : Byte) (s : State) : (startStage op s).padcnt = s.padcnt := rfl
@[simp] theorem startStage_bufSel (op : Byte) (s : State) : (startStage op s).bufSel = s.bufSel := rfl
@[simp] theorem startStage_bufIdx (op : Byte) (s : State) : (startStage op s).bufIdx = s.bufIdx := rfl
@[simp] theorem startStage_cmdLatch (op : Byte) (s : State) : (startStage op s).cmdLatch = s.cmdLatch := rfl
@[simp] theorem startStage_text (op : Byte) (s : State) : (startStage op s).text = s.text := rfl
@[simp] theorem startStage_freq (op : Byte) (s : State) : (startStage op s).freq = s.freq := rfl
@[simp] theorem startStage_tree (op : Byte) (s : State) : (startStage op s).tree = s.tree := rfl
@[simp] theorem startStage_codetab (op : Byte) (s : State) : (startStage op s).codetab = s.codetab := rfl
@[simp] theorem startStage_bits (op : Byte) (s : State) : (startStage op s).bits = s.bits := rfl
@[simp] theorem startStage_payload (op : Byte) (s : State) : (startStage op s).payload = s.payload := rfl
@[simp] theorem startStage_table (op : Byte) (s : State) : (startStage op s).table = s.table := rfl
@[simp] theorem startStage_grid (op : Byte) (s : State) : (startStage op s).grid = s.grid := rfl
@[simp] theorem startStage_inbox (op : Byte) (s : State) : (startStage op s).inbox = s.inbox := rfl
@[simp] theorem startStage_replies (op : Byte) (s : State) : (startStage op s).replies = s.replies := rfl
@[simp] theorem startStage_epoch (op : Byte) (s : State) : (startStage op s).epoch = s.epoch := rfl
@[simp] theorem startStage_turn (op : Byte) (s : State) : (startStage op s).turn = s.turn := rfl

/-! ### raiseFault -/

@[simp] theorem raiseFault_params (c : Cause) (n : Nat) (s : State) : (raiseFault c n s).params = s.params := rfl
@[simp] theorem raiseFault_status (c : Cause) (n : Nat) (s : State) : (raiseFault c n s).status = s.status.faulted := rfl
@[simp] theorem raiseFault_errcode (c : Cause) (n : Nat) (s : State) : (raiseFault c n s).errcode = c.code := rfl
@[simp] theorem raiseFault_errinfo (c : Cause) (n : Nat) (s : State) : (raiseFault c n s).errinfo = saturate n := rfl
@[simp] theorem raiseFault_stage (c : Cause) (n : Nat) (s : State) : (raiseFault c n s).stage = s.stage := rfl
@[simp] theorem raiseFault_textLen (c : Cause) (n : Nat) (s : State) : (raiseFault c n s).textLen = s.textLen := rfl
@[simp] theorem raiseFault_freqN (c : Cause) (n : Nat) (s : State) : (raiseFault c n s).freqN = s.freqN := rfl
@[simp] theorem raiseFault_nodeN (c : Cause) (n : Nat) (s : State) : (raiseFault c n s).nodeN = s.nodeN := rfl
@[simp] theorem raiseFault_root (c : Cause) (n : Nat) (s : State) : (raiseFault c n s).root = s.root := rfl
@[simp] theorem raiseFault_codeN (c : Cause) (n : Nat) (s : State) : (raiseFault c n s).codeN = s.codeN := rfl
@[simp] theorem raiseFault_bitsLen (c : Cause) (n : Nat) (s : State) : (raiseFault c n s).bitsLen = s.bitsLen := rfl
@[simp] theorem raiseFault_payLen (c : Cause) (n : Nat) (s : State) : (raiseFault c n s).payLen = s.payLen := rfl
@[simp] theorem raiseFault_tabLen (c : Cause) (n : Nat) (s : State) : (raiseFault c n s).tabLen = s.tabLen := rfl
@[simp] theorem raiseFault_gridRows (c : Cause) (n : Nat) (s : State) : (raiseFault c n s).gridRows = s.gridRows := rfl
@[simp] theorem raiseFault_padcnt (c : Cause) (n : Nat) (s : State) : (raiseFault c n s).padcnt = s.padcnt := rfl
@[simp] theorem raiseFault_bufSel (c : Cause) (n : Nat) (s : State) : (raiseFault c n s).bufSel = s.bufSel := rfl
@[simp] theorem raiseFault_bufIdx (c : Cause) (n : Nat) (s : State) : (raiseFault c n s).bufIdx = s.bufIdx := rfl
@[simp] theorem raiseFault_cmdLatch (c : Cause) (n : Nat) (s : State) : (raiseFault c n s).cmdLatch = s.cmdLatch := rfl
@[simp] theorem raiseFault_text (c : Cause) (n : Nat) (s : State) : (raiseFault c n s).text = s.text := rfl
@[simp] theorem raiseFault_freq (c : Cause) (n : Nat) (s : State) : (raiseFault c n s).freq = s.freq := rfl
@[simp] theorem raiseFault_tree (c : Cause) (n : Nat) (s : State) : (raiseFault c n s).tree = s.tree := rfl
@[simp] theorem raiseFault_codetab (c : Cause) (n : Nat) (s : State) : (raiseFault c n s).codetab = s.codetab := rfl
@[simp] theorem raiseFault_bits (c : Cause) (n : Nat) (s : State) : (raiseFault c n s).bits = s.bits := rfl
@[simp] theorem raiseFault_payload (c : Cause) (n : Nat) (s : State) : (raiseFault c n s).payload = s.payload := rfl
@[simp] theorem raiseFault_table (c : Cause) (n : Nat) (s : State) : (raiseFault c n s).table = s.table := rfl
@[simp] theorem raiseFault_grid (c : Cause) (n : Nat) (s : State) : (raiseFault c n s).grid = s.grid := rfl
@[simp] theorem raiseFault_inbox (c : Cause) (n : Nat) (s : State) : (raiseFault c n s).inbox = s.inbox := rfl
@[simp] theorem raiseFault_replies (c : Cause) (n : Nat) (s : State) : (raiseFault c n s).replies = s.replies := rfl
@[simp] theorem raiseFault_epoch (c : Cause) (n : Nat) (s : State) : (raiseFault c n s).epoch = s.epoch := rfl
@[simp] theorem raiseFault_turn (c : Cause) (n : Nat) (s : State) : (raiseFault c n s).turn = s.turn := rfl

/-! ### clearFault -/

@[simp] theorem clearFault_params (s : State) : (clearFault s).params = s.params := rfl
@[simp] theorem clearFault_status (s : State) : (clearFault s).status = s.status.errCleared := rfl
@[simp] theorem clearFault_errcode (s : State) : (clearFault s).errcode = 0#8 := rfl
@[simp] theorem clearFault_errinfo (s : State) : (clearFault s).errinfo = 0#32 := rfl
@[simp] theorem clearFault_stage (s : State) : (clearFault s).stage = s.stage := rfl
@[simp] theorem clearFault_textLen (s : State) : (clearFault s).textLen = s.textLen := rfl
@[simp] theorem clearFault_freqN (s : State) : (clearFault s).freqN = s.freqN := rfl
@[simp] theorem clearFault_nodeN (s : State) : (clearFault s).nodeN = s.nodeN := rfl
@[simp] theorem clearFault_root (s : State) : (clearFault s).root = s.root := rfl
@[simp] theorem clearFault_codeN (s : State) : (clearFault s).codeN = s.codeN := rfl
@[simp] theorem clearFault_bitsLen (s : State) : (clearFault s).bitsLen = s.bitsLen := rfl
@[simp] theorem clearFault_payLen (s : State) : (clearFault s).payLen = s.payLen := rfl
@[simp] theorem clearFault_tabLen (s : State) : (clearFault s).tabLen = s.tabLen := rfl
@[simp] theorem clearFault_gridRows (s : State) : (clearFault s).gridRows = s.gridRows := rfl
@[simp] theorem clearFault_padcnt (s : State) : (clearFault s).padcnt = s.padcnt := rfl
@[simp] theorem clearFault_bufSel (s : State) : (clearFault s).bufSel = s.bufSel := rfl
@[simp] theorem clearFault_bufIdx (s : State) : (clearFault s).bufIdx = s.bufIdx := rfl
@[simp] theorem clearFault_cmdLatch (s : State) : (clearFault s).cmdLatch = s.cmdLatch := rfl
@[simp] theorem clearFault_text (s : State) : (clearFault s).text = s.text := rfl
@[simp] theorem clearFault_freq (s : State) : (clearFault s).freq = s.freq := rfl
@[simp] theorem clearFault_tree (s : State) : (clearFault s).tree = s.tree := rfl
@[simp] theorem clearFault_codetab (s : State) : (clearFault s).codetab = s.codetab := rfl
@[simp] theorem clearFault_bits (s : State) : (clearFault s).bits = s.bits := rfl
@[simp] theorem clearFault_payload (s : State) : (clearFault s).payload = s.payload := rfl
@[simp] theorem clearFault_table (s : State) : (clearFault s).table = s.table := rfl
@[simp] theorem clearFault_grid (s : State) : (clearFault s).grid = s.grid := rfl
@[simp] theorem clearFault_inbox (s : State) : (clearFault s).inbox = s.inbox := rfl
@[simp] theorem clearFault_replies (s : State) : (clearFault s).replies = s.replies := rfl
@[simp] theorem clearFault_epoch (s : State) : (clearFault s).epoch = s.epoch := rfl
@[simp] theorem clearFault_turn (s : State) : (clearFault s).turn = s.turn := rfl

/-! ### complete -/

@[simp] theorem complete_params (s : State) : (complete s).params = s.params := rfl
@[simp] theorem complete_status (s : State) : (complete s).status = s.status.completed := rfl
@[simp] theorem complete_errcode (s : State) : (complete s).errcode = s.errcode := rfl
@[simp] theorem complete_errinfo (s : State) : (complete s).errinfo = s.errinfo := rfl
@[simp] theorem complete_stage (s : State) : (complete s).stage = s.stage := rfl
@[simp] theorem complete_textLen (s : State) : (complete s).textLen = s.textLen := rfl
@[simp] theorem complete_freqN (s : State) : (complete s).freqN = s.freqN := rfl
@[simp] theorem complete_nodeN (s : State) : (complete s).nodeN = s.nodeN := rfl
@[simp] theorem complete_root (s : State) : (complete s).root = s.root := rfl
@[simp] theorem complete_codeN (s : State) : (complete s).codeN = s.codeN := rfl
@[simp] theorem complete_bitsLen (s : State) : (complete s).bitsLen = s.bitsLen := rfl
@[simp] theorem complete_payLen (s : State) : (complete s).payLen = s.payLen := rfl
@[simp] theorem complete_tabLen (s : State) : (complete s).tabLen = s.tabLen := rfl
@[simp] theorem complete_gridRows (s : State) : (complete s).gridRows = s.gridRows := rfl
@[simp] theorem complete_padcnt (s : State) : (complete s).padcnt = s.padcnt := rfl
@[simp] theorem complete_bufSel (s : State) : (complete s).bufSel = s.bufSel := rfl
@[simp] theorem complete_bufIdx (s : State) : (complete s).bufIdx = s.bufIdx := rfl
@[simp] theorem complete_cmdLatch (s : State) : (complete s).cmdLatch = s.cmdLatch := rfl
@[simp] theorem complete_text (s : State) : (complete s).text = s.text := rfl
@[simp] theorem complete_freq (s : State) : (complete s).freq = s.freq := rfl
@[simp] theorem complete_tree (s : State) : (complete s).tree = s.tree := rfl
@[simp] theorem complete_codetab (s : State) : (complete s).codetab = s.codetab := rfl
@[simp] theorem complete_bits (s : State) : (complete s).bits = s.bits := rfl
@[simp] theorem complete_payload (s : State) : (complete s).payload = s.payload := rfl
@[simp] theorem complete_table (s : State) : (complete s).table = s.table := rfl
@[simp] theorem complete_grid (s : State) : (complete s).grid = s.grid := rfl
@[simp] theorem complete_inbox (s : State) : (complete s).inbox = s.inbox := rfl
@[simp] theorem complete_replies (s : State) : (complete s).replies = s.replies := rfl
@[simp] theorem complete_epoch (s : State) : (complete s).epoch = s.epoch := rfl
@[simp] theorem complete_turn (s : State) : (complete s).turn = s.turn := rfl

/-! ### bumpIdx -/

@[simp] theorem bumpIdx_params (s : State) : (bumpIdx s).params = s.params := rfl
@[simp] theorem bumpIdx_status (s : State) : (bumpIdx s).status = s.status := rfl
@[simp] theorem bumpIdx_errcode (s : State) : (bumpIdx s).errcode = s.errcode := rfl
@[simp] theorem bumpIdx_errinfo (s : State) : (bumpIdx s).errinfo = s.errinfo := rfl
@[simp] theorem bumpIdx_stage (s : State) : (bumpIdx s).stage = s.stage := rfl
@[simp] theorem bumpIdx_textLen (s : State) : (bumpIdx s).textLen = s.textLen := rfl
@[simp] theorem bumpIdx_freqN (s : State) : (bumpIdx s).freqN = s.freqN := rfl
@[simp] theorem bumpIdx_nodeN (s : State) : (bumpIdx s).nodeN = s.nodeN := rfl
@[simp] theorem bumpIdx_root (s : State) : (bumpIdx s).root = s.root := rfl
@[simp] theorem bumpIdx_codeN (s : State) : (bumpIdx s).codeN = s.codeN := rfl
@[simp] theorem bumpIdx_bitsLen (s : State) : (bumpIdx s).bitsLen = s.bitsLen := rfl
@[simp] theorem bumpIdx_payLen (s : State) : (bumpIdx s).payLen = s.payLen := rfl
@[simp] theorem bumpIdx_tabLen (s : State) : (bumpIdx s).tabLen = s.tabLen := rfl
@[simp] theorem bumpIdx_gridRows (s : State) : (bumpIdx s).gridRows = s.gridRows := rfl
@[simp] theorem bumpIdx_padcnt (s : State) : (bumpIdx s).padcnt = s.padcnt := rfl
@[simp] theorem bumpIdx_bufSel (s : State) : (bumpIdx s).bufSel = s.bufSel := rfl
@[simp] theorem bumpIdx_bufIdx (s : State) : (bumpIdx s).bufIdx = s.bufIdx + 1#32 := rfl
@[simp] theorem bumpIdx_cmdLatch (s : State) : (bumpIdx s).cmdLatch = s.cmdLatch := rfl
@[simp] theorem bumpIdx_text (s : State) : (bumpIdx s).text = s.text := rfl
@[simp] theorem bumpIdx_freq (s : State) : (bumpIdx s).freq = s.freq := rfl
@[simp] theorem bumpIdx_tree (s : State) : (bumpIdx s).tree = s.tree := rfl
@[simp] theorem bumpIdx_codetab (s : State) : (bumpIdx s).codetab = s.codetab := rfl
@[simp] theorem bumpIdx_bits (s : State) : (bumpIdx s).bits = s.bits := rfl
@[simp] theorem bumpIdx_payload (s : State) : (bumpIdx s).payload = s.payload := rfl
@[simp] theorem bumpIdx_table (s : State) : (bumpIdx s).table = s.table := rfl
@[simp] theorem bumpIdx_grid (s : State) : (bumpIdx s).grid = s.grid := rfl
@[simp] theorem bumpIdx_inbox (s : State) : (bumpIdx s).inbox = s.inbox := rfl
@[simp] theorem bumpIdx_replies (s : State) : (bumpIdx s).replies = s.replies := rfl
@[simp] theorem bumpIdx_epoch (s : State) : (bumpIdx s).epoch = s.epoch := rfl
@[simp] theorem bumpIdx_turn (s : State) : (bumpIdx s).turn = s.turn := rfl

/-! ### resetRegisters -/

@[simp] theorem resetRegisters_params (s : State) : (resetRegisters s).params = s.params := rfl
@[simp] theorem resetRegisters_status (s : State) : (resetRegisters s).status = s.status.cleared := rfl
@[simp] theorem resetRegisters_errcode (s : State) : (resetRegisters s).errcode = 0#8 := rfl
@[simp] theorem resetRegisters_errinfo (s : State) : (resetRegisters s).errinfo = 0#32 := rfl
@[simp] theorem resetRegisters_stage (s : State) : (resetRegisters s).stage = 0#8 := rfl
@[simp] theorem resetRegisters_textLen (s : State) : (resetRegisters s).textLen = 0#32 := rfl
@[simp] theorem resetRegisters_freqN (s : State) : (resetRegisters s).freqN = 0#32 := rfl
@[simp] theorem resetRegisters_nodeN (s : State) : (resetRegisters s).nodeN = 0#32 := rfl
@[simp] theorem resetRegisters_root (s : State) : (resetRegisters s).root = noHandle := rfl
@[simp] theorem resetRegisters_codeN (s : State) : (resetRegisters s).codeN = 0#32 := rfl
@[simp] theorem resetRegisters_bitsLen (s : State) : (resetRegisters s).bitsLen = 0#32 := rfl
@[simp] theorem resetRegisters_payLen (s : State) : (resetRegisters s).payLen = 0#32 := rfl
@[simp] theorem resetRegisters_tabLen (s : State) : (resetRegisters s).tabLen = 0#32 := rfl
@[simp] theorem resetRegisters_gridRows (s : State) : (resetRegisters s).gridRows = 0#32 := rfl
@[simp] theorem resetRegisters_padcnt (s : State) : (resetRegisters s).padcnt = 0#8 := rfl
@[simp] theorem resetRegisters_bufSel (s : State) : (resetRegisters s).bufSel = 0#3 := rfl
@[simp] theorem resetRegisters_bufIdx (s : State) : (resetRegisters s).bufIdx = 0#32 := rfl
@[simp] theorem resetRegisters_cmdLatch (s : State) : (resetRegisters s).cmdLatch = s.cmdLatch := rfl
@[simp] theorem resetRegisters_text (s : State) : (resetRegisters s).text = s.text := rfl
@[simp] theorem resetRegisters_freq (s : State) : (resetRegisters s).freq = s.freq := rfl
@[simp] theorem resetRegisters_tree (s : State) : (resetRegisters s).tree = s.tree := rfl
@[simp] theorem resetRegisters_codetab (s : State) : (resetRegisters s).codetab = s.codetab := rfl
@[simp] theorem resetRegisters_bits (s : State) : (resetRegisters s).bits = s.bits := rfl
@[simp] theorem resetRegisters_payload (s : State) : (resetRegisters s).payload = s.payload := rfl
@[simp] theorem resetRegisters_table (s : State) : (resetRegisters s).table = s.table := rfl
@[simp] theorem resetRegisters_grid (s : State) : (resetRegisters s).grid = s.grid := rfl
@[simp] theorem resetRegisters_inbox (s : State) : (resetRegisters s).inbox = s.inbox := rfl
@[simp] theorem resetRegisters_replies (s : State) : (resetRegisters s).replies = s.replies := rfl
@[simp] theorem resetRegisters_epoch (s : State) : (resetRegisters s).epoch = s.epoch := rfl
@[simp] theorem resetRegisters_turn (s : State) : (resetRegisters s).turn = s.turn := rfl

/-! ### hardwareReset -/

@[simp] theorem hardwareReset_params (s : State) : (hardwareReset s).params = s.params := rfl
@[simp] theorem hardwareReset_status (s : State) : (hardwareReset s).status = State.reset.status := rfl
@[simp] theorem hardwareReset_errcode (s : State) : (hardwareReset s).errcode = State.reset.errcode := rfl
@[simp] theorem hardwareReset_errinfo (s : State) : (hardwareReset s).errinfo = State.reset.errinfo := rfl
@[simp] theorem hardwareReset_stage (s : State) : (hardwareReset s).stage = State.reset.stage := rfl
@[simp] theorem hardwareReset_textLen (s : State) : (hardwareReset s).textLen = State.reset.textLen := rfl
@[simp] theorem hardwareReset_freqN (s : State) : (hardwareReset s).freqN = State.reset.freqN := rfl
@[simp] theorem hardwareReset_nodeN (s : State) : (hardwareReset s).nodeN = State.reset.nodeN := rfl
@[simp] theorem hardwareReset_root (s : State) : (hardwareReset s).root = State.reset.root := rfl
@[simp] theorem hardwareReset_codeN (s : State) : (hardwareReset s).codeN = State.reset.codeN := rfl
@[simp] theorem hardwareReset_bitsLen (s : State) : (hardwareReset s).bitsLen = State.reset.bitsLen := rfl
@[simp] theorem hardwareReset_payLen (s : State) : (hardwareReset s).payLen = State.reset.payLen := rfl
@[simp] theorem hardwareReset_tabLen (s : State) : (hardwareReset s).tabLen = State.reset.tabLen := rfl
@[simp] theorem hardwareReset_gridRows (s : State) : (hardwareReset s).gridRows = State.reset.gridRows := rfl
@[simp] theorem hardwareReset_padcnt (s : State) : (hardwareReset s).padcnt = State.reset.padcnt := rfl
@[simp] theorem hardwareReset_bufSel (s : State) : (hardwareReset s).bufSel = State.reset.bufSel := rfl
@[simp] theorem hardwareReset_bufIdx (s : State) : (hardwareReset s).bufIdx = State.reset.bufIdx := rfl
@[simp] theorem hardwareReset_cmdLatch (s : State) : (hardwareReset s).cmdLatch = State.reset.cmdLatch := rfl
@[simp] theorem hardwareReset_text (s : State) : (hardwareReset s).text = State.reset.text := rfl
@[simp] theorem hardwareReset_freq (s : State) : (hardwareReset s).freq = State.reset.freq := rfl
@[simp] theorem hardwareReset_tree (s : State) : (hardwareReset s).tree = State.reset.tree := rfl
@[simp] theorem hardwareReset_codetab (s : State) : (hardwareReset s).codetab = State.reset.codetab := rfl
@[simp] theorem hardwareReset_bits (s : State) : (hardwareReset s).bits = State.reset.bits := rfl
@[simp] theorem hardwareReset_payload (s : State) : (hardwareReset s).payload = State.reset.payload := rfl
@[simp] theorem hardwareReset_table (s : State) : (hardwareReset s).table = State.reset.table := rfl
@[simp] theorem hardwareReset_grid (s : State) : (hardwareReset s).grid = State.reset.grid := rfl
@[simp] theorem hardwareReset_inbox (s : State) : (hardwareReset s).inbox = s.inbox := rfl
@[simp] theorem hardwareReset_replies (s : State) : (hardwareReset s).replies = s.replies := rfl
@[simp] theorem hardwareReset_epoch (s : State) : (hardwareReset s).epoch = s.epoch + 1 := rfl
@[simp] theorem hardwareReset_turn (s : State) : (hardwareReset s).turn = s.turn := rfl

/-! ### The elements of the buffers -/

@[simp] theorem startStage_textAt (op : Byte) (s : State) : (startStage op s).textAt = s.textAt := rfl
@[simp] theorem startStage_freqAt (op : Byte) (s : State) : (startStage op s).freqAt = s.freqAt := rfl
@[simp] theorem startStage_treeAt (op : Byte) (s : State) : (startStage op s).treeAt = s.treeAt := rfl
@[simp] theorem startStage_codeAt (op : Byte) (s : State) : (startStage op s).codeAt = s.codeAt := rfl
@[simp] theorem startStage_bitAt (op : Byte) (s : State) : (startStage op s).bitAt = s.bitAt := rfl
@[simp] theorem startStage_payloadAt (op : Byte) (s : State) : (startStage op s).payloadAt = s.payloadAt := rfl
@[simp] theorem startStage_tableAt (op : Byte) (s : State) : (startStage op s).tableAt = s.tableAt := rfl
@[simp] theorem startStage_gridAt (op : Byte) (s : State) : (startStage op s).gridAt = s.gridAt := rfl
@[simp] theorem startStage_validText (op : Byte) (s : State) : (startStage op s).validText = s.validText := rfl
@[simp] theorem startStage_validFreq (op : Byte) (s : State) : (startStage op s).validFreq = s.validFreq := rfl
@[simp] theorem startStage_validCodes (op : Byte) (s : State) : (startStage op s).validCodes = s.validCodes := rfl
@[simp] theorem startStage_validBits (op : Byte) (s : State) : (startStage op s).validBits = s.validBits := rfl
@[simp] theorem startStage_validPayload (op : Byte) (s : State) : (startStage op s).validPayload = s.validPayload := rfl
@[simp] theorem startStage_validTable (op : Byte) (s : State) : (startStage op s).validTable = s.validTable := rfl
@[simp] theorem raiseFault_textAt (c : Cause) (n : Nat) (s : State) : (raiseFault c n s).textAt = s.textAt := rfl
@[simp] theorem raiseFault_freqAt (c : Cause) (n : Nat) (s : State) : (raiseFault c n s).freqAt = s.freqAt := rfl
@[simp] theorem raiseFault_treeAt (c : Cause) (n : Nat) (s : State) : (raiseFault c n s).treeAt = s.treeAt := rfl
@[simp] theorem raiseFault_codeAt (c : Cause) (n : Nat) (s : State) : (raiseFault c n s).codeAt = s.codeAt := rfl
@[simp] theorem raiseFault_bitAt (c : Cause) (n : Nat) (s : State) : (raiseFault c n s).bitAt = s.bitAt := rfl
@[simp] theorem raiseFault_payloadAt (c : Cause) (n : Nat) (s : State) : (raiseFault c n s).payloadAt = s.payloadAt := rfl
@[simp] theorem raiseFault_tableAt (c : Cause) (n : Nat) (s : State) : (raiseFault c n s).tableAt = s.tableAt := rfl
@[simp] theorem raiseFault_gridAt (c : Cause) (n : Nat) (s : State) : (raiseFault c n s).gridAt = s.gridAt := rfl
@[simp] theorem raiseFault_validText (c : Cause) (n : Nat) (s : State) : (raiseFault c n s).validText = s.validText := rfl
@[simp] theorem raiseFault_validFreq (c : Cause) (n : Nat) (s : State) : (raiseFault c n s).validFreq = s.validFreq := rfl
@[simp] theorem raiseFault_validCodes (c : Cause) (n : Nat) (s : State) : (raiseFault c n s).validCodes = s.validCodes := rfl
@[simp] theorem raiseFault_validBits (c : Cause) (n : Nat) (s : State) : (raiseFault c n s).validBits = s.validBits := rfl
@[simp] theorem raiseFault_validPayload (c : Cause) (n : Nat) (s : State) : (raiseFault c n s).validPayload = s.validPayload := rfl
@[simp] theorem raiseFault_validTable (c : Cause) (n : Nat) (s : State) : (raiseFault c n s).validTable = s.validTable := rfl
@[simp] theorem clearFault_textAt (s : State) : (clearFault s).textAt = s.textAt := rfl
@[simp] theorem clearFault_freqAt (s : State) : (clearFault s).freqAt = s.freqAt := rfl
@[simp] theorem clearFault_treeAt (s : State) : (clearFault s).treeAt = s.treeAt := rfl
@[simp] theorem clearFault_codeAt (s : State) : (clearFault s).codeAt = s.codeAt := rfl
@[simp] theorem clearFault_bitAt (s : State) : (clearFault s).bitAt = s.bitAt := rfl
@[simp] theorem clearFault_payloadAt (s : State) : (clearFault s).payloadAt = s.payloadAt := rfl
@[simp] theorem clearFault_tableAt (s : State) : (clearFault s).tableAt = s.tableAt := rfl
@[simp] theorem clearFault_gridAt (s : State) : (clearFault s).gridAt = s.gridAt := rfl
@[simp] theorem clearFault_validText (s : State) : (clearFault s).validText = s.validText := rfl
@[simp] theorem clearFault_validFreq (s : State) : (clearFault s).validFreq = s.validFreq := rfl
@[simp] theorem clearFault_validCodes (s : State) : (clearFault s).validCodes = s.validCodes := rfl
@[simp] theorem clearFault_validBits (s : State) : (clearFault s).validBits = s.validBits := rfl
@[simp] theorem clearFault_validPayload (s : State) : (clearFault s).validPayload = s.validPayload := rfl
@[simp] theorem clearFault_validTable (s : State) : (clearFault s).validTable = s.validTable := rfl
@[simp] theorem complete_textAt (s : State) : (complete s).textAt = s.textAt := rfl
@[simp] theorem complete_freqAt (s : State) : (complete s).freqAt = s.freqAt := rfl
@[simp] theorem complete_treeAt (s : State) : (complete s).treeAt = s.treeAt := rfl
@[simp] theorem complete_codeAt (s : State) : (complete s).codeAt = s.codeAt := rfl
@[simp] theorem complete_bitAt (s : State) : (complete s).bitAt = s.bitAt := rfl
@[simp] theorem complete_payloadAt (s : State) : (complete s).payloadAt = s.payloadAt := rfl
@[simp] theorem complete_tableAt (s : State) : (complete s).tableAt = s.tableAt := rfl
@[simp] theorem complete_gridAt (s : State) : (complete s).gridAt = s.gridAt := rfl
@[simp] theorem complete_validText (s : State) : (complete s).validText = s.validText := rfl
@[simp] theorem complete_validFreq (s : State) : (complete s).validFreq = s.validFreq := rfl
@[simp] theorem complete_validCodes (s : State) : (complete s).validCodes = s.validCodes := rfl
@[simp] theorem complete_validBits (s : State) : (complete s).validBits = s.validBits := rfl
@[simp] theorem complete_validPayload (s : State) : (complete s).validPayload = s.validPayload := rfl
@[simp] theorem complete_validTable (s : State) : (complete s).validTable = s.validTable := rfl
@[simp] theorem bumpIdx_textAt (s : State) : (bumpIdx s).textAt = s.textAt := rfl
@[simp] theorem bumpIdx_freqAt (s : State) : (bumpIdx s).freqAt = s.freqAt := rfl
@[simp] theorem bumpIdx_treeAt (s : State) : (bumpIdx s).treeAt = s.treeAt := rfl
@[simp] theorem bumpIdx_codeAt (s : State) : (bumpIdx s).codeAt = s.codeAt := rfl
@[simp] theorem bumpIdx_bitAt (s : State) : (bumpIdx s).bitAt = s.bitAt := rfl
@[simp] theorem bumpIdx_payloadAt (s : State) : (bumpIdx s).payloadAt = s.payloadAt := rfl
@[simp] theorem bumpIdx_tableAt (s : State) : (bumpIdx s).tableAt = s.tableAt := rfl
@[simp] theorem bumpIdx_gridAt (s : State) : (bumpIdx s).gridAt = s.gridAt := rfl
@[simp] theorem bumpIdx_validText (s : State) : (bumpIdx s).validText = s.validText := rfl
@[simp] theorem bumpIdx_validFreq (s : State) : (bumpIdx s).validFreq = s.validFreq := rfl
@[simp] theorem bumpIdx_validCodes (s : State) : (bumpIdx s).validCodes = s.validCodes := rfl
@[simp] theorem bumpIdx_validBits (s : State) : (bumpIdx s).validBits = s.validBits := rfl
@[simp] theorem bumpIdx_validPayload (s : State) : (bumpIdx s).validPayload = s.validPayload := rfl
@[simp] theorem bumpIdx_validTable (s : State) : (bumpIdx s).validTable = s.validTable := rfl
@[simp] theorem resetRegisters_textAt (s : State) : (resetRegisters s).textAt = s.textAt := rfl
@[simp] theorem resetRegisters_freqAt (s : State) : (resetRegisters s).freqAt = s.freqAt := rfl
@[simp] theorem resetRegisters_treeAt (s : State) : (resetRegisters s).treeAt = s.treeAt := rfl
@[simp] theorem resetRegisters_codeAt (s : State) : (resetRegisters s).codeAt = s.codeAt := rfl
@[simp] theorem resetRegisters_bitAt (s : State) : (resetRegisters s).bitAt = s.bitAt := rfl
@[simp] theorem resetRegisters_payloadAt (s : State) : (resetRegisters s).payloadAt = s.payloadAt := rfl
@[simp] theorem resetRegisters_tableAt (s : State) : (resetRegisters s).tableAt = s.tableAt := rfl
@[simp] theorem resetRegisters_gridAt (s : State) : (resetRegisters s).gridAt = s.gridAt := rfl

@[simp] theorem clearFault_startStage (op : Byte) (s : State) :
    clearFault (startStage op s) = startStage op (clearFault s) := rfl

end Sys2Proof.Machine
end

