-- ==== Sys2Proof/Laws/Run.lean ====
section
/-! SUPPORT. What a command's run can come to: the spec lemmas of `runStage`, `andThen` and `finish`, and for
each body of a command what it did when it ended well. -/

namespace Sys2Proof.Machine

/-! ### Stages -/

/-- A stage runs on: its body ended well. -/
theorem runStage_running {op : Byte} {body : State → Result} {s t : State} :
    runStage op body s = .running t ↔ body (startStage op s) = .ok t := by
  unfold runStage
  split <;> simp_all

/-- A stage ends in a fault entry: its body raised. -/
theorem runStage_faulted {op : Byte} {body : State → Result} {s t : State} :
    runStage op body s = .faulted t ↔
      ∃ c n, body (startStage op s) = .raise c n ∧ t = raiseFault c n (startStage op s) := by
  unfold runStage
  split <;> simp_all [eq_comm]

/-- A stage stops the model: its body is stuck. -/
theorem runStage_stopped {op : Byte} {body : State → Result} {s : State} {f : Fault} :
    runStage op body s = .stopped f ↔ body (startStage op s) = .stuck f := by
  unfold runStage
  split <;> simp_all

theorem andThen_running {p : Progress} {g : State → Progress} {t : State} :
    p.andThen g = .running t ↔ ∃ s, p = .running s ∧ g s = .running t := by
  cases p <;> simp [Progress.andThen]

theorem andThen_faulted {p : Progress} {g : State → Progress} {t : State} :
    p.andThen g = .faulted t ↔ p = .faulted t ∨ ∃ s, p = .running s ∧ g s = .faulted t := by
  cases p <;> simp [Progress.andThen]

theorem andThen_stopped {p : Progress} {g : State → Progress} {f : Fault} :
    p.andThen g = .stopped f ↔ p = .stopped f ∨ ∃ s, p = .running s ∧ g s = .stopped f := by
  cases p <;> simp [Progress.andThen]

/-- A command answers a next state in two ways only: it completed, or a stage took a fault. -/
theorem finish_next {p : Progress} {t : State} :
    p.finish = .next t ↔ (∃ s, p = .running s ∧ t = complete s) ∨ p = .faulted t := by
  cases p <;> simp [Progress.finish, eq_comm]

theorem finish_fault {p : Progress} {f : Fault} : p.finish = .fault f ↔ p = .stopped f := by
  cases p <;> simp [Progress.finish]

theorem finish_not_refused (p : Progress) (r : Refusal) : p.finish ≠ .refused r := by
  cases p <;> simp [Progress.finish]

/-- What one primitive or control command can come to. -/
theorem runStage_finish {op : Byte} {body : State → Result} {s t : State} :
    (runStage op body s).finish = .next t ↔
      (∃ u, body (startStage op s) = .ok u ∧ t = complete u) ∨
      (∃ c n, body (startStage op s) = .raise c n ∧ t = raiseFault c n (startStage op s)) := by
  rw [finish_next, runStage_faulted]
  simp only [runStage_running]

/-- A primitive or control command whose body ends well completes. -/
theorem runStage_finish_ok {op : Byte} {body : State → Result} {s u : State} (h : body (startStage op s) = .ok u) :
    (runStage op body s).finish = .next (complete u) := by
  simp [runStage, h, Progress.finish]

/-- A primitive or control command whose body raises takes the fault. -/
theorem runStage_finish_raise {op : Byte} {body : State → Result} {s : State} {c : Cause} {n : Nat}
    (h : body (startStage op s) = .raise c n) :
    (runStage op body s).finish = .next (raiseFault c n (startStage op s)) := by
  simp [runStage, h, Progress.finish]

/-! ### Bodies: what a command that ends well has done -/

theorem bodyAnalyze_ok {s t : State} : bodyAnalyze s = .ok t ↔
    ∃ f, countFrom s.params.maxSyms 0 [] s.validText = .ok f ∧
      t = { s with freq := s.freq.writeSeq 0 f, freqN := BitVec.ofNat 32 f.length } := by
  unfold bodyAnalyze
  cases h : countFrom s.params.maxSyms 0 [] s.validText <;> simp [eq_comm]

theorem bodyBuildTree_ok {s t : State} : bodyBuildTree s = .ok t ↔
    s.freqN ≠ 0#32 ∧
      t = { s with
        tree := s.tree.writeSeq 0 (buildTree s.validFreq).1
        nodeN := BitVec.ofNat 32 (buildTree s.validFreq).1.length
        root := BitVec.ofNat 32 ((buildTree s.validFreq).2.headD 0) } := by
  unfold bodyBuildTree
  by_cases h : s.freqN = 0#32
  · simp only [h, if_true, reduceCtorEq, ne_eq, not_true_eq_false, false_and]
  · simp only [h, if_false, Result.ok.injEq, ne_eq, not_false_eq_true, true_and, eq_comm]

theorem bodyGenCodes_ok {s t : State} : bodyGenCodes s = .ok t ↔
    s.nodeN ≠ 0#32 ∧ ∃ tab, codesOfTree s.treeAt s.nodeN.toNat s.root.toNat = some tab ∧
      t = { s with codetab := s.codetab.writeSeq 0 tab, codeN := BitVec.ofNat 32 tab.length } := by
  unfold bodyGenCodes
  by_cases h : s.nodeN = 0#32
  · simp only [h, if_true, reduceCtorEq, ne_eq, not_true_eq_false, false_and]
  · cases hc : codesOfTree s.treeAt s.nodeN.toNat s.root.toNat <;> simp [h, eq_comm]

theorem bodyEncBits_ok {s t : State} : bodyEncBits s = .ok t ↔
    firstMissing s.validCodes s.validText = none ∧
      (encodeText s.validCodes s.validText).length ≤ s.params.maxBits ∧
      t = { s with
        bits := s.bits.writeSeq 0 (encodeText s.validCodes s.validText)
        bitsLen := BitVec.ofNat 32 (encodeText s.validCodes s.validText).length } := by
  unfold bodyEncBits
  split
  · simp_all
  · dsimp only
    split
    · simp_all
    · simp_all [eq_comm]

theorem bodyPad_ok {s t : State} : bodyPad s = .ok t ↔
    s.bitsLen.toNat + 8 + padCount s.bitsLen.toNat ≤ s.params.maxBits ∧
      t = { s with
        bits := s.bits.writeSeq 0 (padBits s.validBits)
        bitsLen := BitVec.ofNat 32 (s.bitsLen.toNat + 8 + padCount s.bitsLen.toNat)
        padcnt := BitVec.ofNat 8 (padCount s.bitsLen.toNat) } := by
  unfold bodyPad
  dsimp only
  split
  · simp_all
  · simp_all [eq_comm]

theorem bodyToBytes_ok {s t : State} : bodyToBytes s = .ok t ↔
    s.bitsLen.toNat % 8 = 0 ∧ s.bitsLen.toNat / 8 ≤ s.params.maxPayload ∧
      t = { s with
        payload := s.payload.writeSeq 0 (bytesOf s.validBits)
        payLen := BitVec.ofNat 32 (s.bitsLen.toNat / 8) } := by
  unfold bodyToBytes
  dsimp only
  split
  · simp_all
  · split
    · simp_all
    · simp_all [eq_comm]

theorem bodyToBits_ok {s t : State} : bodyToBits s = .ok t ↔
    8 * s.payLen.toNat ≤ s.params.maxBits ∧
      t = { s with
        bits := s.bits.writeSeq 0 (bitsOf s.validPayload)
        bitsLen := BitVec.ofNat 32 (8 * s.payLen.toNat) } := by
  unfold bodyToBits
  dsimp only
  split
  · simp_all
  · simp_all [eq_comm]

theorem bodyUnpad_ok {s t : State} : bodyUnpad s = .ok t ↔
    8 ≤ s.bitsLen.toNat ∧ val (memRead s.bitAt 0 8) ≤ s.bitsLen.toNat - 8 ∧
      t = { s with
        bits := s.bits.writeSeq 0 (memRead s.bitAt 8 (s.bitsLen.toNat - 8 - val (memRead s.bitAt 0 8)))
        bitsLen := BitVec.ofNat 32 (s.bitsLen.toNat - 8 - val (memRead s.bitAt 0 8))
        padcnt := BitVec.ofNat 8 (val (memRead s.bitAt 0 8)) } := by
  unfold bodyUnpad
  dsimp only
  split
  · simp_all
  · split
    · simp_all
    · simp_all [eq_comm]

theorem bodySerTable_ok {s t : State} : bodySerTable s = .ok t ↔
    (serialize s.params s.validCodes).length ≤ s.params.maxTable ∧
      t = { s with
        table := s.table.writeSeq 0 (serialize s.params s.validCodes)
        tabLen := BitVec.ofNat 32 (serialize s.params s.validCodes).length } := by
  unfold bodySerTable
  dsimp only
  split
  · simp_all
  · simp_all [eq_comm]

theorem bodyDeserTable_ok {s t : State} : bodyDeserTable s = .ok t ↔
    ∃ tab, deserialize s.params s.validTable = .ok tab ∧
      t = { s with codetab := s.codetab.writeSeq 0 tab, codeN := BitVec.ofNat 32 tab.length } := by
  unfold bodyDeserTable
  cases h : deserialize s.params s.validTable <;> simp [eq_comm]

theorem bodyDecBits_ok {s t : State} : bodyDecBits s = .ok t ↔
    (decodeBits s.validCodes s.validBits).1.length ≤ s.params.maxText ∧
      t = { s with
        text := s.text.writeSeq 0 (decodeBits s.validCodes s.validBits).1
        textLen := BitVec.ofNat 32 (decodeBits s.validCodes s.validBits).1.length
        status := { s.status with residue := residueFlag (decodeBits s.validCodes s.validBits).2 } } := by
  unfold bodyDecBits
  dsimp only
  split
  · simp_all
  · simp_all [eq_comm]

theorem bodyGridPack_ok {s t : State} : bodyGridPack s = .ok t ↔
    s.payLen.toNat < Config.lenLimit ∧ s.tabLen.toNat < Config.lenLimit ∧
      rowsNeeded s.payLen.toNat s.tabLen.toNat ≤ s.params.maxRows ∧
      t = { s with
        grid := s.grid.writeSeq 0 (packGrid s.validPayload s.validTable)
        gridRows := BitVec.ofNat 32 (rowsNeeded s.payLen.toNat s.tabLen.toNat) } := by
  unfold bodyGridPack
  dsimp only
  split
  · simp_all
  · split
    · simp_all
    · split
      · simp_all
      · simp_all [eq_comm]

/-- The lengths GRID_UNPACK reads from the header. -/
def headerLen1 (s : State) : Nat := undigits255 (memRead s.gridAt 0 4)

/-- The lengths GRID_UNPACK reads from the header. -/
def headerLen2 (s : State) : Nat := undigits255 (memRead s.gridAt 5 4)

theorem bodyGridUnpack_ok {s t : State} : bodyGridUnpack s = .ok t ↔
    s.gridRows.toNat ≠ 0 ∧ s.gridAt 4 = 0#8 ∧ (∀ j ∈ digitPositions, s.gridAt j ≠ 255#8) ∧
      rowsNeeded (headerLen1 s) (headerLen2 s) ≤ s.gridRows.toNat ∧
      headerLen1 s ≤ s.params.maxPayload ∧ headerLen2 s ≤ s.params.maxTable ∧
      t = { s with
        payload := s.payload.writeSeq 0
          (splitSlots (memRead s.gridAt 9 (headerLen1 s + headerLen2 s)) (headerLen1 s) (headerLen2 s)).1
        payLen := BitVec.ofNat 32 (headerLen1 s)
        table := s.table.writeSeq 0
          (splitSlots (memRead s.gridAt 9 (headerLen1 s + headerLen2 s)) (headerLen1 s) (headerLen2 s)).2
        tabLen := BitVec.ofNat 32 (headerLen2 s) } := by
  unfold bodyGridUnpack headerLen1 headerLen2
  dsimp only
  by_cases h0 : s.gridRows.toNat = 0
  · simp [h0]
  by_cases h1 : s.gridAt 4 = 0#8
  swap
  · simp [h0, h1]
  simp only [h0, h1, if_false, ne_eq, not_true_eq_false, not_false_eq_true, true_and]
  cases hf : digitPositions.find? (fun j => decide (s.gridAt j = 255#8)) with
  | some j =>
    have hj := List.find?_some hf
    have hm := List.mem_of_find?_eq_some hf
    simp only [decide_eq_true_eq] at hj
    simp only [reduceCtorEq, false_iff]
    rintro ⟨h, -⟩
    exact h j hm hj
  | none =>
    have hn : ∀ j ∈ digitPositions, s.gridAt j ≠ 255#8 := by
      intro j hj
      simpa using List.find?_eq_none.1 hf j hj
    simp only [gt_iff_lt]
    generalize undigits255 (memRead s.gridAt 0 4) = l1
    generalize undigits255 (memRead s.gridAt 5 4) = l2
    by_cases h2 : s.gridRows.toNat < rowsNeeded l1 l2
    · simp [h2, Nat.not_le.2 h2]
    by_cases h3 : s.params.maxPayload < l1
    · simp [h2, h3, Nat.not_le.2 h3]
    by_cases h4 : s.params.maxTable < l2
    · simp [h2, h3, h4, Nat.not_le.2 h4]
    · simp only [h2, h3, h4, if_false, Result.ok.injEq, Nat.not_lt.1 h2, Nat.not_lt.1 h3, Nat.not_lt.1 h4, true_and]
      constructor
      · rintro rfl; exact ⟨hn, rfl⟩
      · rintro ⟨-, rfl⟩; rfl

/-! ### One step of the machine -/

/-- What the end of an idle core's host action can come to. -/
theorem settle_next {u t : State} : settle u = .next t ↔
    ((u.status.busy = true ∧ u.status.err = true) ∧ engineStep u = .next t) ∨
    (¬ (u.status.busy = true ∧ u.status.err = true) ∧ t = u) := by
  unfold settle
  split
  · rename_i h
    exact ⟨fun e => .inl ⟨h, e⟩, fun e => e.elim And.right fun e => absurd h e.1⟩
  · rename_i h
    exact ⟨fun e => .inr ⟨h, by injection e with e; exact e.symm⟩, fun e => e.elim (fun e => absurd e.1 h) fun e => e.2 ▸ rfl⟩

theorem hostRead_status (off : Nat) (s : State) : (hostRead off s).2.status = s.status := by
  unfold hostRead
  split
  · split <;> rfl
  · cases regAt off with
    | none => rfl
    | some r => cases r <;> rfl

theorem windowStore_status (v : Word) (s : State) : (windowStore v s).status = s.status := by
  unfold windowStore
  split
  · rename_i b _
    split
    · cases b <;> rfl
    · rfl
  · rfl

/-- CMD is the one register whose write can change a flag. -/
theorem regWrite_status {r : RegName} (hr : r ≠ .cmd) (v : Word) (s : State) :
    (regWrite r v s).status = s.status := by
  cases r with
  | cmd => exact absurd rfl hr
  | bufData => exact windowStore_status v s
  | textLen | bitsLen | payLen | tabLen | gridRows => simp only [regWrite]; split <;> rfl
  | _ => rfl

theorem regAt_cmd {off : Nat} (h : regAt off = some .cmd) : off = 0x00 := by
  obtain ⟨row, hf, hc⟩ := Option.map_eq_some_iff.mp h
  have hrow : ∀ x ∈ registerMap, x.2 = .cmd → x.1 = 0x00 := by decide
  have ho : row.1 = off := by simpa using List.find?_some hf
  exact ho ▸ hrow row (List.mem_of_find?_eq_some hf) hc

/-- The one host action of an idle core after which BUSY and ERR are both 1: CLR_STATUS or SOFT_RESET is accepted
with `ERR = 1`. -/
theorem hostAct_busy_err {a : HostAction} {s : State} (hs : s.status.busy = false)
    (hb : (hostAct a s).status.busy = true) (he : (hostAct a s).status.err = true) :
    ∃ w, a = .write 0x00 w ∧ (w = 0x1E#32 ∨ w = 0x1F#32) ∧ s.status.err = true ∧
      hostAct a s = { s with status := s.status.accepted, cmdLatch := w } := by
  cases a with
  | read off => simp [hostAct, reply, hostRead_status, hs] at hb
  | wait => simp [hostAct, reply, hostRead_status, hs] at hb
  | reset => exact absurd (show false = true from hb) (by decide)
  | write off w =>
    simp only [hostAct, hostWrite, hs, Bool.false_eq_true, if_false] at hb he ⊢
    cases hr : regAt off with
    | none => simp [hr, hs] at hb
    | some r =>
      simp only [hr] at hb he ⊢
      by_cases hc : r = .cmd
      · subst hc
        simp only [regWrite, accept, hs, Bool.false_eq_true, if_false] at hb he ⊢
        split at hb
        · simp [hs] at hb
        · rename_i hn
          rw [if_neg hn] at he ⊢
          have hse : s.status.err = true := he
          refine ⟨w, by rw [regAt_cmd hr], ?_, hse, rfl⟩
          by_contra hw
          exact hn ⟨hse, hw⟩
      · simp [regWrite_status hc, hs] at hb

/-- All that a step which answers a next state can have been: nothing (idle, no action to come), the host's next
action (with the engine step of a command that clears a fault), the engine step, or, with both possible, either of the two at the cost of one turn. -/
theorem step_next_cases {s t : State} (h : step s = .next t) :
    (s.status.busy = false ∧ s.inbox = [] ∧ t = s) ∨
    (s.status.busy = false ∧ ∃ a rest, s.inbox = a :: rest ∧
      settle (hostAct a { s with inbox := rest }) = .next t) ∨
    (s.status.busy = true ∧ (s.inbox = [] ∨ s.inbox.head? = some .wait) ∧ engineStep s = .next t) ∨
    (s.status.busy = true ∧ ∃ a rest, s.inbox = a :: rest ∧ a ≠ .wait ∧
      ((Config.engineFirst s.turn = true ∧ engineStep { s with turn := s.turn + 1 } = .next t) ∨
        (Config.engineFirst s.turn = false ∧ t = busyHostTurn a rest s))) := by
  unfold step turnStep at h
  split at h
  · rename_i hb hi
    exact .inl ⟨hb, hi, by simpa using h.symm⟩
  · rename_i a rest hb hi
    exact .inr (.inl ⟨hb, a, rest, hi, h⟩)
  · rename_i hb hi
    exact .inr (.inr (.inl ⟨hb, .inl hi, h⟩))
  · rename_i rest hb hi
    exact .inr (.inr (.inl ⟨hb, .inr (by simp [hi]), h⟩))
  · rename_i a rest hne hb hi
    refine .inr (.inr (.inr ⟨hb, a, rest, hi, fun ha => hne (by simpa using ha), ?_⟩))
    split at h
    · exact .inl ⟨‹_›, h⟩
    · exact .inr ⟨by simpa using ‹¬ Config.engineFirst s.turn = true›, by simpa using h.symm⟩

end Sys2Proof.Machine
end

