-- ==== Sys2Proof/Tests/Slice0.lean ====
section
/-! SUPPORT. The model's own tests: ill-formed terms the checks refuse, words written out from the encoding, one
step of each command on values of 95_test_vectors.md (V-H1, the text "ab", unless a test says otherwise), and for
each statement with hypotheses a state that meets them. -/

namespace Sys2Proof.Tests

open Sys2Proof Sys2Proof.Machine

/-! ### Ill-formed terms -/

/-- Small parameters that meet every constraint at its lower end, but for two symbols. -/
def tiny : Params where
  symBytes := 1
  maxText := 1
  maxSyms := 2
  maxBits := 16
  maxPayload := 2
  maxTable := 1
  maxRows := 1

theorem test_params_ok : Params.reference.wf ∧ tiny.wf ∧ { tiny with maxRows := 477218588 }.wf := by decide
theorem test_params_symBytes : ¬ { tiny with symBytes := 0 }.wf ∧ ¬ { tiny with symBytes := 5 }.wf := by decide
theorem test_params_maxText : ¬ { tiny with maxText := 0 }.wf ∧ ¬ { tiny with maxText := 2 ^ 32 }.wf := by decide
theorem test_params_maxSyms : ¬ { tiny with maxSyms := 0 }.wf ∧ ¬ { tiny with maxSyms := 257 }.wf ∧
    ¬ { tiny with symBytes := 4, maxSyms := 65537 }.wf := by decide
theorem test_params_maxBits : ¬ { tiny with maxBits := 15 }.wf ∧ ¬ { tiny with maxBits := 2 ^ 32 }.wf := by decide
theorem test_params_maxPayload : ¬ { tiny with maxPayload := 1 }.wf ∧ ¬ { tiny with maxPayload := 2 ^ 32 }.wf := by
  decide
theorem test_params_maxTable : ¬ { tiny with maxTable := 0 }.wf ∧ ¬ { tiny with maxTable := 2 ^ 32 }.wf := by decide
theorem test_params_maxRows : ¬ { tiny with maxRows := 0 }.wf ∧ ¬ { tiny with maxRows := 477218589 }.wf := by decide

/-- Opcodes just outside the legal ranges, and a legal low byte under a field that is not 0. -/
theorem test_word_illformed : ¬ commandWordWf 0x0000000E#32 ∧ ¬ commandWordWf 0x0000000F#32 ∧
    ¬ commandWordWf 0x00000012#32 ∧ ¬ commandWordWf 0x0000001D#32 ∧ ¬ commandWordWf 0x00000020#32 ∧
    ¬ commandWordWf 0x000000FF#32 ∧ ¬ commandWordWf 0x00000101#32 ∧ ¬ commandWordWf 0x80000010#32 := by decide

/-- A buffer out of order, or with an index twice, is not canonical. -/
theorem test_memory_illformed : ¬ Memory.wf [(1, 0#8), (0, 0#8)] ∧ ¬ Memory.wf [(3, 0#8), (3, 1#8)] := by decide

/-! ### Encoding (30_encoding.md R90, R91) -/

theorem test_decode_control : decode 0b00000000000000000000000000000000#32 = .ok .nop ∧
    decode 0b00000000000000000000000000011110#32 = .ok .clrStatus ∧
    decode 0b00000000000000000000000000011111#32 = .ok .softReset := ⟨rfl, rfl, rfl⟩
theorem test_decode_encoder : decode 0b00000000000000000000000000000001#32 = .ok .analyze ∧
    decode 0b00000000000000000000000000000010#32 = .ok .buildTree ∧
    decode 0b00000000000000000000000000000011#32 = .ok .genCodes := ⟨rfl, rfl, rfl⟩
theorem test_decode_bitpacker : decode 0b00000000000000000000000000000100#32 = .ok .encBits ∧
    decode 0b00000000000000000000000000000101#32 = .ok .pad ∧
    decode 0b00000000000000000000000000000110#32 = .ok .toBytes ∧
    decode 0b00000000000000000000000000001011#32 = .ok .toBits ∧
    decode 0b00000000000000000000000000001100#32 = .ok .unpad := ⟨rfl, rfl, rfl, rfl, rfl⟩
theorem test_decode_decoder : decode 0b00000000000000000000000000000111#32 = .ok .serTable ∧
    decode 0b00000000000000000000000000001010#32 = .ok .deserTable ∧
    decode 0b00000000000000000000000000001101#32 = .ok .decBits := ⟨rfl, rfl, rfl⟩
theorem test_decode_grid : decode 0b00000000000000000000000000001000#32 = .ok .gridPack ∧
    decode 0b00000000000000000000000000001001#32 = .ok .gridUnpack := ⟨rfl, rfl⟩
theorem test_decode_composite : decode 0b00000000000000000000000000010000#32 = .ok .compress ∧
    decode 0b00000000000000000000000000010001#32 = .ok .decompress := ⟨rfl, rfl⟩
theorem test_decode_refuses : decode 0x0000000E#32 = .error .undefinedOpcode ∧
    decode 0x00000100#32 = .error .nonzeroField := ⟨rfl, rfl⟩
theorem test_decodeTableWord : decodeTableWord 32 0x10 = some .compress ∧ decodeTableWord 32 0x12 = none ∧
    decodeTableWord 8 0x0D = some .decBits := by decide

/-! ### States -/

/-- A sequence as the contents of a buffer from index 0. -/
abbrev buf {α : Type} (xs : List α) : Memory α := Memory.cells 0 xs

/-- The text "ab" right after reset. -/
def abText : State := { State.reset with text := buf [0x61#32, 0x62#32], textLen := 2#32 }

/-- Every buffer as the encode chain leaves it on "ab" (V-H1), BITS as ENC_BITS leaves it. -/
def ab : State :=
  { abText with
    freq := buf [⟨0x61#32, 1#32⟩, ⟨0x62#32, 1#32⟩], freqN := 2#32
    tree := buf [⟨.leaf, 1#32, 0x61#32, noHandle, noHandle⟩, ⟨.leaf, 1#32, 0x62#32, noHandle, noHandle⟩,
      ⟨.internal, 2#32, 0#32, 0#32, 1#32⟩]
    nodeN := 3#32, root := 2#32
    codetab := buf [⟨0x61#32, [false]⟩, ⟨0x62#32, [true]⟩], codeN := 2#32
    bits := buf [false, true], bitsLen := 2#32
    payload := buf [0x06#8, 0x40#8], payLen := 2#32
    table := buf [0x00#8, 0x01#8, 0x00#8, 0x61#8, 0x00#8, 0x01#8, 0x80#8, 0x62#8], tabLen := 8#32
    grid := buf [0x00#8, 0x00#8, 0x00#8, 0x02#8, 0x00#8, 0x00#8, 0x00#8, 0x00#8, 0x08#8,
      0x00#8, 0x01#8, 0x06#8, 0x00#8, 0x61#8, 0x40#8, 0x00#8, 0x01#8, 0x80#8,
      0x62#8, 0x00#8, 0x00#8, 0x00#8, 0x00#8, 0x00#8, 0x00#8, 0x00#8, 0x00#8]
    gridRows := 3#32 }

/-- The padded bitstring of V-H1. -/
def paddedBits : Bitstring := [false, false, false, false, false, true, true, false,
  false, true, false, false, false, false, false, false]

/-- `ab` with BITS padded. -/
def abPadded : State := { ab with bits := buf paddedBits, bitsLen := 16#32, padcnt := 6#8 }

/-- `s` with the command `i` latched and a host that waits. -/
def latched (i : Instr) (s : State) : State := s.withFetchWord 32 (encode i).toNat

/-- One of the fields after a command, if it answers a next state. -/
def after {α : Type} (i : Instr) (s : State) (f : State → α) : Option α :=
  match exec i s with
  | .next t => some (f t)
  | .fault _ => none
  | .refused _ => none

/-- One of the fields after a step, if it answers a next state. -/
def afterStep {α : Type} (s : State) (f : State → α) : Option α :=
  match step s with
  | .next t => some (f t)
  | .fault _ => none
  | .refused _ => none

/-- ERR, ERRCODE, ERRINFO, STAGE. -/
abbrev record (s : State) : Bool × Byte × Word × Byte := (s.status.err, s.errcode, s.errinfo, s.stage)

/-! ### One step of each command -/

theorem test_nop : after .nop State.reset (fun t => (t.status.toWord, t.stage)) = some (0x2#32, 0x00#8) := by decide
theorem test_clrStatus : after .clrStatus
    { ab with status := ⟨true, false, true, true⟩, errcode := 0x0B#8, errinfo := 7#32 }
    (fun t => (t.status.toWord, record t)) = some (0xA#32, false, 0#8, 0#32, 0x1E#8) := by decide
theorem test_softReset : after .softReset { ab with bufIdx := 9#32, bufSel := 3#3 }
    (fun t => (t.status.toWord, t.stage, t.root, t.bufIdx)) = some (0x2#32, 0#8, 0xFFFFFFFF#32, 0#32) := by decide
theorem test_softReset_keeps_text : after .softReset ab (fun t => (t.textLen, t.text)) = some (0#32, ab.text) := by
  decide

theorem test_analyze : after .analyze abText (fun t => (t.freqN, t.freq, t.stage)) =
    some (2#32, ab.freq, 0x01#8) := by decide
/-- R121: the symbol of index 2 is the third distinct one. -/
theorem test_analyze_overflow : after .analyze
    { State.reset with params := tiny, text := buf [0x61#32, 0x62#32, 0x63#32], textLen := 3#32 } record =
      some (true, 0x06#8, 2#32, 0x01#8) := by decide
theorem test_buildTree : after .buildTree { abText with freq := ab.freq, freqN := 2#32 }
    (fun t => (t.nodeN, t.root, t.tree)) = some (3#32, 2#32, ab.tree) := by decide
/-- V-H2, "aab": the rarer symbol is popped first and is the left child. -/
theorem test_buildTree_order : after .buildTree
    { State.reset with freq := buf [⟨0x61#32, 2#32⟩, ⟨0x62#32, 1#32⟩], freqN := 2#32 } (fun t => t.treeAt 2) =
      some ⟨.internal, 3#32, 0#32, 1#32, 0#32⟩ := by decide
theorem test_genCodes : after .genCodes { ab with codetab := [], codeN := 0#32 } (fun t => (t.codeN, t.codetab)) =
    some (2#32, ab.codetab) := by decide
/-- V-H3, "a": the single leaf gets the code "0". -/
theorem test_genCodes_single : after .genCodes
    { State.reset with tree := buf [⟨.leaf, 1#32, 0x61#32, noHandle, noHandle⟩], nodeN := 1#32, root := 0#32 }
    (fun t => (t.codeN, t.codetab)) = some (1#32, [(0, ⟨0x61#32, [false]⟩)]) := by decide

theorem test_encBits : after .encBits { ab with bits := [], bitsLen := 0#32 } (fun t => (t.bitsLen, t.bits)) =
    some (2#32, ab.bits) := by decide
theorem test_encBits_missing : after .encBits { ab with codeN := 1#32 } record =
    some (true, 0x03#8, 1#32, 0x04#8) := by decide
theorem test_pad : after .pad ab (fun t => (t.bitsLen, t.padcnt, t.bits)) = some (16#32, 6#8, buf paddedBits) := by
  decide
/-- V-E3: a multiple of 8 gets 8 more. -/
theorem test_pad_full : after .pad State.reset (fun t => (t.bitsLen, t.padcnt, t.validBits)) =
    some (16#32, 8#8, [false, false, false, false, true, false, false, false,
      false, false, false, false, false, false, false, false]) := by decide
theorem test_toBytes : after .toBytes { abPadded with payload := [], payLen := 0#32 } (fun t => (t.payLen, t.payload)) =
    some (2#32, ab.payload) := by decide
theorem test_toBytes_misaligned : after .toBytes { ab with bitsLen := 9#32 } record =
    some (true, 0x04#8, 9#32, 0x06#8) := by decide
theorem test_toBits : after .toBits ab (fun t => (t.bitsLen, t.bits)) = some (16#32, buf paddedBits) := by decide
theorem test_unpad : after .unpad abPadded (fun t => (t.bitsLen, t.padcnt, t.validBits)) =
    some (2#32, 6#8, [false, true]) := by decide
theorem test_unpad_short : after .unpad { ab with bitsLen := 4#32 } record =
    some (true, 0x0A#8, 4#32, 0x0C#8) := by decide

theorem test_serTable : after .serTable { ab with table := [], tabLen := 0#32 } (fun t => (t.tabLen, t.table)) =
    some (8#32, ab.table) := by decide
theorem test_deserTable : after .deserTable { ab with codetab := [], codeN := 0#32 }
    (fun t => (t.codeN, t.codetab)) = some (2#32, ab.codetab) := by decide
/-- R165's example: an unused bit is 1. -/
theorem test_deserTable_unused : after .deserTable
    { State.reset with table := buf [0x00#8, 0x02#8, 0xA0#8, 0x63#8], tabLen := 4#32 } record =
      some (true, 0x0B#8, 0#32, 0x0A#8) := by decide
theorem test_decBits : after .decBits { ab with text := [], textLen := 0#32 }
    (fun t => (t.textLen, t.text, t.status.residue)) = some (2#32, ab.text, false) := by decide
/-- R170: no code at all leaves the bits over. -/
theorem test_decBits_residue : after .decBits { ab with codeN := 0#32 } (fun t => (t.textLen, t.status.residue)) =
    some (0#32, true) := by decide

theorem test_gridPack : after .gridPack { ab with grid := [], gridRows := 0#32 } (fun t => (t.gridRows, t.grid)) =
    some (3#32, ab.grid) := by decide
/-- V-E5, (5,5): the tie, and `top` running out first. -/
theorem test_gridPack_tie : after .gridPack
    { State.reset with
      payload := buf [0xA0#8, 0xA1#8, 0xA2#8, 0xA3#8, 0xA4#8], payLen := 5#32
      table := buf [0xB0#8, 0xB1#8, 0xB2#8, 0xB3#8, 0xB4#8], tabLen := 5#32 }
    (fun t => memRead t.gridAt 9 10) =
      some [0xA0#8, 0xA1#8, 0xB0#8, 0xA2#8, 0xA3#8, 0xB1#8, 0xA4#8, 0xB2#8, 0xB3#8, 0xB4#8] := by decide
theorem test_gridUnpack : after .gridUnpack { ab with payload := [], table := [], payLen := 0#32, tabLen := 0#32 }
    (fun t => ((t.payLen, t.payload), t.tabLen, t.table)) = some ((2#32, ab.payload), 8#32, ab.table) := by decide
/-- V-E6: the signature before digits and rows. -/
theorem test_gridUnpack_signature : after .gridUnpack
    { State.reset with
      grid := buf [0xFF#8, 0xFF#8, 0xFF#8, 0xFF#8, 0x07#8, 0xFF#8, 0xFF#8, 0xFF#8, 0xFF#8], gridRows := 1#32 }
    record = some (true, 0x05#8, 7#32, 0x09#8) := by decide

theorem test_compress : after .compress abText (fun t => (t.gridRows, t.grid, t.padcnt, t.stage)) =
    some (3#32, ab.grid, 6#8, 0x08#8) := by decide
theorem test_compress_empty : after .compress State.reset record = some (true, 0x02#8, 0#32, 0x02#8) := by decide
theorem test_decompress : after .decompress { State.reset with grid := ab.grid, gridRows := 3#32 }
    (fun t => (t.textLen, t.text, t.padcnt, t.status.toWord)) = some (2#32, ab.text, 6#8, 0x2#32) := by decide
theorem test_decompress_truncated : after .decompress State.reset record = some (true, 0x09#8, 1#32, 0x09#8) := by
  decide

/-! ### The step and the port -/

theorem test_step_runs_first : afterStep (State.reset.withFetchWord 32 0x00) (fun t => (t.status.toWord, t.stage)) =
    some (0x2#32, 0x00#8) := by decide
/-- R224: STAGE stays. -/
theorem test_step_illegal : afterStep (ab.withFetchWord 32 0x0E) record = some (true, 0x01#8, 0x0E#32, 0x00#8) := by
  decide
/-- R70: the words of node 2 of TREE through the window. -/
theorem test_window_tree : (hostRead 0x44 { ab with bufSel := 2#3, bufIdx := 11#32 }).1 = 1#32 ∧
    (hostRead 0x44 { ab with bufSel := 2#3, bufIdx := 11#32 }).2.bufIdx = 12#32 := by decide
/-- R68, R71: low bits stored, the index moved, past 2^32 to 0. -/
theorem test_window_write : (hostWrite 0x44 0x1FF#32 { ab with bufSel := 4#3, bufIdx := 1#32 }).payload =
    [(0, 0x06#8), (1, 0xFF#8)] ∧
    (hostWrite 0x44 0x1FF#32 { ab with bufSel := 4#3, bufIdx := 0xFFFFFFFF#32 }).bufIdx = 0#32 := by decide
theorem test_length_capacity : (hostWrite 0x34 0x40000#32 ab).gridRows = 0x40000#32 ∧
    (hostWrite 0x34 0x40001#32 ab).gridRows = 3#32 := by decide
/-- R61: the host's actions as steps of an idle core: a write of TEXT_LEN, then a read of it. -/
theorem test_step_host_actions :
    afterStep { ab with inbox := [.write 0x14 1#32] } (fun t => (t.textLen, t.replies)) = some (1#32, []) ∧
    afterStep { ab with inbox := [.read 0x14] } (fun t => (t.textLen, t.replies)) = some (2#32, [2#32]) := by decide
/-- `ab` with a fault recorded and the host about to write `w` to CMD. -/
def abClearing (w : Word) : State :=
  { ab with status := ⟨false, false, true, false⟩, errcode := 0x02#8, inbox := [.write 0x00 w] }

/-- R206's example, R23: after a fault with STATUS 4, CLR_STATUS leaves STATUS 2, and no step shows BUSY and ERR. -/
theorem test_step_clear_fault :
    afterStep (abClearing 0x1E#32)
      (fun t => (t.status.toWord, t.errcode)) = some (0x2#32, 0#8) := by decide

/-! ### Witnesses: for each statement with hypotheses, states and operands that meet them, clause by clause -/

theorem ab_treeShape : ab.treeShape 2 :=
  ⟨by decide, by decide, by decide, by decide, by decide, by decide, by decide, by decide⟩

/-- The single leaf of V-H3, "a". -/
def oneLeaf : State :=
  { State.reset with tree := buf [⟨.leaf, 1#32, 0x61#32, noHandle, noHandle⟩], nodeN := 1#32, root := 0#32 }

theorem oneLeaf_treeShape : oneLeaf.treeShape 1 :=
  ⟨by decide, by decide, by decide, by decide, by decide, by decide, by decide, by decide⟩

theorem ab_inv : ab.Inv where
  params := by decide
  canonical := by decide
  below := by decide
  lengths := by decide
  flags := by decide
  errRecord := by decide
  stage := by decide
  symbols := by decide
  freqs := by decide
  tree := .inr ⟨2, ab_treeShape⟩
  codes := by decide

theorem latched_ab_inv : (latched .compress ab).Inv where
  params := by decide
  canonical := by decide
  below := by decide
  lengths := by decide
  flags := by decide
  errRecord := by decide
  stage := by decide
  symbols := by decide
  freqs := by decide
  tree := .inr ⟨2, ab_treeShape⟩
  codes := by decide

/-- `ab` while `i` is latched and the host has a read of its own to come. -/
def latchedRead (i : Instr) : State := { latched i ab with inbox := [.read 0x04] }

theorem witness_StepRunsLatchedCommand :
    (latched .pad ab).status.busy = true ∧ decode (latched .pad ab).cmdLatch = .ok .pad ∧ onlyWaits (latched .pad ab) ∧
    (latchedRead .pad).status.busy = true ∧ decode (latchedRead .pad).cmdLatch = .ok .pad ∧
    (latchedRead .pad).inbox = [.read 0x04] ∧ HostAction.read 0x04 ≠ .wait :=
  ⟨rfl, rfl, .inr rfl, rfl, rfl, rfl, by decide⟩
theorem witness_IllegalWordFaults :
    (ab.withFetchWord 32 0x0E).status.busy = true ∧ ¬ commandWordWf (ab.withFetchWord 32 0x0E).cmdLatch ∧
    onlyWaits (ab.withFetchWord 32 0x0E) ∧
    ({ ab.withFetchWord 32 0x0E with inbox := [.write 0x14 1#32] } : State).inbox = [.write 0x14 1#32] ∧
    HostAction.write 0x14 1#32 ≠ .wait ∧ ¬ commandWordWf 0x100#32 ∧
    ({ ab with status := ⟨false, false, true, false⟩ } : State).status.err = true := by decide
theorem witness_IdleCoreServesHost : ab.status.busy = false ∧ ab.inbox = [] ∧
    ({ ab with inbox := [.read 0x14] } : State).inbox = [.read 0x14] ∧
    ({ ab with inbox := [.write 0x40 5#32] } : State).inbox = [.write 0x40 5#32] ∧
    ({ ab with inbox := [.wait] } : State).inbox = [.wait] ∧
    ({ ab with inbox := [.reset] } : State).inbox = [.reset] := by decide
theorem witness_IdleCoreServesHost_writes : ab.status.err = false ∧
    (hostAct (.write 0x00 0#32) { ab with inbox := [] }).status.err = false ∧
    (abClearing 0x1E#32).status.busy = false ∧ (abClearing 0x1E#32).status.err = true ∧
    (abClearing 0x1E#32).inbox = [.write 0x00 0x1E#32] ∧
    (abClearing 0x1F#32).status.busy = false ∧ (abClearing 0x1F#32).status.err = true ∧
    (abClearing 0x1F#32).inbox = [.write 0x00 0x1F#32] := by decide
theorem witness_BusyCommandUndisturbed : (latchedRead .pad).status.busy = true ∧ HostAction.read 0x04 ≠ .reset ∧
    (latchedRead .pad).inbox = [.read 0x04] := by decide
theorem witness_DecodeInvertsEncode : decode 0x11#32 = .ok .decompress ∧ 0x11#32 = encode .decompress ∧
    ¬ commandWordWf 0x1D#32 ∧ decode 0x1D#32 = .error .undefinedOpcode := ⟨rfl, rfl, by decide, rfl⟩
theorem witness_CommandAcceptance : (latched .nop ab).status.busy = true ∧ ab.status.busy = false ∧
    ({ ab with status := ⟨false, false, true, false⟩ } : State).status.err = true ∧
    (0x1D#32 ≠ 0x1E#32 ∧ 0x1D#32 ≠ 0x1F#32) ∧ ab.status.err = false := by decide
theorem witness_BusyPortDropsAndShields : (latched .nop ab).status.busy = true := by decide
theorem witness_RegisterReads : ab.status.busy = false := by decide
theorem witness_UnmappedAndReadOnly : (0x02 % 4 ≠ 0 ∨ 0x48 ≤ 0x02) ∧ (0x48 % 4 ≠ 0 ∨ 0x48 ≤ 0x48) ∧
    ab.status.busy = false ∧ 0x04 ∈ [0x04, 0x08, 0x0C, 0x10, 0x18, 0x1C, 0x20, 0x24, 0x38] := by decide
theorem witness_LengthWrites : ab.status.busy = false ∧ (0x10000#32).toNat ≤ ab.params.maxText ∧
    ¬ (0x10001#32).toNat ≤ ab.params.maxText ∧ (0x1000000#32).toNat ≤ ab.params.maxBits ∧
    ¬ (0x1000001#32).toNat ≤ ab.params.maxBits ∧ (0x200000#32).toNat ≤ ab.params.maxPayload ∧
    ¬ (0x200001#32).toNat ≤ ab.params.maxPayload ∧ (0x10000#32).toNat ≤ ab.params.maxTable ∧
    ¬ (0x10001#32).toNat ≤ ab.params.maxTable ∧ (0x40000#32).toNat ≤ ab.params.maxRows ∧
    ¬ (0x40001#32).toNat ≤ ab.params.maxRows := by decide
theorem witness_WindowPointerWrites : ab.status.busy = false := by decide
/-- The window's last unit and the first beyond it, for each buffer. -/
theorem witness_WindowReads : ab.status.busy = false ∧
    (∀ sel : BitVec 3, ({ ab with bufSel := sel } : State).status.busy = false) ∧
    511 < 2 * ab.params.maxSyms ∧ ¬ 512 < 2 * ab.params.maxSyms ∧ 511 = 2 * 255 + 1 ∧
    2043 < 4 * (2 * ab.params.maxSyms - 1) ∧ ¬ 2044 < 4 * (2 * ab.params.maxSyms - 1) ∧ 2043 = 4 * 510 + 3 ∧
    65535 < ab.params.maxText ∧ ¬ 65536 < ab.params.maxText := by decide
theorem witness_WindowWrites : ab.status.busy = false ∧ ab.buffersCanonical := by decide

theorem witness_NopOnlyCompletes : ({ ab with status := ⟨false, false, true, false⟩ } : State).status.err = true := by
  decide
theorem witness_ClrStatusReturnsFromFault :
    ({ ab with status := ⟨false, false, true, false⟩ } : State).status.busy = false := by decide

theorem witness_AnalyzeCountsSymbols : ab.validText.eraseDups.length ≤ ab.params.maxSyms ∧
    (let s := { ab with params := { tiny with maxSyms := 1 } }
     1 < s.textLen.toNat ∧ (s.validText.take 1).eraseDups.length = s.params.maxSyms ∧
       s.textAt 1 ∉ s.validText.take 1) := by decide
theorem witness_BuildTreeMergesLightest : State.reset.freqN = 0#32 ∧
    ab.params.wf ∧ ab.freqN.toNat = 2 ∧ 2 ≤ ab.params.maxSyms ∧
    (ab.validFreq.map fun e => e.count.toNat).sum < 2 ^ 32 ∧
    ({ ab with freqN := 1#32 } : State).freqN.toNat = 1 := by decide
theorem witness_BuildTreeLeavesTree : ab.params.wf ∧ ab.freqN ≠ 0#32 ∧ ab.freqN.toNat ≤ ab.params.maxSyms ∧
    ab.freqOk := by decide
theorem witness_GenCodesWalksTree : State.reset.nodeN = 0#32 ∧ ab.params.wf ∧ ab.treeShape 2 ∧
    oneLeaf.params.wf ∧ oneLeaf.treeShape 1 := ⟨rfl, by decide, ab_treeShape, by decide, oneLeaf_treeShape⟩
theorem witness_GenCodesPrefixFree : ab.params.wf ∧ ab.treeShape 2 ∧ oneLeaf.treeShape 1 :=
  ⟨by decide, ab_treeShape, oneLeaf_treeShape⟩

/-- The out is 2 bits long: the capacities 2 and 1 are the two sides of the limit. -/
theorem witness_EncBitsConcatenatesCodes :
    ab.params.maxBits < 2 ^ 32 ∧ [0, 1].length = ab.textLen.toNat ∧
    (∀ i (h : i < [0, 1].length), [0, 1][i] < ab.codeN.toNat ∧ (ab.codeAt [0, 1][i]).sym = ab.textAt i ∧
      ∀ j < [0, 1][i], (ab.codeAt j).sym ≠ ab.textAt i) ∧
    (([0, 1].map fun k => (ab.codeAt k).code).flatten).length = 2 ∧
    (let s := { ab with codeN := 1#32 }
     1 < s.textLen.toNat ∧ (∀ k < s.codeN.toNat, (s.codeAt k).sym ≠ s.textAt 1) ∧
       ∀ j < 1, ∃ k < s.codeN.toNat, (s.codeAt k).sym = s.textAt j) := by decide
/-- 2 bits pad to 16. -/
theorem witness_PadPrefixesCount : ab.params.maxBits < 2 ^ 32 ∧
    ab.bitsLen.toNat + 8 + (8 - ab.bitsLen.toNat % 8) ≤ 16 ∧ 15 < ab.bitsLen.toNat + 8 + (8 - ab.bitsLen.toNat % 8) := by
  decide
theorem witness_ToBytesPacksMsbFirst : abPadded.bitsLen.toNat % 8 = 0 ∧ abPadded.bitsLen.toNat / 8 ≤ 2 ∧
    1 < abPadded.bitsLen.toNat / 8 ∧ ab.bitsLen.toNat % 8 ≠ 0 := by decide
theorem witness_ToBitsUnpacksMsbFirst : ab.params.maxBits < 2 ^ 32 ∧ 8 * ab.payLen.toNat ≤ 16 ∧
    15 < 8 * ab.payLen.toNat := by decide
/-- A count of exactly the bits left is taken; one more is not. -/
theorem witness_UnpadDropsCountedBits : ab.bitsLen.toNat < 8 ∧ 6 < 256 ∧ 8 ≤ abPadded.bitsLen.toNat ∧
    (∀ i < 8, abPadded.bitAt i = (6 : Nat).testBit (7 - i)) ∧ 6 ≤ abPadded.bitsLen.toNat - 8 ∧
    6 ≤ ({ abPadded with bitsLen := 14#32 } : State).bitsLen.toNat - 8 ∧
    ({ abPadded with bitsLen := 13#32 } : State).bitsLen.toNat - 8 < 6 := by decide

theorem witness_SerTableWritesRecords : ab.params.wf ∧
    (∀ e ∈ ab.validCodes, 1 ≤ e.code.length ∧ e.code.length ≤ 65535) ∧
    (ab.validCodes.map fun e => 2 + ceilDiv e.code.length 8 + ab.params.symBytes).sum ≤ 8 ∧
    7 < (ab.validCodes.map fun e => 2 + ceilDiv e.code.length 8 + ab.params.symBytes).sum := by decide

theorem ab_records : areRecords ab.params ab.validCodes ab.validTable :=
  ⟨[[0x00#8, 0x01#8, 0x00#8, 0x61#8], [0x00#8, 0x01#8, 0x80#8, 0x62#8]],
    .cons (by decide) (.cons (by decide) .nil), rfl⟩

theorem witness_DeserTableParsesRecords : ab.params.wf ∧ tableFits ab.params ab.validCodes ∧
    areRecords ab.params ab.validCodes ab.validTable ∧
    ∃ t, ab.status.err = false ∧ exec .deserTable ab = .next t ∧ t.status.err = false :=
  ⟨by decide, by decide, ab_records, _, rfl, rfl, rfl⟩

/-- After the record of "a": a record cut short, a code of length 0, unused bits, a code twice; and a good record
where one entry is all that fits. -/
theorem witness_DeserTableParsesRecords_faults :
    ab.params.wf ∧ tableFits ab.params [⟨0x61#32, [false]⟩] ∧
    areRecords ab.params [⟨0x61#32, [false]⟩] [0x00#8, 0x01#8, 0x00#8, 0x61#8] ∧
    ab.validTable = [0x00#8, 0x01#8, 0x00#8, 0x61#8] ++ [0x00#8, 0x01#8, 0x80#8, 0x62#8] ∧
    ({ ab with tabLen := 7#32 } : State).validTable =
      [0x00#8, 0x01#8, 0x00#8, 0x61#8] ++ [0x00#8, 0x01#8, 0x80#8] ∧
    [0x00#8, 0x01#8, 0x80#8].length < 2 + ceilDiv 1 8 + ab.params.symBytes ∧
    { tiny with maxSyms := 1 }.wf ∧ [(⟨0x61#32, [false]⟩ : CodeEntry)].length = { tiny with maxSyms := 1 }.maxSyms :=
  ⟨by decide, by decide, ⟨[[0x00#8, 0x01#8, 0x00#8, 0x61#8]], .cons (by decide) .nil, rfl⟩, by decide, by decide,
    by decide, by decide, by decide⟩
/-- "01" reads as the codes 0 and 1 with nothing left; capacities 2 and 1 are the two sides of the limit. -/
theorem witness_DecBitsEmitsShortestMatches : ab.params.maxText < 2 ^ 32 ∧
    ab.validBits = ([0, 1].map fun k => (ab.codeAt k).code).flatten ++ [] ∧ [0, 1].length ≤ 2 ∧ 1 < [0, 1].length := by
  decide

theorem witness_GridPackWritesContainer :
    ab.payLen.toNat < 4228250625 ∧ ab.tabLen.toNat < 4228250625 ∧
    (ab.payLen.toNat + ab.tabLen.toNat + 8) / 9 + 1 ≤ ab.params.maxRows ∧
    tiny.maxRows < (ab.payLen.toNat + ab.tabLen.toNat + 8) / 9 + 1 ∧
    4228250625 ≤ ({ ab with payLen := 4228250625#32 } : State).payLen.toNat ∧
    ({ ab with tabLen := 4228250624#32 } : State).tabLen.toNat < 4228250625 ∧
    4228250625 ≤ ({ ab with tabLen := 4228250625#32 } : State).tabLen.toNat := by decide
theorem witness_GridUnpackSplitsSlots : ab.gridRows ≠ 0#32 ∧ ab.gridAt 4 = 0#8 ∧
    (∀ j ∈ [0, 1, 2, 3, 5, 6, 7, 8], ab.gridAt j ≠ 255#8) ∧ headerField ab 0 = 2 ∧ headerField ab 5 = 8 ∧
    (2 + 8 + 8) / 9 + 1 ≤ ab.gridRows.toNat ∧ 2 ≤ ab.params.maxPayload ∧ 8 ≤ ab.params.maxTable := by decide
theorem witness_GridUnpackSplitsSlots_faults : State.reset.gridRows = 0#32 ∧ ab.gridRows ≠ 0#32 ∧
    ({ ab with grid := Memory.set ab.grid 4 1#8 } : State).gridAt 4 ≠ 0#8 ∧
    (let s := { ab with grid := Memory.set ab.grid 8 255#8 }
     s.gridAt 4 = 0#8 ∧ s.gridAt 8 = 255#8 ∧ ∀ i ∈ [0, 1, 2, 3, 5, 6, 7, 8], i < 8 → s.gridAt i ≠ 255#8) ∧
    ({ ab with gridRows := 2#32 } : State).gridRows.toNat < (2 + 8 + 8) / 9 + 1 ∧
    { tiny with maxPayload := 1 }.maxPayload < headerField ab 0 ∧ tiny.maxTable < headerField ab 5 := by decide
theorem witness_HeaderDigitsRoundTrip : 4228250624 < 4228250625 := by decide

theorem witness_CompressIsChain : (latched .compress abText).status.busy = true ∧
    (latched .compress abText).status.done = false ∧ (latched .compress abText).status.err = false := by decide
theorem witness_DecompressIsChain : (latched .decompress ab).status.busy = true ∧
    (latched .decompress ab).status.done = false ∧ (latched .decompress ab).status.err = false := by decide
theorem witness_CompressEmptyTextFaults : State.reset.textLen = 0#32 := by decide
theorem witness_CompressCompletes :
    let d := ab.validText.eraseDups.length
    let longest := max 1 (d - 1)
    let payMax := (ab.textLen.toNat * longest + 16) / 8
    let tabMax := d * (2 + (longest + 7) / 8 + ab.params.symBytes)
    ab.params.wf ∧ 1 ≤ ab.textLen.toNat ∧ d ≤ ab.params.maxSyms ∧
    ab.textLen.toNat * longest + 16 ≤ ab.params.maxBits ∧ payMax ≤ ab.params.maxPayload ∧
    tabMax ≤ ab.params.maxTable ∧ (payMax + tabMax + 8) / 9 + 1 ≤ ab.params.maxRows := by decide
theorem witness_DecompressReadsContainer :
    let es := ab.validCodes
    let pay := bytesOf (padBits (es.map CodeEntry.code).flatten)
    let bytes := serialize ab.params ab.validCodes
    ab.params.wf ∧ tableFits ab.params ab.validCodes ∧ (∀ e ∈ ab.validCodes, e.code.length ≤ 65535) ∧
    prefixFree (ab.validCodes.map CodeEntry.code) ∧ (∀ e ∈ es, e ∈ ab.validCodes) ∧ es.length ≤ ab.params.maxText ∧
    pay.length ≤ ab.params.maxPayload ∧ 8 * pay.length ≤ ab.params.maxBits ∧ bytes.length ≤ ab.params.maxTable ∧
    bytes.length < 4228250625 ∧ (packGrid pay bytes).length ≤ 9 * ab.gridRows.toNat ∧
    (∀ i (h : i < (packGrid pay bytes).length), ab.gridAt i = (packGrid pay bytes)[i]) := by decide

theorem witness_PackingRoundTrip : ab.params.maxBits < 2 ^ 32 ∧ ab.status.err = false ∧
    ab.bitsLen.toNat + 16 ≤ ab.params.maxBits ∧ (ab.bitsLen.toNat + 16 + 7) / 8 ≤ ab.params.maxPayload := by decide
theorem witness_TableRoundTrip : ab.Inv ∧ ab.status.err = false ∧
    ∃ t, exec .serTable ab = .next t ∧ t.status.err = false := ⟨ab_inv, rfl, _, rfl, rfl⟩
theorem witness_CodingRoundTrip : ab.params.wf ∧ ab.textLen.toNat ≤ ab.params.maxText ∧ ab.status.err = false ∧
    (ab.validCodes.map CodeEntry.sym).Nodup ∧ prefixFree (ab.validCodes.map CodeEntry.code) ∧
    (∀ e ∈ ab.validCodes, e.code ≠ []) ∧ ∃ t, exec .encBits ab = .next t ∧ t.status.err = false :=
  ⟨by decide, by decide, rfl, by decide, by decide, by decide, _, rfl, rfl⟩
theorem witness_ContainerRoundTrip : ab.Inv ∧ ab.status.err = false ∧
    ∃ t, exec .gridPack ab = .next t ∧ t.status.err = false := ⟨ab_inv, rfl, _, rfl, rfl⟩
theorem witness_CompressDecompressRoundTrip : ab.Inv ∧ ab.status.err = false ∧
    ∃ t u : State, exec .compress ab = .next t ∧ t.status.err = false ∧ u.params = t.params ∧ u.grid = t.grid ∧
      u.gridRows = t.gridRows := ⟨ab_inv, rfl, _, _, rfl, rfl, rfl, rfl, rfl⟩

theorem witness_FaultsArePrecise : isComposite .unpad = false ∧ ab.status.err = false ∧
    ∃ t, exec .unpad ab = .next t ∧ t.status.err = true := ⟨rfl, rfl, _, rfl, rfl⟩
theorem witness_CommandsWriteOnlyOutputs : ∃ t, exec .toBits ab = .next t ∧
    RegName.textLen ∉ outRegisters .toBits ∧ RegName.textLen ∉ [.status, .errcode, .errinfo, .stage, .bufData] ∧
    BufName.grid ∉ outBuffers .toBits ∧ writesResidue .toBits = false := ⟨_, rfl, by decide⟩
theorem witness_NonValidElementsKept : isComposite .unpad = false ∧ abPadded.params.wf ∧ abPadded.lengthsOk ∧
    abPadded.treeOk ∧ ∃ t, exec .unpad abPadded = .next t :=
  ⟨rfl, by decide, by decide, .inr ⟨2, ab_treeShape⟩, _, rfl⟩

/-- `ab` with an element beyond each of two lengths. -/
def abBeyond : State := { ab with text := ab.text ++ [(2, 0x7A#32)], bits := ab.bits ++ [(7, true)] }

theorem witness_NonValidElementsNeverRead : ab.Inv ∧ Agree ab abBeyond ∧ ab ≠ abBeyond ∧
    ∃ t, exec .encBits ab = .next t := by
  refine ⟨ab_inv, ?_, by decide, _, rfl⟩
  constructor
  all_goals decide

theorem witness_StepKeepsCanonicalBuffers : (latched .compress ab).buffersCanonical ∧
    ∃ t, step (latched .compress ab) = .next t := ⟨by decide, _, rfl⟩
theorem witness_StepKeepsFlagsAndRecord : (latched .compress ab).flagsOk ∧ (latched .compress ab).errRecordOk ∧
    (latched .compress ab).stageOk ∧ ∃ t, step (latched .compress ab) = .next t :=
  ⟨by decide, by decide, by decide, _, rfl⟩
theorem witness_StepKeepsInvariant : (latched .compress ab).Inv ∧ ∃ t, step (latched .compress ab) = .next t :=
  ⟨latched_ab_inv, _, rfl⟩
theorem witness_EveryCommandEnds : (latched .compress ab).Inv ∧ (latched .compress ab).status.busy = true ∧
    onlyWaits (latched .compress ab) := ⟨latched_ab_inv, rfl, .inr rfl⟩

end Sys2Proof.Tests
end

section
/-! PROOFS. What BUILD_TREE leaves, as a tree of the state (10_state.md R43, 41_huffman_encoder.md R126). -/

namespace Sys2Proof.Machine

/-- A word holds every number below `2 ^ 32`. -/
theorem toNat_ofNat_of_lt {n : Nat} (h : n < 2 ^ 32) : (BitVec.ofNat 32 n).toNat = n := by
  rw [BitVec.toNat_ofNat, Nat.mod_eq_of_lt h]

@[simp] theorem validFreq_length (s : State) : s.validFreq.length = s.freqN.toNat := by simp [State.validFreq]

/-- A handle that was live when node `k` was made is no child of an earlier node, so a node has one parent. -/
theorem hasChild_unique {node : Nat → TreeNode} {n N h g k : Nat}
    (hlive : ∀ j < N, n ≤ j → ∀ c, hasChild node j c → liveWhen node n j c)
    (hg : g < N) (hgn : n ≤ g) (hgc : hasChild node g h) (hk : k < N) (hkn : n ≤ k) (hkc : hasChild node k h) :
    k = g := by
  by_contra hne
  rcases Nat.lt_or_gt_of_ne hne with hlt | hlt
  · exact (hlive g hg hgn h hgc).2 k hlt hkn hkc
  · exact (hlive k hk hkn h hkc).2 g hlt hgn hgc

/-- The children of an internal node of a finished arena. -/
theorem Built.children {f : List FreqEntry} {nodes : List TreeNode} {live : List Nat} (B : Built f nodes live)
    (hN : nodes.length ≤ 2 ^ 32) {g : Nat} (hg : g < nodes.length) (hn : f.length ≤ g) :
    ∃ a b, nodeOf nodes g = mergedNode nodes a b ∧ (nodeOf nodes g).left.toNat = a ∧
      (nodeOf nodes g).right.toNat = b ∧ liveWhen (nodeOf nodes) f.length g a ∧
      liveWhen (nodeOf nodes) f.length g b ∧ a ≠ b ∧
      (nodeOf nodes g).freq.toNat = (nodeOf nodes a).freq.toNat + (nodeOf nodes b).freq.toNat := by
  obtain ⟨a, b, hnode, ha, hb, hab, hfreq, -⟩ := B.inner g hg hn
  refine ⟨a, b, hnode, ?_, ?_, ha, hb, hab, hfreq⟩
  · rw [hnode]; exact toNat_ofNat_of_lt (ha.1.trans (hg.trans_le hN))
  · rw [hnode]; exact toNat_ofNat_of_lt (hb.1.trans (hg.trans_le hN))

/-- A child is live when its parent is made. -/
theorem Built.live_of_hasChild {f : List FreqEntry} {nodes : List TreeNode} {live : List Nat} (B : Built f nodes live)
    (hN : nodes.length ≤ 2 ^ 32) {g : Nat} (hg : g < nodes.length) (hn : f.length ≤ g) (c : Nat)
    (hc : hasChild (nodeOf nodes) g c) : liveWhen (nodeOf nodes) f.length g c := by
  obtain ⟨a, b, -, hl, hr, ha, hb, -⟩ := B.children hN hg hn
  rcases hc with hc | hc
  · rwa [← hc, hl]
  · rwa [← hc, hr]

/-- A state whose TREE holds a finished arena over FREQ has a tree, and its root carries the whole count. -/
theorem Built.treeShape {f : List FreqEntry} {nodes : List TreeNode} {t : State}
    (B : Built f nodes [2 * f.length - 2]) (hf : f ≠ []) (hcap : f.length ≤ t.params.maxSyms)
    (hN : nodes.length ≤ 2 ^ 32) (hsyms : (f.map FreqEntry.sym).Nodup)
    (hnodes : ∀ h < nodes.length, t.treeAt h = nodeOf nodes h)
    (hnodeN : t.nodeN.toNat = 2 * f.length - 1) (hroot : t.root.toNat = 2 * f.length - 2) :
    t.treeShape f.length ∧
      (t.treeAt t.root.toNat).freq.toNat = (f.map fun e => e.count.toNat).sum := by
  have hpos := List.length_pos_iff.2 hf
  have hsize : nodes.length = 2 * f.length - 1 := by have := B.size; simp at this; omega
  have hleaf : ∀ h (hh : h < f.length), t.treeAt h = leafNode f[h] := fun h hh => by
    rw [hnodes h (by omega), B.leaves h hh]
  refine ⟨⟨hpos, hcap, hnodeN, hroot, ?leaves, ?symbols, ?inner, ?parent⟩, ?root⟩
  case leaves => intro h hh; rw [hleaf h hh]; exact ⟨rfl, rfl, rfl⟩
  case symbols =>
    intro h hh g hg hsym
    rw [hleaf h hh, hleaf g hg] at hsym
    exact (hsyms.getElem_inj_iff (hi := by simpa) (hj := by simpa)).1 (by simpa [leafNode] using hsym)
  case inner =>
    intro h hh hn
    obtain ⟨a, b, hnode, hl, hr, ha, hb, hab, hfreq⟩ := B.children hN (hsize ▸ hh) hn
    rw [hnodes h (by omega), hl, hr, hnodes a (by have := ha.1; omega), hnodes b (by have := hb.1; omega)]
    refine ⟨by rw [hnode]; rfl, by rw [hnode]; rfl, ha.1, hb.1, fun e => hab ?_, hfreq⟩
    rw [← hl, ← hr, e]
  case parent =>
    have hchild : ∀ g < 2 * f.length - 1, ∀ c, hasChild t.treeAt g c ↔ hasChild (nodeOf nodes) g c := fun g hg c => by
      simp only [hasChild, hnodes g (by omega)]
    intro h hh
    -- all but the root are live no more, so an internal node has them as a child
    have hdead : ¬ liveWhen (nodeOf nodes) f.length nodes.length h := by
      rw [← B.live_iff]; simp; omega
    obtain ⟨g, hg, hn, hc⟩ : ∃ g < nodes.length, f.length ≤ g ∧ hasChild (nodeOf nodes) g h := by
      by_contra hno
      exact hdead ⟨by omega, fun g hg hn hc => hno ⟨g, hg, hn, hc⟩⟩
    refine ⟨g, by omega, hn, (hchild g (by omega) h).2 hc, fun k hk hkn hkc => ?_⟩
    exact hasChild_unique (fun j hj hjn => B.live_of_hasChild hN hj hjn) hg hn hc (by omega) hkn
      ((hchild k hk h).1 hkc)
  case root =>
    rw [hroot, hnodes _ (by omega), ← B.sum]; simp

/-- The merging loop on FREQ as ANALYZE leaves it. -/
theorem buildTree_validFreq {s : State} (hwf : s.params.wf) (hcap : s.freqN.toNat ≤ s.params.maxSyms)
    (hfreq : s.freqOk) (hn : s.freqN ≠ 0#32) : s.validFreq ≠ [] ∧
      Built s.validFreq (buildTree s.validFreq).1 (buildTree s.validFreq).2 ∧
      (buildTree s.validFreq).1.length = 2 * s.freqN.toNat - 1 ∧
      (buildTree s.validFreq).2 = [2 * s.freqN.toNat - 2] := by
  obtain ⟨-, ⟨-, hmaxText⟩, ⟨-, -, hmaxSyms⟩, -⟩ := hwf
  obtain ⟨-, -, hsum⟩ := hfreq
  have hlen := validFreq_length s
  have hpos : 0 < s.freqN.toNat := Nat.pos_of_ne_zero fun e => hn (BitVec.eq_of_toNat_eq e)
  have hne : s.validFreq ≠ [] := List.length_pos_iff.1 (by omega)
  rw [← hlen]
  exact ⟨hne, buildTree_spec s.validFreq hne (by omega) (by omega)⟩

/-- TREE after BUILD_TREE from FREQ as ANALYZE leaves it. -/
theorem bodyBuildTree_treeShape {s t : State} (hwf : s.params.wf) (hcap : s.freqN.toNat ≤ s.params.maxSyms)
    (hfreq : s.freqOk) (ht : bodyBuildTree s = .ok t) :
    t.treeShape s.freqN.toNat ∧
      (t.treeAt t.root.toNat).freq.toNat = (s.validFreq.map fun e => e.count.toNat).sum := by
  obtain ⟨hn, rfl⟩ := bodyBuildTree_ok.1 ht
  obtain ⟨hne, B, hsize, hlive⟩ := buildTree_validFreq hwf hcap hfreq hn
  obtain ⟨-, -, ⟨-, -, hmaxSyms⟩, -⟩ := hwf
  have hlen := validFreq_length s
  rw [hlive] at B ⊢
  rw [← hlen] at B hsize ⊢
  refine B.treeShape hne (by rwa [hlen]) (by omega) hfreq.1 (fun h hh => ?_) ?_ ?_
  · exact (Memory.read_writeSeq_lt _ _ _ h hh).trans (by simp [nodeOf, hh])
  · exact (toNat_ofNat_of_lt (by omega)).trans hsize
  · exact toNat_ofNat_of_lt (n := 2 * s.validFreq.length - 2) (by omega)

/-- Settles O22: the merging loop leaves one live handle, the root; every other handle was taken out of the live set
by exactly one node. -/
theorem buildTreeLeavesTree : Obligations.BuildTreeLeavesTree := by
  unfold Obligations.BuildTreeLeavesTree
  intro s hwf hn hcap hfreq
  have hbody := bodyBuildTree_ok.2 ⟨show (startStage 0x02#8 s).freqN ≠ 0#32 from hn, rfl⟩
  obtain ⟨hshape, hsum⟩ := bodyBuildTree_treeShape (s := startStage 0x02#8 s) hwf hcap hfreq hbody
  exact ⟨_, runStage_finish_ok hbody, rfl, hshape, hsum⟩

end Sys2Proof.Machine
end

section
/-! PROOFS. The control registers apart from the data; the commands as chains of stages; what a chain and a step keep. -/

namespace Sys2Proof.Machine

/-! ### Control and data -/

/-- The fields of the state that hold no data: STATUS, the fault record, STAGE, PADCNT, the window's pointers, the
latch, and the model's own fields but the epoch. -/
structure Control where
  status : Status
  errcode : Byte
  errinfo : Word
  stage : Byte
  padcnt : Byte
  bufSel : BitVec 3
  bufIdx : Word
  cmdLatch : Word
  inbox : List HostAction
  replies : List Word
  turn : Nat

/-- The control fields of a state. -/
def State.control (s : State) : Control where
  status := s.status
  errcode := s.errcode
  errinfo := s.errinfo
  stage := s.stage
  padcnt := s.padcnt
  bufSel := s.bufSel
  bufIdx := s.bufIdx
  cmdLatch := s.cmdLatch
  inbox := s.inbox
  replies := s.replies
  turn := s.turn

/-- The data of `s` under other control fields. -/
def State.withControl (s : State) (c : Control) : State :=
  { s with
    status := c.status, errcode := c.errcode, errinfo := c.errinfo, stage := c.stage, padcnt := c.padcnt
    bufSel := c.bufSel, bufIdx := c.bufIdx, cmdLatch := c.cmdLatch
    inbox := c.inbox, replies := c.replies, turn := c.turn }

/-- The predicate speaks of the data only. -/
def DataOnly (P : State → Prop) : Prop := ∀ s c, P s → P (s.withControl c)

section
variable {P : State → Prop}

theorem DataOnly.startStage (hP : DataOnly P) {s : State} (op : Byte) (h : P s) : P (startStage op s) :=
  hP s { s.control with stage := op } h

theorem DataOnly.raiseFault (hP : DataOnly P) {s : State} (c : Cause) (n : Nat) (h : P s) : P (raiseFault c n s) :=
  hP s { s.control with errcode := c.code, errinfo := saturate n, status := s.status.faulted } h

theorem DataOnly.complete (hP : DataOnly P) {s : State} (h : P s) : P (complete s) :=
  hP s { s.control with status := s.status.completed } h

theorem DataOnly.bumpIdx (hP : DataOnly P) {s : State} (h : P s) : P (bumpIdx s) :=
  hP s { s.control with bufIdx := s.bufIdx + 1#32 } h

theorem DataOnly.setInbox (hP : DataOnly P) {s : State} (l : List HostAction) (h : P s) : P { s with inbox := l } :=
  hP s { s.control with inbox := l } h

theorem DataOnly.setTurn (hP : DataOnly P) {s : State} (n : Nat) (h : P s) : P { s with turn := n } :=
  hP s { s.control with turn := n } h

theorem DataOnly.accept (hP : DataOnly P) {s : State} (w : Word) (h : P s) : P (accept w s) := by
  unfold Machine.accept
  split
  · exact h
  split
  · exact h
  · exact hP s { s.control with status := s.status.accepted, cmdLatch := w } h

end

/-! ### Commands as chains of stages -/

/-- The primitive and control commands: the opcode STAGE takes, and the pseudocode. -/
inductive IsStage : Byte → (State → Result) → Prop where
  | nop : IsStage 0x00#8 .ok
  | analyze : IsStage 0x01#8 bodyAnalyze
  | buildTree : IsStage 0x02#8 bodyBuildTree
  | genCodes : IsStage 0x03#8 bodyGenCodes
  | encBits : IsStage 0x04#8 bodyEncBits
  | pad : IsStage 0x05#8 bodyPad
  | toBytes : IsStage 0x06#8 bodyToBytes
  | serTable : IsStage 0x07#8 bodySerTable
  | gridPack : IsStage 0x08#8 bodyGridPack
  | gridUnpack : IsStage 0x09#8 bodyGridUnpack
  | deserTable : IsStage 0x0A#8 bodyDeserTable
  | toBits : IsStage 0x0B#8 bodyToBits
  | unpad : IsStage 0x0C#8 bodyUnpad
  | decBits : IsStage 0x0D#8 bodyDecBits
  | clrStatus : IsStage 0x1E#8 (fun t => .ok (clearFault t))
  | softReset : IsStage 0x1F#8 (fun t => .ok (resetRegisters t))

/-- One stage, or some stages one after the other (45_pipeline_and_control.md R200). -/
inductive IsChain : (State → Progress) → Prop where
  | stage {op body} (h : IsStage op body) : IsChain (runStage op body)
  | andThen {p op body} (hp : IsChain p) (h : IsStage op body) : IsChain fun s => (p s).andThen (runStage op body)

/-- A command that is not composite is one stage. -/
theorem exec_stage {i : Instr} (hi : isComposite i = false) :
    ∃ op body, IsStage op body ∧ exec i = fun s => (runStage op body s).finish := by
  cases i with
  | nop => exact ⟨_, _, .nop, rfl⟩
  | analyze => exact ⟨_, _, .analyze, rfl⟩
  | buildTree => exact ⟨_, _, .buildTree, rfl⟩
  | genCodes => exact ⟨_, _, .genCodes, rfl⟩
  | encBits => exact ⟨_, _, .encBits, rfl⟩
  | pad => exact ⟨_, _, .pad, rfl⟩
  | toBytes => exact ⟨_, _, .toBytes, rfl⟩
  | serTable => exact ⟨_, _, .serTable, rfl⟩
  | gridPack => exact ⟨_, _, .gridPack, rfl⟩
  | gridUnpack => exact ⟨_, _, .gridUnpack, rfl⟩
  | deserTable => exact ⟨_, _, .deserTable, rfl⟩
  | toBits => exact ⟨_, _, .toBits, rfl⟩
  | unpad => exact ⟨_, _, .unpad, rfl⟩
  | decBits => exact ⟨_, _, .decBits, rfl⟩
  | clrStatus => exact ⟨_, _, .clrStatus, rfl⟩
  | softReset => exact ⟨_, _, .softReset, rfl⟩
  | compress | decompress => cases hi

theorem compressChain_isChain : IsChain compressChain :=
  .andThen (.andThen (.andThen (.andThen (.andThen (.andThen (.andThen (.stage .analyze) .buildTree) .genCodes)
    .encBits) .pad) .toBytes) .serTable) .gridPack

theorem decompressChain_isChain : IsChain decompressChain :=
  .andThen (.andThen (.andThen (.andThen (.stage .gridUnpack) .deserTable) .toBits) .unpad) .decBits

/-- Every command is a chain of stages and its end. -/
theorem exec_chain (i : Instr) : ∃ p, IsChain p ∧ exec i = fun s => (p s).finish := by
  cases hi : isComposite i
  · obtain ⟨op, body, h, he⟩ := exec_stage hi
    exact ⟨_, .stage h, he⟩
  · cases i with
    | compress => exact ⟨_, compressChain_isChain, rfl⟩
    | decompress => exact ⟨_, decompressChain_isChain, rfl⟩
    | _ => cases hi

/-! ### What a chain keeps -/

/-- What every stage of a chain keeps: as it ends well, and as it starts and then raises. -/
structure KeptByStages (P : State → Prop) : Prop where
  ok : ∀ {op body s t}, IsStage op body → P s → body (startStage op s) = .ok t → P t
  raise : ∀ {op body s c n}, IsStage op body → P s → body (startStage op s) = .raise c n → P (startStage op s)

theorem IsChain.running {P : State → Prop} (hP : KeptByStages P) {p : State → Progress} (hp : IsChain p)
    {s t : State} (hs : P s) (ht : p s = .running t) : P t := by
  induction hp generalizing t with
  | stage h => exact hP.ok h hs (runStage_running.1 ht)
  | andThen hp h ih =>
    obtain ⟨u, hu, ht⟩ := andThen_running.1 ht
    exact hP.ok h (ih hu) (runStage_running.1 ht)

theorem IsChain.faulted {P : State → Prop} (hP : KeptByStages P) {p : State → Progress} (hp : IsChain p)
    {s t : State} (hs : P s) (ht : p s = .faulted t) : ∃ u c n, P u ∧ t = raiseFault c n u := by
  have stage : ∀ {op body u}, IsStage op body → P u → runStage op body u = .faulted t →
      ∃ u c n, P u ∧ t = raiseFault c n u := fun h hu ht => by
    obtain ⟨c, n, hb, rfl⟩ := runStage_faulted.1 ht
    exact ⟨_, c, n, hP.raise h hu hb, rfl⟩
  induction hp with
  | stage h => exact stage h hs ht
  | andThen hp h ih =>
    rcases andThen_faulted.1 ht with ht | ⟨u, hu, ht⟩
    · exact ih ht
    · exact stage h (hp.running hP hs hu) ht

/-- How a command ends: completion or fault entry, in a state that has what every stage keeps. -/
theorem exec_end {P : State → Prop} (hP : KeptByStages P) {i : Instr} {s t : State} (hs : P s)
    (ht : exec i s = .next t) : ∃ u, P u ∧ (t = complete u ∨ ∃ c n, t = raiseFault c n u) := by
  obtain ⟨p, hp, he⟩ := exec_chain i
  rw [he] at ht
  rcases finish_next.1 ht with ⟨u, hu, rfl⟩ | ht
  · exact ⟨u, hp.running hP hs hu, .inl rfl⟩
  · obtain ⟨u, c, n, hu, rfl⟩ := hp.faulted hP hs ht
    exact ⟨u, hu, .inr ⟨c, n, rfl⟩⟩

/-! ### What a step keeps of the data -/

/-- A predicate on the data that no body and no host action breaks. -/
structure DataInvariant (P : State → Prop) : Prop where
  control : DataOnly P
  body : ∀ {op body s t}, IsStage op body → P s → body s = .ok t → P t
  unit : ∀ {s : State} {b : BufName} {i : Nat} (v : Word), P s → i < windowSize s.params b → P (setUnit s b i v)
  textLen : ∀ {s : State} (v : Word), P s → v.toNat ≤ s.params.maxText → P { s with textLen := v }
  bitsLen : ∀ {s : State} (v : Word), P s → v.toNat ≤ s.params.maxBits → P { s with bitsLen := v }
  payLen : ∀ {s : State} (v : Word), P s → v.toNat ≤ s.params.maxPayload → P { s with payLen := v }
  tabLen : ∀ {s : State} (v : Word), P s → v.toNat ≤ s.params.maxTable → P { s with tabLen := v }
  gridRows : ∀ {s : State} (v : Word), P s → v.toNat ≤ s.params.maxRows → P { s with gridRows := v }
  reset : ∀ {s : State}, P s → P (hardwareReset s)

section
variable {P : State → Prop} (hP : DataInvariant P)
include hP

theorem DataInvariant.stages : KeptByStages P where
  ok h hs hb := hP.body h (hP.control.startStage _ hs) hb
  raise _ hs _ := hP.control.startStage _ hs

theorem DataInvariant.exec {i : Instr} {s t : State} (hs : P s) (ht : exec i s = .next t) : P t := by
  obtain ⟨u, hu, rfl | ⟨c, n, rfl⟩⟩ := exec_end hP.stages hs ht
  · exact hP.control.complete hu
  · exact hP.control.raiseFault c n hu

theorem DataInvariant.engineStep {s t : State} (hs : P s) (ht : engineStep s = .next t) : P t := by
  unfold Machine.engineStep at ht
  split at ht
  · exact hP.exec hs ht
  · cases ht; exact hP.control.raiseFault _ _ hs

theorem DataInvariant.windowStore {s : State} (v : Word) (hs : P s) : P (windowStore v s) := by
  unfold Machine.windowStore
  split
  · split
    · next hi => exact hP.control.bumpIdx (hP.unit v hs hi)
    · exact hP.control.bumpIdx hs
  · exact hP.control.bumpIdx hs

theorem DataInvariant.regWrite {s : State} (r : RegName) (v : Word) (hs : P s) : P (regWrite r v s) := by
  have dropped {c : Prop} [Decidable c] {t : State} (h : c → P t) : P (if c then t else s) := by
    split
    · next hc => exact h hc
    · exact hs
  cases r with
  | cmd => exact hP.control.accept v hs
  | bufData => exact hP.windowStore v hs
  | bufSel => exact hP.control s { s.control with bufSel := v.extractLsb' 0 3 } hs
  | bufIdx => exact hP.control s { s.control with bufIdx := v } hs
  | textLen => exact dropped fun hv => hP.textLen v hs hv
  | bitsLen => exact dropped fun hv => hP.bitsLen v hs hv
  | payLen => exact dropped fun hv => hP.payLen v hs hv
  | tabLen => exact dropped fun hv => hP.tabLen v hs hv
  | gridRows => exact dropped fun hv => hP.gridRows v hs hv
  | _ => exact hs

theorem DataInvariant.hostRead {s : State} (off : Nat) (hs : P s) : P (hostRead off s).2 := by
  unfold Machine.hostRead
  split
  · split <;> exact hs
  · cases regAt off with
    | none => exact hs
    | some r =>
      cases r with
      | bufData => exact hP.control.bumpIdx hs
      | _ => exact hs

theorem DataInvariant.hostWrite {s : State} (off : Nat) (v : Word) (hs : P s) : P (hostWrite off v s) := by
  unfold Machine.hostWrite
  split
  · exact hs
  · cases regAt off with
    | none => exact hs
    | some r => exact hP.regWrite r v hs

theorem DataInvariant.reply {r : Word × State} (hs : P r.2) : P (reply r) :=
  hP.control r.2 { r.2.control with replies := r.2.replies ++ [r.1] } hs

theorem DataInvariant.hostAct {s : State} (a : HostAction) (hs : P s) : P (hostAct a s) := by
  cases a with
  | read off => exact hP.reply (hP.hostRead off hs)
  | wait => exact hP.reply (hP.hostRead 0x04 hs)
  | reset => exact hP.reset hs
  | write off v => exact hP.hostWrite off v hs

/-- Every step keeps it. -/
theorem DataInvariant.step {s t : State} (hs : P s) (ht : step s = .next t) : P t := by
  rcases step_next_cases ht with ⟨-, -, rfl⟩ | ⟨-, a, rest, -, ht⟩ | ⟨-, -, ht⟩ | ⟨-, a, rest, -, -, ⟨-, ht⟩ | ⟨-, rfl⟩⟩
  · exact hs
  · have ha := hP.hostAct a (hP.control.setInbox rest hs)
    rcases settle_next.1 ht with ⟨-, ht⟩ | ⟨-, rfl⟩
    · exact hP.engineStep ha ht
    · exact ha
  · exact hP.engineStep hs ht
  · exact hP.engineStep (hP.control.setTurn _ hs) ht
  · exact hP.control.setTurn _ (hP.hostAct a (hP.control.setInbox rest hs))

end

end Sys2Proof.Machine
end

section
/-! PROOFS. The host port on registers (10_state.md R22, R23, R28, R31, R55). -/

namespace Sys2Proof.Machine

/-- A read of a register of the idle core. -/
theorem hostRead_idle {s : State} {off : Nat} (r : RegName) (hb : s.status.busy = false) (hr : regAt off = some r) :
    hostRead off s = (regValue s r, regReadEffect s r) := by
  simp [hostRead, hb, hr]

/-- A write to a register of the idle core. -/
theorem hostWrite_idle {s : State} {off : Nat} (r : RegName) (v : Word) (hb : s.status.busy = false)
    (hr : regAt off = some r) : hostWrite off v s = regWrite r v s := by
  simp [hostWrite, hb, hr]

/-- STATUS answers whether the core is busy or not. -/
theorem hostRead_statusOffset (s : State) : hostRead 0x04 s = (s.status.toWord, s) := by
  cases hb : s.status.busy
  · exact hostRead_idle .status hb rfl
  · simp [hostRead, hb]

theorem Status.toWord_lt (f : Status) : f.toWord.toNat < 2 ^ 4 := by
  obtain ⟨b, d, e, r⟩ := f
  revert b d e r
  decide

theorem Status.toWord_bits (f : Status) : f.toWord.getLsbD 0 = f.busy ∧ f.toWord.getLsbD 1 = f.done ∧
    f.toWord.getLsbD 2 = f.err ∧ f.toWord.getLsbD 3 = f.residue := by
  obtain ⟨b, d, e, r⟩ := f
  revert b d e r
  decide

/-- Settles O9. -/
theorem statusWordLayout : Obligations.StatusWordLayout := by
  unfold Obligations.StatusWordLayout
  intro s
  obtain ⟨hbusy, hdone, herr, hresidue⟩ := s.status.toWord_bits
  refine ⟨_, hostRead_statusOffset s, hbusy, hdone, herr, hresidue, fun j hj => ?_⟩
  exact Nat.testBit_lt_two_pow (Nat.lt_of_lt_of_le s.status.toWord_lt (Nat.pow_le_pow_right (by decide) hj))

/-- Settles O10: each offset is looked up in the register map. -/
theorem registerReads : Obligations.RegisterReads := by
  unfold Obligations.RegisterReads
  intro s hb
  exact ⟨hostRead_idle .cmd hb rfl, hostRead_idle .errcode hb rfl, hostRead_idle .errinfo hb rfl,
    hostRead_idle .stage hb rfl, hostRead_idle .textLen hb rfl, hostRead_idle .freqN hb rfl,
    hostRead_idle .nodeN hb rfl, hostRead_idle .root hb rfl, hostRead_idle .codeN hb rfl,
    hostRead_idle .bitsLen hb rfl, hostRead_idle .payLen hb rfl, hostRead_idle .tabLen hb rfl,
    hostRead_idle .gridRows hb rfl, hostRead_idle .padcnt hb rfl, hostRead_idle .bufSel hb rfl,
    hostRead_idle .bufIdx hb rfl⟩

/-- Settles O12. -/
theorem lengthWrites : Obligations.LengthWrites := by
  unfold Obligations.LengthWrites
  intro s v hb
  exact ⟨hostWrite_idle .textLen v hb rfl, hostWrite_idle .bitsLen v hb rfl, hostWrite_idle .payLen v hb rfl,
    hostWrite_idle .tabLen v hb rfl, hostWrite_idle .gridRows v hb rfl⟩

theorem extractLsb'_three (v : Word) : v.extractLsb' 0 3 = BitVec.ofNat 3 (v.toNat % 8) := by
  apply BitVec.eq_of_toNat_eq
  simp

/-- Settles O13. -/
theorem windowPointerWrites : Obligations.WindowPointerWrites := by
  unfold Obligations.WindowPointerWrites
  intro s v hb
  rw [← extractLsb'_three]
  exact ⟨hostWrite_idle .bufSel v hb rfl, hostWrite_idle .bufIdx v hb rfl⟩

/-- Settles O16: the reset state is written out, and the reset input leads to it but for the parameters and the
model's own fields. -/
theorem resetRegisterValues : Obligations.ResetRegisterValues := by
  unfold Obligations.ResetRegisterValues
  intro s t ht
  rcases List.mem_pair.1 ht with rfl | rfl
  · decide
  · exact ⟨rfl, rfl, rfl, rfl, rfl, rfl, rfl, rfl, rfl, rfl, rfl, rfl, rfl, rfl, rfl, rfl⟩

end Sys2Proof.Machine
end

section
/-! PROOFS. The canonical form of the buffers through a step (20_memory.md R68), and the flags, the fault record and
STAGE (10_state.md R23, R26, R27). -/

namespace Sys2Proof.Machine

/-! ### The canonical form -/

/-- The eight buffers are canonical and the parameters are `p`. -/
structure CanonicalUnder (p : Params) (s : State) : Prop where
  params : s.params = p
  text : Memory.wf s.text
  freq : Memory.wf s.freq
  tree : Memory.wf s.tree
  codetab : Memory.wf s.codetab
  bits : Memory.wf s.bits
  payload : Memory.wf s.payload
  table : Memory.wf s.table
  grid : Memory.wf s.grid

theorem canonicalUnder_iff {p : Params} {s : State} : CanonicalUnder p s ↔ s.buffersCanonical ∧ s.params = p :=
  ⟨fun ⟨hp, h1, h2, h3, h4, h5, h6, h7, h8⟩ => ⟨⟨h1, h2, h3, h4, h5, h6, h7, h8⟩, hp⟩,
    fun ⟨⟨h1, h2, h3, h4, h5, h6, h7, h8⟩, hp⟩ => ⟨hp, h1, h2, h3, h4, h5, h6, h7, h8⟩⟩

theorem CanonicalUnder.body {p : Params} {op : Byte} {body : State → Result} {s t : State} (hop : IsStage op body)
    (h : CanonicalUnder p s) (ht : body s = .ok t) : CanonicalUnder p t := by
  cases hop with
  | nop | clrStatus | softReset => cases ht; exact { h with params := h.params }
  | analyze =>
    obtain ⟨f, -, rfl⟩ := bodyAnalyze_ok.1 ht
    exact { h with freq := Memory.wf_writeSeq _ _ _ h.freq }
  | buildTree =>
    obtain ⟨-, rfl⟩ := bodyBuildTree_ok.1 ht
    exact { h with tree := Memory.wf_writeSeq _ _ _ h.tree }
  | genCodes =>
    obtain ⟨-, tab, -, rfl⟩ := bodyGenCodes_ok.1 ht
    exact { h with codetab := Memory.wf_writeSeq _ _ _ h.codetab }
  | encBits =>
    obtain ⟨-, -, rfl⟩ := bodyEncBits_ok.1 ht
    exact { h with bits := Memory.wf_writeSeq _ _ _ h.bits }
  | pad =>
    obtain ⟨-, rfl⟩ := bodyPad_ok.1 ht
    exact { h with bits := Memory.wf_writeSeq _ _ _ h.bits }
  | toBytes =>
    obtain ⟨-, -, rfl⟩ := bodyToBytes_ok.1 ht
    exact { h with payload := Memory.wf_writeSeq _ _ _ h.payload }
  | serTable =>
    obtain ⟨-, rfl⟩ := bodySerTable_ok.1 ht
    exact { h with table := Memory.wf_writeSeq _ _ _ h.table }
  | gridPack =>
    obtain ⟨-, -, -, rfl⟩ := bodyGridPack_ok.1 ht
    exact { h with grid := Memory.wf_writeSeq _ _ _ h.grid }
  | gridUnpack =>
    obtain ⟨-, -, -, -, -, -, rfl⟩ := bodyGridUnpack_ok.1 ht
    exact { h with
      payload := Memory.wf_writeSeq _ _ _ h.payload
      table := Memory.wf_writeSeq _ _ _ h.table }
  | deserTable =>
    obtain ⟨tab, -, rfl⟩ := bodyDeserTable_ok.1 ht
    exact { h with codetab := Memory.wf_writeSeq _ _ _ h.codetab }
  | toBits =>
    obtain ⟨-, rfl⟩ := bodyToBits_ok.1 ht
    exact { h with bits := Memory.wf_writeSeq _ _ _ h.bits }
  | unpad =>
    obtain ⟨-, -, rfl⟩ := bodyUnpad_ok.1 ht
    exact { h with bits := Memory.wf_writeSeq _ _ _ h.bits }
  | decBits =>
    obtain ⟨-, rfl⟩ := bodyDecBits_ok.1 ht
    exact { h with text := Memory.wf_writeSeq _ _ _ h.text }

theorem CanonicalUnder.setUnit {p : Params} {s : State} (b : BufName) (i : Nat) (v : Word) (h : CanonicalUnder p s) :
    CanonicalUnder p (setUnit s b i v) := by
  cases b with
  | freq | tree | codetab => exact h
  | text => exact { h with text := Memory.wf_set _ _ _ h.text }
  | bits => exact { h with bits := Memory.wf_set _ _ _ h.bits }
  | payload => exact { h with payload := Memory.wf_set _ _ _ h.payload }
  | table => exact { h with table := Memory.wf_set _ _ _ h.table }
  | grid => exact { h with grid := Memory.wf_set _ _ _ h.grid }

theorem canonicalUnder_dataInvariant (p : Params) : DataInvariant (CanonicalUnder p) where
  control _ _ h := { h with params := h.params }
  body hop h ht := h.body hop ht
  unit v h _ := h.setUnit _ _ v
  textLen _ h _ := { h with params := h.params }
  bitsLen _ h _ := { h with params := h.params }
  payLen _ h _ := { h with params := h.params }
  tabLen _ h _ := { h with params := h.params }
  gridRows _ h _ := { h with params := h.params }
  reset h := ⟨h.params, .nil, .nil, .nil, .nil, .nil, .nil, .nil, .nil⟩

/-- Settles O51: the commands write whole sequences, the host single units, and both keep the rising order. -/
theorem stepKeepsCanonicalBuffers : Obligations.StepKeepsCanonicalBuffers := by
  unfold Obligations.StepKeepsCanonicalBuffers
  intro s t hs ht
  exact canonicalUnder_iff.1 ((canonicalUnder_dataInvariant s.params).step (canonicalUnder_iff.2 ⟨hs, rfl⟩) ht)

/-! ### Flags, fault record and STAGE -/

/-- The two states have the same STATUS, fault record and STAGE. -/
structure SameRecord (s t : State) : Prop where
  status : t.status = s.status
  errcode : t.errcode = s.errcode
  errinfo : t.errinfo = s.errinfo
  stage : t.stage = s.stage

/-- What a data command that ends well leaves of STATUS, the fault record and STAGE: all but RESIDUE. -/
theorem IsStage.record_kept {op : Byte} {body : State → Result} {s t : State} (h : IsStage op body)
    (hop : op.toNat ≤ 0x0D) (ht : body s = .ok t) :
    SameRecord { s with status := { s.status with residue := t.status.residue } } t := by
  cases h with
  | nop => cases ht; exact ⟨rfl, rfl, rfl, rfl⟩
  | analyze => obtain ⟨f, -, rfl⟩ := bodyAnalyze_ok.1 ht; exact ⟨rfl, rfl, rfl, rfl⟩
  | buildTree => obtain ⟨-, rfl⟩ := bodyBuildTree_ok.1 ht; exact ⟨rfl, rfl, rfl, rfl⟩
  | genCodes => obtain ⟨-, tab, -, rfl⟩ := bodyGenCodes_ok.1 ht; exact ⟨rfl, rfl, rfl, rfl⟩
  | encBits => obtain ⟨-, -, rfl⟩ := bodyEncBits_ok.1 ht; exact ⟨rfl, rfl, rfl, rfl⟩
  | pad => obtain ⟨-, rfl⟩ := bodyPad_ok.1 ht; exact ⟨rfl, rfl, rfl, rfl⟩
  | toBytes => obtain ⟨-, -, rfl⟩ := bodyToBytes_ok.1 ht; exact ⟨rfl, rfl, rfl, rfl⟩
  | serTable => obtain ⟨-, rfl⟩ := bodySerTable_ok.1 ht; exact ⟨rfl, rfl, rfl, rfl⟩
  | gridPack => obtain ⟨-, -, -, rfl⟩ := bodyGridPack_ok.1 ht; exact ⟨rfl, rfl, rfl, rfl⟩
  | gridUnpack => obtain ⟨-, -, -, -, -, -, rfl⟩ := bodyGridUnpack_ok.1 ht; exact ⟨rfl, rfl, rfl, rfl⟩
  | deserTable => obtain ⟨tab, -, rfl⟩ := bodyDeserTable_ok.1 ht; exact ⟨rfl, rfl, rfl, rfl⟩
  | toBits => obtain ⟨-, rfl⟩ := bodyToBits_ok.1 ht; exact ⟨rfl, rfl, rfl, rfl⟩
  | unpad => obtain ⟨-, -, rfl⟩ := bodyUnpad_ok.1 ht; exact ⟨rfl, rfl, rfl, rfl⟩
  | decBits => obtain ⟨-, rfl⟩ := bodyDecBits_ok.1 ht; exact ⟨rfl, rfl, rfl, rfl⟩
  | clrStatus | softReset => exact absurd hop (by decide)

/-- A stage is a data command or NOP, or one of the two that clear the fault record. -/
theorem IsStage.cases_op {op : Byte} {body : State → Result} (h : IsStage op body) :
    op.toNat ≤ 0x0D ∨ (op = 0x1E#8 ∧ body = fun t => .ok (clearFault t)) ∨
      (op = 0x1F#8 ∧ body = fun t => .ok (resetRegisters t)) := by
  cases h with
  | clrStatus => exact .inr (.inl ⟨rfl, rfl⟩)
  | softReset => exact .inr (.inr ⟨rfl, rfl⟩)
  | _ => exact .inl (by decide)

/-- The flags, the fault record and STAGE are in order (10_state.md R23, R26, R27). -/
structure RecordOk (s : State) : Prop where
  flags : s.flagsOk
  record : s.errRecordOk
  stage : s.stageOk

/-- While a command runs: DONE and ERR are 0, no fault is recorded, STAGE is in order. -/
structure RunningOk (s : State) : Prop where
  done : s.status.done = false
  err : s.status.err = false
  errcode : s.errcode = 0#8
  errinfo : s.errinfo = 0#32
  stage : s.stageOk

theorem RunningOk.congr {s t : State} (h : RunningOk s) (hr : SameRecord s t) : RunningOk t :=
  ⟨hr.status ▸ h.done, hr.status ▸ h.err, hr.errcode.trans h.errcode, hr.errinfo.trans h.errinfo,
    by unfold State.stageOk; rw [hr.stage]; exact h.stage⟩

theorem RecordOk.congr {s t : State} (h : RecordOk s) (hr : SameRecord s t) : RecordOk t where
  flags := by unfold State.flagsOk; rw [hr.status]; exact h.flags
  record := by unfold State.errRecordOk; rw [hr.status, hr.errcode, hr.errinfo]; exact h.record
  stage := by unfold State.stageOk; rw [hr.stage]; exact h.stage

/-- A busy core whose flags are in order is as a running command leaves it. -/
theorem RecordOk.running {s : State} (h : RecordOk s) (hb : s.status.busy = true) : RunningOk s := by
  have hdone : s.status.done = false := by simpa [hb] using h.flags.1
  have herr : s.status.err = false := by simpa [hb] using h.flags.2.2
  exact ⟨hdone, herr, (h.record.1 herr).1, (h.record.1 herr).2, h.stage⟩

theorem runningOk_kept : KeptByStages RunningOk where
  ok {op body s t} hop h ht := by
    rcases hop.cases_op with hle | ⟨rfl, rfl⟩ | ⟨rfl, rfl⟩
    · refine RunningOk.congr ?_ (hop.record_kept hle ht)
      exact ⟨h.done, h.err, h.errcode, h.errinfo, .inl hle⟩
    · cases ht; exact ⟨h.done, rfl, rfl, rfl, .inr rfl⟩
    · cases ht; exact ⟨rfl, rfl, rfl, rfl, .inl (Nat.zero_le _)⟩
  raise {op body s c n} hop h ht := by
    rcases hop.cases_op with hle | ⟨rfl, rfl⟩ | ⟨rfl, rfl⟩
    · exact ⟨h.done, h.err, h.errcode, h.errinfo, .inl hle⟩
    · cases ht
    · cases ht

theorem RunningOk.complete {s : State} (h : RunningOk s) : RecordOk (complete s) where
  flags := by simp [State.flagsOk, Machine.complete, h.err]
  record := ⟨fun _ => ⟨h.errcode, h.errinfo⟩, fun he => by simp [Machine.complete, h.err] at he⟩
  stage := h.stage

theorem Cause.code_bounds (c : Cause) : 1 ≤ c.code.toNat ∧ c.code.toNat ≤ 0x0B := by
  cases c <;> decide

theorem RunningOk.raiseFault {s : State} (h : RunningOk s) (c : Cause) (n : Nat) : RecordOk (raiseFault c n s) where
  flags := by simp [State.flagsOk, Machine.raiseFault, h.done]
  record := ⟨fun he => by simp [Machine.raiseFault] at he, fun _ => c.code_bounds⟩
  stage := h.stage

theorem RunningOk.engineStep {s t : State} (h : RunningOk s) (ht : engineStep s = .next t) : RecordOk t := by
  unfold Machine.engineStep at ht
  split at ht
  · obtain ⟨u, hu, rfl | ⟨c, n, rfl⟩⟩ := exec_end runningOk_kept h ht
    · exact hu.complete
    · exact hu.raiseFault c n
  · cases ht; exact h.raiseFault _ _

/-- CLR_STATUS and SOFT_RESET leave the record in order whatever it was: DONE is set, ERR and the fault record are
cleared. -/
theorem engineStep_clears {s t : State} (hl : s.cmdLatch = 0x1E#32 ∨ s.cmdLatch = 0x1F#32)
    (ht : engineStep s = .next t) : RecordOk t := by
  unfold engineStep at ht
  rcases hl with hl | hl
  · rw [hl, show decode 0x1E#32 = .ok .clrStatus from rfl] at ht
    cases ht
    exact ⟨by simp [State.flagsOk, complete, clearFault], by simp [State.errRecordOk, complete, clearFault],
      .inr rfl⟩
  · rw [hl, show decode 0x1F#32 = .ok .softReset from rfl] at ht
    cases ht
    exact ⟨by simp [State.flagsOk, complete, resetRegisters], by simp [State.errRecordOk, complete, resetRegisters],
      .inl (Nat.zero_le _)⟩

theorem hostRead_sameRecord (off : Nat) (s : State) : SameRecord s (hostRead off s).2 := by
  unfold hostRead
  split
  · split <;> exact ⟨rfl, rfl, rfl, rfl⟩
  · cases regAt off with
    | none => exact ⟨rfl, rfl, rfl, rfl⟩
    | some r => cases r <;> exact ⟨rfl, rfl, rfl, rfl⟩

theorem windowStore_sameRecord (v : Word) (s : State) : SameRecord s (windowStore v s) := by
  unfold windowStore
  split
  · next b _ =>
    split
    · cases b <;> exact ⟨rfl, rfl, rfl, rfl⟩
    · exact ⟨rfl, rfl, rfl, rfl⟩
  · exact ⟨rfl, rfl, rfl, rfl⟩

/-- Only a write of CMD touches the record. -/
theorem regWrite_sameRecord {r : RegName} (hr : r ≠ .cmd) (v : Word) (s : State) :
    SameRecord s (regWrite r v s) := by
  cases r with
  | cmd => exact absurd rfl hr
  | bufData => exact windowStore_sameRecord v s
  | textLen | bitsLen | payLen | tabLen | gridRows => simp only [regWrite]; split <;> exact ⟨rfl, rfl, rfl, rfl⟩
  | _ => exact ⟨rfl, rfl, rfl, rfl⟩

/-- What a host action can do to the record: nothing, acceptance of a command by an idle core, or reset. -/
theorem hostAct_record (a : HostAction) (s : State) :
    SameRecord s (hostAct a s) ∨ (s.status.busy = false ∧ ∃ w, hostAct a s =
      { s with status := s.status.accepted, cmdLatch := w }) ∨ hostAct a s = hardwareReset s := by
  cases a with
  | read off => obtain ⟨h1, h2, h3, h4⟩ := hostRead_sameRecord off s; exact .inl ⟨h1, h2, h3, h4⟩
  | wait => obtain ⟨h1, h2, h3, h4⟩ := hostRead_sameRecord 0x04 s; exact .inl ⟨h1, h2, h3, h4⟩
  | reset => exact .inr (.inr rfl)
  | write off v =>
    simp only [hostAct, hostWrite]
    split
    · exact .inl ⟨rfl, rfl, rfl, rfl⟩
    · next hb =>
      cases regAt off with
      | none => exact .inl ⟨rfl, rfl, rfl, rfl⟩
      | some r =>
        by_cases hr : r = .cmd
        · subst hr
          simp only [regWrite, accept, hb, if_false, Bool.false_eq_true]
          split
          · exact .inl ⟨rfl, rfl, rfl, rfl⟩
          · exact .inr (.inl ⟨trivial, v, rfl⟩)
        · exact .inl (regWrite_sameRecord hr v s)

theorem recordOk_hardwareReset (s : State) : RecordOk (hardwareReset s) :=
  ⟨by simp [State.flagsOk, hardwareReset, State.reset], by simp [State.errRecordOk, hardwareReset, State.reset],
    .inl (Nat.zero_le _)⟩

/-- Acceptance keeps the record in order when no fault is recorded. -/
theorem RecordOk.accepted {s : State} (h : RecordOk s) (herr : s.status.err = false) (w : Word) :
    RecordOk { s with status := s.status.accepted, cmdLatch := w } where
  flags := by simp [State.flagsOk, herr]
  record := h.record
  stage := h.stage

/-- The state after a host action of the idle core, unless BUSY and ERR are now both 1. -/
theorem RecordOk.hostAct {s : State} (h : RecordOk s) (a : HostAction)
    (hne : ¬ ((hostAct a s).status.busy = true ∧ (hostAct a s).status.err = true)) : RecordOk (hostAct a s) := by
  rcases hostAct_record a s with hr | ⟨-, w, hw⟩ | hr
  · exact h.congr hr
  · rw [hw] at hne ⊢
    exact h.accepted (by simpa using hne) w
  · exact hr ▸ recordOk_hardwareReset s

theorem RecordOk.settle {s t : State} (h : RecordOk s) (hb : s.status.busy = false) {a : HostAction}
    (ht : settle (Machine.hostAct a s) = .next t) : RecordOk t := by
  rcases settle_next.1 ht with ⟨⟨hbusy, herr⟩, ht⟩ | ⟨hne, rfl⟩
  · obtain ⟨w, -, hw, -, hu⟩ := hostAct_busy_err hb hbusy herr
    exact engineStep_clears (by rw [hu]; exact hw) ht
  · exact h.hostAct a hne

/-- A host action of a busy core is a reset or leaves the record as it is. -/
theorem RecordOk.busyHostTurn {s : State} (h : RecordOk s) (hb : s.status.busy = true) (a : HostAction)
    (rest : List HostAction) : RecordOk (busyHostTurn a rest s) := by
  have hturn : RecordOk (Machine.hostAct a { s with inbox := rest }) := by
    rcases hostAct_record a { s with inbox := rest } with hr | ⟨hidle, -⟩ | hr
    · exact h.congr ⟨hr.status, hr.errcode, hr.errinfo, hr.stage⟩
    · exact absurd (hb.symm.trans hidle) (by decide)
    · exact hr ▸ recordOk_hardwareReset _
  exact hturn.congr ⟨rfl, rfl, rfl, rfl⟩

theorem RecordOk.step {s t : State} (h : RecordOk s) (ht : step s = .next t) : RecordOk t := by
  rcases step_next_cases ht with
    ⟨-, -, rfl⟩ | ⟨hb, a, rest, -, ht⟩ | ⟨hb, -, ht⟩ | ⟨hb, a, rest, -, -, ⟨-, ht⟩ | ⟨-, rfl⟩⟩
  · exact h
  · exact (h.congr (t := { s with inbox := rest }) ⟨rfl, rfl, rfl, rfl⟩).settle hb ht
  · exact (h.running hb).engineStep ht
  · exact ((h.running hb).congr (t := { s with turn := s.turn + 1 }) ⟨rfl, rfl, rfl, rfl⟩).engineStep ht
  · exact h.busyHostTurn hb a rest

/-- Settles O52: a running command has DONE and ERR at 0 and ends with one of them; an acceptance that leaves BUSY and
ERR at 1 runs the command that clears ERR in the same step. -/
theorem stepKeepsFlagsAndRecord : Obligations.StepKeepsFlagsAndRecord := by
  unfold Obligations.StepKeepsFlagsAndRecord
  intro s t hflags hrecord hstage ht
  obtain ⟨hflags, hrecord, hstage⟩ := RecordOk.step ⟨hflags, hrecord, hstage⟩ ht
  exact ⟨hflags, hrecord, hstage⟩

end Sys2Proof.Machine
end

section
/-! PROOFS. The sequences the commands write: their lengths, and what GEN_CODES makes of a tree; the elements beyond
them stay (10_state.md R49). -/

namespace Sys2Proof.Machine

/-! ### Lengths of what is written -/

@[simp] theorem validBits_length (s : State) : s.validBits.length = s.bitsLen.toNat := by simp [State.validBits]
@[simp] theorem validPayload_length (s : State) : s.validPayload.length = s.payLen.toNat := by
  simp [State.validPayload]
@[simp] theorem validTable_length (s : State) : s.validTable.length = s.tabLen.toNat := by simp [State.validTable]
@[simp] theorem validText_length (s : State) : s.validText.length = s.textLen.toNat := by simp [State.validText]

theorem mergeLoop_length_le (n : Nat) (nodes : List TreeNode) (live : List Nat) :
    (mergeLoop n nodes live).1.length ≤ nodes.length + n := by
  induction n generalizing nodes live with
  | zero => exact Nat.le_refl _
  | succ n ih =>
    simp only [mergeLoop]
    split
    · exact Nat.le_add_right _ _
    · split
      · exact Nat.le_add_right _ _
      · refine Nat.le_trans (ih _ _) ?_
        simp only [List.length_append, List.length_singleton]
        omega

theorem buildTree_length_le (f : List FreqEntry) : (buildTree f).1.length ≤ 2 * f.length := by
  have h := mergeLoop_length_le f.length (f.map leafNode) (List.range f.length)
  rw [List.length_map] at h
  unfold buildTree
  omega

theorem packGrid_valid_length (s : State) :
    (packGrid s.validPayload s.validTable).length = 9 * rowsNeeded s.payLen.toNat s.tabLen.toNat := by
  rw [packGrid_length, validPayload_length, validTable_length]

theorem padBits_valid_length (s : State) :
    (padBits s.validBits).length = s.bitsLen.toNat + 8 + padCount s.bitsLen.toNat := by
  rw [padBits_length, validBits_length]

theorem bytesOf_valid_length {s : State} (h : s.bitsLen.toNat % 8 = 0) :
    (bytesOf s.validBits).length = s.bitsLen.toNat / 8 := by
  rw [bytesOf_length _ (by rwa [validBits_length]), validBits_length]

theorem bitsOf_valid_length (s : State) : (bitsOf s.validPayload).length = 8 * s.payLen.toNat := by
  rw [bitsOf_length, validPayload_length]

theorem splitSlots_length {data : List Byte} {len1 len2 : Nat} (h : data.length = len1 + len2) :
    (splitSlots data len1 len2).1.length = len1 ∧ (splitSlots data len1 len2).2.length = len2 := by
  obtain ⟨htop, hbot, -⟩ := interleaveFrom_deinterleaveFrom _ 0 (max len1 len2) (min len1 len2) data (by omega)
    (Nat.le_refl _)
  unfold splitSlots deinterleave
  dsimp only
  split
  · exact ⟨by rw [htop]; omega, by rw [hbot]; omega⟩
  · exact ⟨by rw [hbot]; omega, by rw [htop]; omega⟩

/-- The two sequences GRID_UNPACK writes have the lengths of the header. -/
theorem splitSlots_header_length (s : State) :
    let data := memRead s.gridAt 9 (headerLen1 s + headerLen2 s)
    (splitSlots data (headerLen1 s) (headerLen2 s)).1.length = headerLen1 s ∧
      (splitSlots data (headerLen1 s) (headerLen2 s)).2.length = headerLen2 s :=
  splitSlots_length (memRead_length _ _ _)

/-! ### What GEN_CODES makes of a tree -/

/-- The leaves of a tree with two leaves or more, with the paths from the root, left to right. -/
theorem State.treeShape.codesOfTree_eq_paths {s : State} {n : Nat} (h : s.treeShape n) (hn : 2 ≤ n) :
    codesOfTree s.treeAt s.nodeN.toNat s.root.toNat =
      some ((pathsFrom s.treeAt (2 * n - 1) (2 * n - 2) []).map fun x =>
        { sym := (s.treeAt x.1).sym, code := x.2 }) := by
  obtain ⟨-, -, hnodeN, hroot, hleaf, -, hinner, -⟩ := h
  have hd : descends s.treeAt (2 * n - 1) := tree_descends (fun h hh => (hleaf h hh).1) fun h hh hn => by
    obtain ⟨hkind, -, hl, hr, hne, -⟩ := hinner h hh hn
    exact ⟨hkind, hl, hr, hne⟩
  have hkind := (hinner (2 * n - 2) (by omega) (by omega)).1
  rw [codesOfTree, hnodeN, hroot, hkind]
  exact walk_eq hd _ _ _ (by omega) (by omega)

/-- A tree with one leaf. -/
theorem State.treeShape.codesOfTree_single {s : State} (h : s.treeShape 1) :
    codesOfTree s.treeAt s.nodeN.toNat s.root.toNat = some [{ sym := (s.treeAt 0).sym, code := [false] }] := by
  obtain ⟨-, -, -, hroot, hleaf, -⟩ := h
  rw [codesOfTree, hroot, (hleaf 0 (by omega)).1]

/-- The code table of a tree of `n` leaves: `n` entries, codes of 1 to `max 1 (n - 1)` bits, of which none
starts another, symbols from the leaves (41_huffman_encoder.md R131, R133). -/
structure CodesOf (node : Nat → TreeNode) (n : Nat) (tab : List CodeEntry) : Prop where
  length : tab.length = n
  prefixFree : prefixFree (tab.map CodeEntry.code)
  codeLength : ∀ e ∈ tab, 1 ≤ e.code.length ∧ e.code.length ≤ max 1 (n - 1)
  symbol : ∀ e ∈ tab, ∃ h < n, e.sym = (node h).sym

theorem State.treeShape.codesOf_paths {s : State} {n : Nat} (h : s.treeShape n) (hn : 2 ≤ n) :
    CodesOf s.treeAt n ((pathsFrom s.treeAt (2 * n - 1) (2 * n - 2) []).map fun x =>
      { sym := (s.treeAt x.1).sym, code := x.2 }) := by
  obtain ⟨-, -, -, -, hleaf, -, hinner, hpar⟩ := h
  have hkinds : ∀ h < n, (s.treeAt h).kind = .leaf := fun h hh => (hleaf h hh).1
  have hint : ∀ h < 2 * n - 1, n ≤ h → (s.treeAt h).kind = .internal ∧ (s.treeAt h).left.toNat < h ∧
      (s.treeAt h).right.toNat < h ∧ (s.treeAt h).left ≠ (s.treeAt h).right := fun h hh hn => by
    obtain ⟨hkind, -, hl, hr, hne, -⟩ := hinner h hh hn
    exact ⟨hkind, hl, hr, hne⟩
  have hd := tree_descends hkinds hint
  have hperm := tree_paths_perm (by omega) hkinds hint hpar
  have hmem : ∀ x ∈ pathsFrom s.treeAt (2 * n - 1) (2 * n - 2) [],
      x.1 < n ∧ follow s.treeAt (2 * n - 2) x.2 = some x.1 := fun x hx => by
    obtain ⟨q, hq, hf, -⟩ := (mem_pathsFrom hd _ _ _ (by omega) (by omega) x.1 x.2).1 hx
    rw [List.nil_append] at hq
    exact ⟨List.mem_range.1 (hperm.mem_iff.1 (List.mem_map_of_mem hx)), hq ▸ hf⟩
  constructor
  case length => simpa using hperm.length_eq
  case prefixFree =>
    rw [List.map_map, Machine.prefixFree, List.pairwise_map]
    exact (pairwise_pathsFrom hd _ _ _ (by omega) (by omega)).imp leftOf_not_prefix
  case codeLength =>
    intro e he
    obtain ⟨x, hx, rfl⟩ := List.mem_map.1 he
    obtain ⟨hl, hf⟩ := hmem x hx
    have hdepth := tree_depth hkinds hint (by omega) hf
    refine ⟨Nat.pos_of_ne_zero fun h0 => ?_, by dsimp only; omega⟩
    -- the empty path leads to the root, which is no leaf
    rw [show x.2 = [] from List.length_eq_zero_iff.1 h0] at hf
    simp only [follow, Option.some.injEq] at hf
    omega
  case symbol =>
    intro e he
    obtain ⟨x, hx, rfl⟩ := List.mem_map.1 he
    exact ⟨x.1, (hmem x hx).1, rfl⟩

/-- GEN_CODES finds a code table in every tree. -/
theorem State.treeShape.codesOfTree_spec {s : State} {n : Nat} (h : s.treeShape n) :
    ∃ tab, codesOfTree s.treeAt s.nodeN.toNat s.root.toNat = some tab ∧ CodesOf s.treeAt n tab := by
  rcases Nat.lt_or_ge n 2 with hn | hn
  · obtain rfl : n = 1 := by have := h.1; omega
    refine ⟨_, h.codesOfTree_single, rfl, List.pairwise_singleton _ _, ?_, ?_⟩
    · simp
    · simp
  · exact ⟨_, h.codesOfTree_eq_paths hn, h.codesOf_paths hn⟩

/-- GEN_CODES runs where TREE is a tree. -/
theorem State.treeOk.treeShape {s : State} (h : s.treeOk) (hn : s.nodeN ≠ 0#32) : ∃ n, s.treeShape n := by
  rcases h with ⟨h0, -⟩ | h
  · exact absurd h0 hn
  · exact h

theorem bodyGenCodes_codesOf {s : State} {tab : List CodeEntry} (htree : s.treeOk) (hn : s.nodeN ≠ 0#32)
    (htab : codesOfTree s.treeAt s.nodeN.toNat s.root.toNat = some tab) :
    ∃ n, s.treeShape n ∧ CodesOf s.treeAt n tab := by
  obtain ⟨n, hshape⟩ := htree.treeShape hn
  obtain ⟨tab', htab', hcodes⟩ := hshape.codesOfTree_spec
  obtain rfl : tab' = tab := Option.some.inj (htab'.symm.trans htab)
  exact ⟨n, hshape, hcodes⟩

/-! ### Elements beyond the new lengths -/

/-- At or above a length register that holds the length of the sequence written, a buffer reads as before. -/
theorem Memory.read_writeSeq_beyond {α : Type} {d : Nat → α} {m : Memory α} {x : List α} {n : Nat} (hx : x.length = n)
    (hn : n < 2 ^ 32) (i : Nat) (hi : (BitVec.ofNat 32 n).toNat ≤ i) :
    Memory.read d (Memory.writeSeq m 0 x) i = Memory.read d m i := by
  rw [toNat_ofNat_of_lt hn] at hi
  exact Memory.read_writeSeq_ge d m x i (hx ▸ hi)

/-- A body that ends well leaves the elements at or above the new lengths as they were (10_state.md R49). -/
theorem IsStage.sameFrom {op : Byte} {body : State → Result} {s t : State} (hop : IsStage op body)
    (hwf : s.params.wf) (hlen : s.lengthsOk) (htree : s.treeOk) (ht : body s = .ok t) (b : BufName) :
    sameFrom b (validLength t b) s t := by
  obtain ⟨⟨-, hsymBytes⟩, ⟨-, hmaxText⟩, ⟨-, -, hmaxSyms⟩, ⟨-, hmaxBits⟩, ⟨-, hmaxPay⟩, ⟨-, hmaxTab⟩, -, hmaxRows⟩ := hwf
  obtain ⟨-, hfreqN, -⟩ := hlen
  cases hop with
  | nop | clrStatus | softReset => cases ht; cases b <;> exact fun _ _ => rfl
  | analyze =>
    obtain ⟨f, hf, rfl⟩ := bodyAnalyze_ok.1 ht
    obtain ⟨rfl, hcap⟩ := countFrom_inv _ _ _ hf
    rw [← tableOf_length] at hcap
    cases b with
    | freq => exact Memory.read_writeSeq_beyond rfl (by omega)
    | _ => exact fun _ _ => rfl
  | buildTree =>
    obtain ⟨-, rfl⟩ := bodyBuildTree_ok.1 ht
    have hsize := buildTree_length_le s.validFreq
    rw [validFreq_length] at hsize
    cases b with
    | tree => exact Memory.read_writeSeq_beyond rfl (by omega)
    | _ => exact fun _ _ => rfl
  | genCodes =>
    obtain ⟨hn, tab, htab, rfl⟩ := bodyGenCodes_ok.1 ht
    obtain ⟨n, hshape, hcodes⟩ := bodyGenCodes_codesOf htree hn htab
    have hcap := hshape.2.1
    have hlength := hcodes.length
    cases b with
    | codetab => exact Memory.read_writeSeq_beyond rfl (by omega)
    | _ => exact fun _ _ => rfl
  | encBits =>
    obtain ⟨-, hcap, rfl⟩ := bodyEncBits_ok.1 ht
    cases b with
    | bits => exact Memory.read_writeSeq_beyond rfl (by omega)
    | _ => exact fun _ _ => rfl
  | pad =>
    obtain ⟨hcap, rfl⟩ := bodyPad_ok.1 ht
    cases b with
    | bits => exact Memory.read_writeSeq_beyond (padBits_valid_length s) (by omega)
    | _ => exact fun _ _ => rfl
  | toBytes =>
    obtain ⟨hmod, hcap, rfl⟩ := bodyToBytes_ok.1 ht
    cases b with
    | payload => exact Memory.read_writeSeq_beyond (bytesOf_valid_length hmod) (by omega)
    | _ => exact fun _ _ => rfl
  | serTable =>
    obtain ⟨hcap, rfl⟩ := bodySerTable_ok.1 ht
    cases b with
    | table => exact Memory.read_writeSeq_beyond rfl (by omega)
    | _ => exact fun _ _ => rfl
  | gridPack =>
    obtain ⟨-, -, hcap, rfl⟩ := bodyGridPack_ok.1 ht
    cases b with
    | grid =>
      intro i hi
      have hrows : (BitVec.ofNat 32 (rowsNeeded s.payLen.toNat s.tabLen.toNat)).toNat =
          rowsNeeded s.payLen.toNat s.tabLen.toNat := toNat_ofNat_of_lt (by omega)
      exact Memory.read_writeSeq_ge _ _ _ _ (by rw [packGrid_valid_length, ← hrows]; exact hi)
    | _ => exact fun _ _ => rfl
  | gridUnpack =>
    obtain ⟨-, -, -, -, hcap1, hcap2, rfl⟩ := bodyGridUnpack_ok.1 ht
    obtain ⟨hlen1, hlen2⟩ := splitSlots_header_length s
    cases b with
    | payload => exact Memory.read_writeSeq_beyond hlen1 (by omega)
    | table => exact Memory.read_writeSeq_beyond hlen2 (by omega)
    | _ => exact fun _ _ => rfl
  | deserTable =>
    obtain ⟨tab, htab, rfl⟩ := bodyDeserTable_ok.1 ht
    obtain ⟨-, ⟨-, -, hcap⟩, -⟩ := deserialize_ok hsymBytes htab
    cases b with
    | codetab => exact Memory.read_writeSeq_beyond rfl (by omega)
    | _ => exact fun _ _ => rfl
  | toBits =>
    obtain ⟨hcap, rfl⟩ := bodyToBits_ok.1 ht
    cases b with
    | bits => exact Memory.read_writeSeq_beyond (bitsOf_valid_length s) (by omega)
    | _ => exact fun _ _ => rfl
  | unpad =>
    obtain ⟨-, -, rfl⟩ := bodyUnpad_ok.1 ht
    have hlt := s.bitsLen.isLt
    cases b with
    | bits => exact Memory.read_writeSeq_beyond (memRead_length _ _ _) (by omega)
    | _ => exact fun _ _ => rfl
  | decBits =>
    obtain ⟨hcap, rfl⟩ := bodyDecBits_ok.1 ht
    cases b with
    | text => exact Memory.read_writeSeq_beyond rfl (by omega)
    | _ => exact fun _ _ => rfl

/-- Settles O48: each command writes from index 0 a sequence as long as its new length. -/
theorem nonValidElementsKept : Obligations.NonValidElementsKept := by
  unfold Obligations.NonValidElementsKept
  intro i s t hi hwf hlen htree ht b
  obtain ⟨op, body, hop, he⟩ := exec_stage hi
  rw [he] at ht
  rcases runStage_finish.1 ht with ⟨u, hu, rfl⟩ | ⟨c, n, -, rfl⟩
  · have h := hop.sameFrom (s := startStage op s) hwf hlen htree hu b
    cases b <;> exact h
  · cases b <;> exact fun _ _ => rfl

end Sys2Proof.Machine
end

section
/-! PROOFS. The invariant of the core (10_state.md R28, R42 to R44, 43_huffman_decoder.md R166): its data part buffer by
buffer, kept by every body and every host action. -/

namespace Sys2Proof.Machine

/-! ### One buffer within its capacity -/

/-- A buffer of the invariant: canonical, nothing at or beyond the capacity, a length that fits, elements in order. -/
structure BufferOk {α : Type} (m : Memory α) (cap len : Nat) (ok : α → Prop) : Prop where
  wf : Memory.wf m
  below : Memory.below m cap
  fits : len ≤ cap
  elems : ∀ c ∈ m, ok c.2

section
variable {α : Type} {m : Memory α} {cap len : Nat} {ok : α → Prop}

theorem BufferOk.nil : BufferOk ([] : Memory α) cap 0 ok := ⟨.nil, by simp, Nat.zero_le _, by simp⟩

theorem BufferOk.resize (h : BufferOk m cap len ok) {n : Nat} (hn : n ≤ cap) : BufferOk m cap n ok :=
  { h with fits := hn }

/-- The length register holds at most the number it is given. -/
theorem toNat_ofNat_le {n c : Nat} (h : n ≤ c) : (BitVec.ofNat 32 n).toNat ≤ c := by
  rw [BitVec.toNat_ofNat]
  exact Nat.le_trans (Nat.mod_le _ _) h

theorem BufferOk.writeSeq (h : BufferOk m cap len ok) {x : List α} {n : Nat} (hx : x.length ≤ cap) (hn : n ≤ cap)
    (hok : ∀ a ∈ x, ok a) : BufferOk (Memory.writeSeq m 0 x) cap n ok where
  wf := Memory.wf_writeSeq m 0 x h.wf
  below c hc := by
    rcases Memory.mem_writeSeq m 0 x c hc with hc | ⟨-, hlt, -⟩
    · exact h.below c hc
    · omega
  fits := hn
  elems c hc := by
    rcases Memory.mem_writeSeq m 0 x c hc with hc | ⟨-, -, hmem⟩
    · exact h.elems c hc
    · exact hok _ hmem

theorem Memory.mem_set {i : Nat} {v : α} {c : Nat × α} (hc : c ∈ Memory.set m i v) : c = (i, v) ∨ c ∈ m := by
  induction m with
  | nil => exact .inl (List.mem_singleton.1 hc)
  | cons e m ih =>
    obtain ⟨j, w⟩ := e
    simp only [Memory.set] at hc
    split at hc
    · exact List.mem_cons.1 hc
    · split at hc
      · exact (List.mem_cons.1 hc).imp_right (List.mem_cons_of_mem _)
      · rcases List.mem_cons.1 hc with rfl | hc
        · exact .inr List.mem_cons_self
        · exact (ih hc).imp_right (List.mem_cons_of_mem _)

theorem BufferOk.set (h : BufferOk m cap len ok) {i : Nat} {v : α} (hi : i < cap) (hv : ok v) :
    BufferOk (Memory.set m i v) cap len ok where
  wf := Memory.wf_set m i v h.wf
  below c hc := by
    rcases Memory.mem_set hc with rfl | hc
    · exact hi
    · exact h.below c hc
  fits := h.fits
  elems c hc := by
    rcases Memory.mem_set hc with rfl | hc
    · exact hv
    · exact h.elems c hc

/-- A read yields an element in order when what unlisted indices read as is in order too. -/
theorem BufferOk.read (h : BufferOk m cap len ok) {d : Nat → α} (hd : ∀ j, ok (d j)) (i : Nat) :
    ok (Memory.read d m i) := by
  have hget : ∀ a, Memory.get? m i = some a → ok a := by
    have helems := h.elems
    clear h
    induction m with
    | nil => simp
    | cons c m ih =>
      intro a ha
      rw [Memory.get?_cons] at ha
      split at ha
      · cases ha; exact helems c List.mem_cons_self
      · exact ih (fun c hc => helems c (List.mem_cons_of_mem _ hc)) a ha
  unfold Memory.read
  cases hm : Memory.get? m i with
  | none => exact hd i
  | some a => exact hget a hm

end

/-! ### The data part of the invariant -/

/-- The word is a symbol of `SYM_W` bits (10_state.md R40). -/
def SymbolOk (p : Params) (x : Symbol) : Prop := x.toNat < 2 ^ p.symW

theorem symbolOk_zero (p : Params) : SymbolOk p 0#32 := Nat.two_pow_pos _

theorem symbolOk_maskSym (p : Params) (v : Word) : SymbolOk p (maskSym p v) := by
  unfold SymbolOk maskSym
  rw [BitVec.toNat_ofNat]
  exact Nat.lt_of_le_of_lt (Nat.mod_le _ _) (Nat.mod_lt _ (Nat.two_pow_pos _))

/-- The part of the invariant that speaks of the data. -/
structure DataInv (s : State) : Prop where
  params : s.params.wf
  text : BufferOk s.text s.params.maxText s.textLen.toNat (SymbolOk s.params)
  freq : BufferOk s.freq s.params.maxSyms s.freqN.toNat fun e => SymbolOk s.params e.sym
  tree : BufferOk s.tree s.params.maxNodes s.nodeN.toNat fun e => SymbolOk s.params e.sym
  codetab : BufferOk s.codetab s.params.maxSyms s.codeN.toNat fun e => SymbolOk s.params e.sym
  bits : BufferOk s.bits s.params.maxBits s.bitsLen.toNat fun _ => True
  payload : BufferOk s.payload s.params.maxPayload s.payLen.toNat fun _ => True
  table : BufferOk s.table s.params.maxTable s.tabLen.toNat fun _ => True
  grid : BufferOk s.grid (9 * s.params.maxRows) (9 * s.gridRows.toNat) fun _ => True
  freqs : s.freqOk
  treeOk : s.treeOk
  codes : s.codesOk

theorem State.Inv.data {s : State} (h : s.Inv) : DataInv s := by
  obtain ⟨c1, c2, c3, c4, c5, c6, c7, c8⟩ := h.canonical
  obtain ⟨b1, b2, b3, b4, b5, b6, b7, b8⟩ := h.below
  obtain ⟨l1, l2, l3, l4, l5, l6, l7, l8⟩ := h.lengths
  obtain ⟨s1, s2, s3, s4⟩ := h.symbols
  exact ⟨h.params, ⟨c1, b1, l1, s1⟩, ⟨c2, b2, l2, s2⟩, ⟨c3, b3, l3, s3⟩, ⟨c4, b4, l4, s4⟩, ⟨c5, b5, l5, by simp⟩,
    ⟨c6, b6, l6, by simp⟩, ⟨c7, b7, l7, by simp⟩, ⟨c8, b8, Nat.mul_le_mul_left 9 l8, by simp⟩, h.freqs, h.tree,
    h.codes⟩

theorem State.Inv.recordOk {s : State} (h : s.Inv) : RecordOk s := ⟨h.flags, h.errRecord, h.stage⟩

theorem DataInv.inv {s : State} (h : DataInv s) (hr : RecordOk s) : s.Inv where
  params := h.params
  canonical := ⟨h.text.wf, h.freq.wf, h.tree.wf, h.codetab.wf, h.bits.wf, h.payload.wf, h.table.wf, h.grid.wf⟩
  below := ⟨h.text.below, h.freq.below, h.tree.below, h.codetab.below, h.bits.below, h.payload.below, h.table.below,
    h.grid.below⟩
  lengths := ⟨h.text.fits, h.freq.fits, h.tree.fits, h.codetab.fits, h.bits.fits, h.payload.fits, h.table.fits,
    Nat.le_of_mul_le_mul_left h.grid.fits (by decide)⟩
  flags := hr.flags
  errRecord := hr.record
  stage := hr.stage
  symbols := ⟨h.text.elems, h.freq.elems, h.tree.elems, h.codetab.elems⟩
  freqs := h.freqs
  tree := h.treeOk
  codes := h.codes

section
variable {s : State} (h : DataInv s)
include h

theorem DataInv.textAt (i : Nat) : SymbolOk s.params (s.textAt i) := h.text.read (fun _ => symbolOk_maskSym _ _) i
theorem DataInv.freqAt (i : Nat) : SymbolOk s.params (s.freqAt i).sym :=
  h.freq.read (d := fun j => { Config.unwrittenFreq s.epoch j with
    sym := maskSym s.params (Config.unwrittenFreq s.epoch j).sym }) (fun _ => symbolOk_maskSym _ _) i
theorem DataInv.treeAt (i : Nat) : SymbolOk s.params (s.treeAt i).sym :=
  h.tree.read (d := fun j => { Config.unwrittenTree s.epoch j with
    sym := maskSym s.params (Config.unwrittenTree s.epoch j).sym }) (fun _ => symbolOk_maskSym _ _) i
theorem DataInv.codeAt (i : Nat) : SymbolOk s.params (s.codeAt i).sym :=
  h.codetab.read (d := fun j => { Config.unwrittenCode s.epoch j with
    sym := maskSym s.params (Config.unwrittenCode s.epoch j).sym }) (fun _ => symbolOk_maskSym _ _) i

theorem DataInv.validText_symbolOk : ∀ x ∈ s.validText, SymbolOk s.params x := fun x hx => by
  obtain ⟨j, -, -, rfl⟩ := (mem_memRead _ _ _ x).1 hx
  exact h.textAt j

theorem DataInv.validFreq_symbolOk : ∀ e ∈ s.validFreq, SymbolOk s.params e.sym := fun e he => by
  obtain ⟨j, -, -, rfl⟩ := (mem_memRead _ _ _ e).1 he
  exact h.freqAt j

theorem DataInv.validCodes_symbolOk : ∀ e ∈ s.validCodes, SymbolOk s.params e.sym := fun e he => by
  obtain ⟨j, -, -, rfl⟩ := (mem_memRead _ _ _ e).1 he
  exact h.codeAt j

end

/-- The data after reset: every buffer empty, every length 0, no tree, under any legal parameters. -/
theorem dataInv_reset {p : Params} (hp : p.wf) (epoch : Nat) :
    DataInv { State.reset with params := p, epoch := epoch } where
  params := hp
  text := .nil
  freq := .nil
  tree := .nil
  codetab := .nil
  bits := .nil
  payload := .nil
  table := .nil
  grid := .nil
  freqs := ⟨List.nodup_nil, nofun, Nat.zero_le _⟩
  treeOk := .inl ⟨rfl, rfl⟩
  codes := ⟨nofun, List.nodup_nil⟩

theorem recordOk_reset : RecordOk State.reset := ⟨by decide, by decide, by decide⟩

/-- Settles O50. -/
theorem resetMeetsInvariant : Obligations.ResetMeetsInvariant := by
  unfold Obligations.ResetMeetsInvariant
  exact (dataInv_reset (p := Params.reference) (by decide) 0).inv recordOk_reset

/-! ### ANALYZE -/

/-- The table of a text is FREQ as R42 asks. -/
theorem tableOf_ok {xs : List Symbol} {cap : Nat} (hlen : xs.length ≤ cap) (hcap : cap < 2 ^ 32) :
    ((tableOf xs).map FreqEntry.sym).Nodup ∧ (∀ e ∈ tableOf xs, 1 ≤ e.count.toNat) ∧
      ((tableOf xs).map fun e => e.count.toNat).sum ≤ cap := by
  have hcount : ∀ x, (BitVec.ofNat 32 (xs.count x)).toNat = xs.count x := fun x =>
    toNat_ofNat_of_lt (by have := xs.count_le_length (a := x); omega)
  refine ⟨?_, ?_, ?_⟩
  · rw [tableOf, List.map_map]
    exact (List.map_id' xs.eraseDups).symm ▸ nodup_eraseDups xs
  · intro e he
    obtain ⟨x, hx, rfl⟩ := List.mem_map.1 he
    exact (List.count_pos_iff.2 (List.mem_eraseDups.1 hx)).trans_eq (hcount x).symm
  · rw [tableOf, List.map_map]
    calc (xs.eraseDups.map fun x => (BitVec.ofNat 32 (xs.count x)).toNat).sum
        = (xs.eraseDups.map fun x => xs.count x).sum := by simp only [hcount]
      _ = xs.length := sum_count_eraseDups xs
      _ ≤ cap := hlen

/-- The valid part after a sequence is written is the sequence, if the length register can hold its length. -/
theorem memRead_written {α : Type} {d : Nat → α} {m : Memory α} {x : List α} (hx : x.length < 2 ^ 32) :
    memRead (Memory.read d (Memory.writeSeq m 0 x)) 0 (BitVec.ofNat 32 x.length).toNat = x := by
  rw [toNat_ofNat_of_lt hx]
  exact memRead_writeSeq d m x

theorem DataInv.analyze {s t : State} (h : DataInv s) (ht : bodyAnalyze s = .ok t) : DataInv t := by
  obtain ⟨-, ⟨-, hmaxText⟩, ⟨-, -, hmaxSyms⟩, -⟩ := h.params
  obtain ⟨f, hf, rfl⟩ := bodyAnalyze_ok.1 ht
  obtain ⟨rfl, hcap⟩ := countFrom_inv _ _ _ hf
  rw [← tableOf_length] at hcap
  refine { h with freq := h.freq.writeSeq hcap (toNat_ofNat_le hcap) fun e he => ?_, freqs := ?_ }
  · obtain ⟨x, hx, rfl⟩ := List.mem_map.1 he
    exact h.validText_symbolOk x (List.mem_eraseDups.1 hx)
  · have hvalid : State.validFreq { s with
        freq := s.freq.writeSeq 0 (tableOf s.validText)
        freqN := BitVec.ofNat 32 (tableOf s.validText).length } = tableOf s.validText :=
      memRead_written (by omega)
    unfold State.freqOk
    rw [hvalid]
    exact tableOf_ok (cap := s.params.maxText) (by rw [validText_length]; exact h.text.fits) (by omega)

/-! ### BUILD_TREE -/

/-- Every node of the arena is a leaf of FREQ or has symbol 0. -/
theorem mem_mergeLoop {n : Nat} {nodes : List TreeNode} {live : List Nat} {x : TreeNode}
    (hx : x ∈ (mergeLoop n nodes live).1) : x ∈ nodes ∨ x.sym = 0#32 := by
  induction n generalizing nodes live with
  | zero => exact .inl hx
  | succ n ih =>
    simp only [mergeLoop] at hx
    split at hx
    · exact .inl hx
    · split at hx
      · exact .inl hx
      · rcases ih hx with hx | hx
        · rcases List.mem_append.1 hx with hx | hx
          · exact .inl hx
          · exact .inr (List.mem_singleton.1 hx ▸ rfl)
        · exact .inr hx

theorem DataInv.buildTree {s t : State} (h : DataInv s) (ht : bodyBuildTree s = .ok t) : DataInv t := by
  obtain ⟨hshape, -⟩ := bodyBuildTree_treeShape h.params h.freq.fits h.freqs ht
  obtain ⟨hn, rfl⟩ := bodyBuildTree_ok.1 ht
  obtain ⟨-, -, hsize, -⟩ := buildTree_validFreq h.params h.freq.fits h.freqs hn
  have hcap : (Machine.buildTree s.validFreq).1.length ≤ s.params.maxNodes := by
    have := h.freq.fits
    unfold Params.maxNodes
    omega
  refine { h with tree := h.tree.writeSeq hcap (toNat_ofNat_le hcap) fun x hx => ?_, treeOk := .inr ⟨_, hshape⟩ }
  rcases mem_mergeLoop hx with hx | hx
  · obtain ⟨e, he, rfl⟩ := List.mem_map.1 hx
    exact h.validFreq_symbolOk e he
  · exact hx ▸ symbolOk_zero _

/-! ### The producers of CODETAB -/

/-- A code table that fits, written to CODETAB with its length. -/
theorem DataInv.writeCodes {s : State} (h : DataInv s) {tab : List CodeEntry} (hcap : tab.length ≤ s.params.maxSyms)
    (hsym : ∀ e ∈ tab, SymbolOk s.params e.sym)
    (hlen : ∀ e ∈ tab, 1 ≤ e.code.length ∧ e.code.length ≤ 65535) (hnodup : (tab.map CodeEntry.code).Nodup) :
    DataInv { s with codetab := s.codetab.writeSeq 0 tab, codeN := BitVec.ofNat 32 tab.length } := by
  obtain ⟨-, -, ⟨-, -, hmaxSyms⟩, -⟩ := h.params
  refine { h with codetab := h.codetab.writeSeq hcap (toNat_ofNat_le hcap) hsym, codes := ?_ }
  have hvalid : State.validCodes { s with
      codetab := s.codetab.writeSeq 0 tab, codeN := BitVec.ofNat 32 tab.length } = tab :=
    memRead_written (by omega)
  unfold State.codesOk
  rw [hvalid]
  exact ⟨hlen, hnodup⟩

theorem DataInv.genCodes {s t : State} (h : DataInv s) (ht : bodyGenCodes s = .ok t) : DataInv t := by
  obtain ⟨-, -, ⟨-, -, hmaxSyms⟩, -⟩ := h.params
  obtain ⟨hn, tab, htab, rfl⟩ := bodyGenCodes_ok.1 ht
  obtain ⟨n, hshape, hcodes⟩ := bodyGenCodes_codesOf h.treeOk hn htab
  have hcap : n ≤ s.params.maxSyms := hshape.2.1
  refine h.writeCodes (hcodes.length.le.trans hcap) (fun e he => ?_) (fun e he => ?_) ?_
  · obtain ⟨k, -, hk⟩ := hcodes.symbol e he
    exact hk ▸ h.treeAt k
  · have := hcodes.codeLength e he
    omega
  · exact hcodes.prefixFree.imp fun {c d} hne heq => hne.1 (by rw [heq])

theorem DataInv.deserTable {s t : State} (h : DataInv s) (ht : bodyDeserTable s = .ok t) : DataInv t := by
  obtain ⟨⟨-, hsymBytes⟩, -⟩ := h.params
  obtain ⟨tab, htab, rfl⟩ := bodyDeserTable_ok.1 ht
  obtain ⟨-, ⟨hentry, hnodup, hcap⟩, hlen⟩ := deserialize_ok hsymBytes htab
  exact h.writeCodes hcap (fun e he => (hentry e he).2) (fun e he => ⟨(hentry e he).1, hlen e he⟩) hnodup

/-! ### The other bodies -/

/-- DEC_BITS emits symbols of the code table only. -/
theorem mem_decodeFrom {tab : List CodeEntry} {p b : Bitstring} {x : Symbol} (hx : x ∈ (decodeFrom tab p b).1) :
    ∃ e ∈ tab, e.sym = x := by
  induction b generalizing p with
  | nil => simp [decodeFrom] at hx
  | cons c b ih =>
    simp only [decodeFrom] at hx
    split at hx
    · next y hy =>
      rcases List.mem_cons.1 hx with rfl | hx
      · obtain ⟨e, he, hsym⟩ := Option.map_eq_some_iff.1 hy
        exact ⟨e, List.mem_of_find?_eq_some he, hsym⟩
      · exact ih hx
    · exact ih hx

theorem DataInv.decBits {s t : State} (h : DataInv s) (ht : bodyDecBits s = .ok t) : DataInv t := by
  obtain ⟨hcap, rfl⟩ := bodyDecBits_ok.1 ht
  refine { h with text := h.text.writeSeq hcap (toNat_ofNat_le hcap) fun x hx => ?_ }
  obtain ⟨e, he, rfl⟩ := mem_decodeFrom hx
  exact h.validCodes_symbolOk e he

/-- `BITS` and `BITS_LEN` written. -/
theorem DataInv.writeBits {s : State} (h : DataInv s) {x : Bitstring} {n : Nat} (hx : x.length = n)
    (hcap : n ≤ s.params.maxBits) (p : Byte) :
    DataInv { s with bits := s.bits.writeSeq 0 x, bitsLen := BitVec.ofNat 32 n, padcnt := p } :=
  { h with bits := h.bits.writeSeq (hx.le.trans hcap) (toNat_ofNat_le hcap) fun _ _ => trivial }

theorem DataInv.gridPack {s t : State} (h : DataInv s) (ht : bodyGridPack s = .ok t) : DataInv t := by
  obtain ⟨-, -, hcap, rfl⟩ := bodyGridPack_ok.1 ht
  have hrows := Nat.mul_le_mul_left 9 hcap
  exact { h with
    grid := h.grid.writeSeq ((packGrid_valid_length s).le.trans hrows)
      (Nat.mul_le_mul_left 9 (toNat_ofNat_le hcap)) fun _ _ => trivial }

theorem DataInv.gridUnpack {s t : State} (h : DataInv s) (ht : bodyGridUnpack s = .ok t) : DataInv t := by
  obtain ⟨-, -, -, -, hcap1, hcap2, rfl⟩ := bodyGridUnpack_ok.1 ht
  obtain ⟨hlen1, hlen2⟩ := splitSlots_header_length s
  exact { h with
    payload := h.payload.writeSeq (hlen1.le.trans hcap1) (toNat_ofNat_le hcap1) fun _ _ => trivial
    table := h.table.writeSeq (hlen2.le.trans hcap2) (toNat_ofNat_le hcap2) fun _ _ => trivial }

theorem DataInv.softReset {s : State} (h : DataInv s) : DataInv (resetRegisters s) :=
  { h with
    text := h.text.resize (Nat.zero_le _)
    freq := h.freq.resize (Nat.zero_le _)
    tree := h.tree.resize (Nat.zero_le _)
    codetab := h.codetab.resize (Nat.zero_le _)
    bits := h.bits.resize (Nat.zero_le _)
    payload := h.payload.resize (Nat.zero_le _)
    table := h.table.resize (Nat.zero_le _)
    grid := h.grid.resize (Nat.zero_le _)
    freqs := ⟨List.nodup_nil, nofun, Nat.zero_le _⟩
    treeOk := .inl ⟨rfl, rfl⟩
    codes := ⟨nofun, List.nodup_nil⟩ }

theorem DataInv.body {op : Byte} {body : State → Result} {s t : State} (hop : IsStage op body) (h : DataInv s)
    (ht : body s = .ok t) : DataInv t := by
  cases hop with
  | nop => cases ht; exact h
  | analyze => exact h.analyze ht
  | buildTree => exact h.buildTree ht
  | genCodes => exact h.genCodes ht
  | encBits =>
    obtain ⟨-, hcap, rfl⟩ := bodyEncBits_ok.1 ht
    exact h.writeBits rfl hcap s.padcnt
  | pad =>
    obtain ⟨hcap, rfl⟩ := bodyPad_ok.1 ht
    exact h.writeBits (padBits_valid_length s) hcap _
  | toBytes =>
    obtain ⟨hmod, hcap, rfl⟩ := bodyToBytes_ok.1 ht
    exact { h with
      payload := h.payload.writeSeq ((bytesOf_valid_length hmod).le.trans hcap) (toNat_ofNat_le hcap)
        fun _ _ => trivial }
  | serTable =>
    obtain ⟨hcap, rfl⟩ := bodySerTable_ok.1 ht
    exact { h with table := h.table.writeSeq hcap (toNat_ofNat_le hcap) fun _ _ => trivial }
  | gridPack => exact h.gridPack ht
  | gridUnpack => exact h.gridUnpack ht
  | deserTable => exact h.deserTable ht
  | toBits =>
    obtain ⟨hcap, rfl⟩ := bodyToBits_ok.1 ht
    exact h.writeBits (bitsOf_valid_length s) hcap s.padcnt
  | unpad =>
    obtain ⟨-, -, rfl⟩ := bodyUnpad_ok.1 ht
    have hcap := h.bits.fits
    exact h.writeBits (memRead_length _ _ _) (by omega) _
  | decBits => exact h.decBits ht
  | clrStatus => cases ht; exact { h with params := h.params }
  | softReset => cases ht; exact h.softReset

/-! ### The whole invariant -/

theorem DataInv.setUnit {s : State} {b : BufName} {i : Nat} (v : Word) (h : DataInv s)
    (hi : i < windowSize s.params b) : DataInv (setUnit s b i v) := by
  cases b with
  | freq | tree | codetab => exact h
  | text => exact { h with text := h.text.set hi (symbolOk_maskSym _ _) }
  | bits => exact { h with bits := h.bits.set hi trivial }
  | payload => exact { h with payload := h.payload.set hi trivial }
  | table => exact { h with table := h.table.set hi trivial }
  | grid => exact { h with grid := h.grid.set hi trivial }

theorem dataOnly_dataInv : DataOnly DataInv := fun _ _ h => { h with params := h.params }

theorem dataInv_dataInvariant : DataInvariant DataInv where
  control := dataOnly_dataInv
  body hop h ht := h.body hop ht
  unit v h hi := h.setUnit v hi
  textLen _ h hv := { h with text := h.text.resize hv }
  bitsLen _ h hv := { h with bits := h.bits.resize hv }
  payLen _ h hv := { h with payload := h.payload.resize hv }
  tabLen _ h hv := { h with table := h.table.resize hv }
  gridRows _ h hv := { h with grid := h.grid.resize (Nat.mul_le_mul_left 9 hv) }
  reset {s} h := dataOnly_dataInv _ (hardwareReset s).control (dataInv_reset h.params (s.epoch + 1))

/-- Settles O53: the data part buffer by buffer, and the record of O52. -/
theorem stepKeepsInvariant : Obligations.StepKeepsInvariant := by
  unfold Obligations.StepKeepsInvariant
  intro s t h ht
  exact (dataInv_dataInvariant.step h.data ht).inv (h.recordOk.step ht)

end Sys2Proof.Machine
end

section
/-! PROOFS. Two states that agree on all registers and valid elements run alike (10_state.md R49, R55): a relation kept by
every body, every stage and every chain. -/

namespace Sys2Proof.Machine

/-! ### Agreement at the end of a body and of a chain -/

/-- The two bodies end alike: in states that agree, at the same raise, or at the same stop. -/
inductive ResultsAgree : Result → Result → Prop where
  | ok {s u : State} (h : Agree s u) : ResultsAgree (.ok s) (.ok u)
  | raise (c : Cause) (n : Nat) : ResultsAgree (.raise c n) (.raise c n)
  | stuck (f : Fault) : ResultsAgree (.stuck f) (.stuck f)

/-- The two commands stand alike. -/
inductive ProgressesAgree : Progress → Progress → Prop where
  | running {s u : State} (h : Agree s u) : ProgressesAgree (.running s) (.running u)
  | faulted {s u : State} (h : Agree s u) : ProgressesAgree (.faulted s) (.faulted u)
  | stopped (f : Fault) : ProgressesAgree (.stopped f) (.stopped f)

section
variable {s u : State} (h : Agree s u)
include h

theorem Agree.startStage (op : Byte) : Agree (startStage op s) (startStage op u) := { h with stage := rfl }

theorem Agree.raiseFault (c : Cause) (n : Nat) : Agree (raiseFault c n s) (raiseFault c n u) :=
  { h with errcode := rfl, errinfo := rfl, status := congrArg Status.faulted h.status }

theorem Agree.complete : Agree (complete s) (complete u) :=
  { h with status := congrArg Status.completed h.status }

theorem Agree.clearFault : Agree (clearFault s) (clearFault u) :=
  { h with errcode := rfl, errinfo := rfl, status := congrArg Status.errCleared h.status }

/-- After SOFT_RESET no element is valid. -/
theorem Agree.resetRegisters : Agree (resetRegisters s) (resetRegisters u) where
  params := h.params
  status := congrArg Status.cleared h.status
  errcode := rfl
  errinfo := rfl
  stage := rfl
  textLen := rfl
  freqN := rfl
  nodeN := rfl
  root := rfl
  codeN := rfl
  bitsLen := rfl
  payLen := rfl
  tabLen := rfl
  gridRows := rfl
  padcnt := rfl
  bufSel := rfl
  bufIdx := rfl
  cmdLatch := h.cmdLatch
  text _ hi := absurd hi (Nat.not_lt_zero _)
  freq _ hi := absurd hi (Nat.not_lt_zero _)
  tree _ hi := absurd hi (Nat.not_lt_zero _)
  codetab _ hi := absurd hi (Nat.not_lt_zero _)
  bits _ hi := absurd hi (Nat.not_lt_zero _)
  payload _ hi := absurd hi (Nat.not_lt_zero _)
  table _ hi := absurd hi (Nat.not_lt_zero _)
  grid _ hi := absurd hi (Nat.not_lt_zero _)

end

/-! ### What a body reads -/

section
variable {s u : State} (h : Agree s u)
include h

theorem Agree.maxText : u.params.maxText = s.params.maxText := congrArg Params.maxText h.params
theorem Agree.maxSyms : u.params.maxSyms = s.params.maxSyms := congrArg Params.maxSyms h.params
theorem Agree.maxBits : u.params.maxBits = s.params.maxBits := congrArg Params.maxBits h.params
theorem Agree.maxPayload : u.params.maxPayload = s.params.maxPayload := congrArg Params.maxPayload h.params
theorem Agree.maxTable : u.params.maxTable = s.params.maxTable := congrArg Params.maxTable h.params
theorem Agree.maxRows : u.params.maxRows = s.params.maxRows := congrArg Params.maxRows h.params

theorem Agree.validText : u.validText = s.validText := by
  rw [State.validText, State.validText, h.textLen]
  exact memRead_congr _ _ _ _ fun j _ hj => h.text j (by omega)

theorem Agree.validFreq : u.validFreq = s.validFreq := by
  rw [State.validFreq, State.validFreq, h.freqN]
  exact memRead_congr _ _ _ _ fun j _ hj => h.freq j (by omega)

theorem Agree.validCodes : u.validCodes = s.validCodes := by
  rw [State.validCodes, State.validCodes, h.codeN]
  exact memRead_congr _ _ _ _ fun j _ hj => h.codetab j (by omega)

theorem Agree.validBits : u.validBits = s.validBits := by
  rw [State.validBits, State.validBits, h.bitsLen]
  exact memRead_congr _ _ _ _ fun j _ hj => h.bits j (by omega)

theorem Agree.validPayload : u.validPayload = s.validPayload := by
  rw [State.validPayload, State.validPayload, h.payLen]
  exact memRead_congr _ _ _ _ fun j _ hj => h.payload j (by omega)

theorem Agree.validTable : u.validTable = s.validTable := by
  rw [State.validTable, State.validTable, h.tabLen]
  exact memRead_congr _ _ _ _ fun j _ hj => h.table j (by omega)

theorem Agree.serialize : serialize u.params u.validCodes = serialize s.params s.validCodes := by
  rw [h.params, h.validCodes]

theorem Agree.deserialize : deserialize u.params u.validTable = deserialize s.params s.validTable := by
  rw [h.params, h.validTable]

/-- UNPAD reads no bit beyond BITS_LEN. -/
theorem Agree.memRead_bits {i n : Nat} (hn : i + n ≤ s.bitsLen.toNat) :
    memRead u.bitAt i n = memRead s.bitAt i n :=
  memRead_congr _ _ _ _ fun j _ hj => h.bits j (by omega)

/-- GRID_UNPACK reads no byte beyond the rows. -/
theorem Agree.memRead_grid {i n : Nat} (hn : i + n ≤ 9 * s.gridRows.toNat) :
    memRead u.gridAt i n = memRead s.gridAt i n :=
  memRead_congr _ _ _ _ fun j _ hj => h.grid j (by omega)

end

/-- The walk of GEN_CODES stays below the handle it starts from. -/
theorem walk_congr {node node' : Nat → TreeNode} {N : Nat} (hd : descends node N) (heq : ∀ k < N, node' k = node k)
    (m : Nat) {g : Nat} (p : Bitstring) (hg : g < N) : walk node' m g p = walk node m g p := by
  induction m generalizing g p with
  | zero => rfl
  | succ m ih =>
    simp only [walk, heq g hg]
    cases hk : (node g).kind with
    | leaf => rfl
    | internal =>
      obtain ⟨hl, hr⟩ := hd g hg hk
      simp only [ih _ (hl.trans hg), ih _ (hr.trans hg)]

theorem Agree.codesOfTree {s u : State} (h : Agree s u) {n : Nat} (hshape : s.treeShape n) :
    codesOfTree u.treeAt u.nodeN.toNat u.root.toNat = codesOfTree s.treeAt s.nodeN.toNat s.root.toNat := by
  obtain ⟨hpos, -, hnodeN, hroot, hleaf, -, hinner, -⟩ := hshape
  have hd : descends s.treeAt (2 * n - 1) := tree_descends (fun h hh => (hleaf h hh).1) fun h hh hn => by
    obtain ⟨hkind, -, hl, hr, hne, -⟩ := hinner h hh hn
    exact ⟨hkind, hl, hr, hne⟩
  have heq : ∀ k < 2 * n - 1, u.treeAt k = s.treeAt k := fun k hk => h.tree k (by omega)
  have hlt : s.root.toNat < 2 * n - 1 := by omega
  rw [Machine.codesOfTree, Machine.codesOfTree, h.nodeN, h.root, heq _ hlt, walk_congr hd heq _ _ hlt]

/-! ### What a body writes -/

/-- Two buffers in which one sequence has been written agree below its length. -/
theorem read_writeSeq_agree {α : Type} {d d' : Nat → α} {m m' : Memory α} {x : List α} {n : Nat} (hx : n ≤ x.length)
    (i : Nat) (hi : i < (BitVec.ofNat 32 n).toNat) :
    Memory.read d' (Memory.writeSeq m' 0 x) i = Memory.read d (Memory.writeSeq m 0 x) i := by
  have hlt : i < x.length := hi.trans_le (toNat_ofNat_le hx)
  rw [Memory.read_writeSeq_lt _ _ _ _ hlt, Memory.read_writeSeq_lt _ _ _ _ hlt]

section
variable {s u : State} (h : Agree s u)
include h

theorem Agree.analyze : ResultsAgree (bodyAnalyze s) (bodyAnalyze u) := by
  unfold bodyAnalyze
  rw [h.maxSyms, h.validText]
  split
  · exact .raise _ _
  · exact .ok { h with freqN := rfl, freq := read_writeSeq_agree (Nat.le_refl _) }

theorem Agree.buildTree : ResultsAgree (bodyBuildTree s) (bodyBuildTree u) := by
  unfold bodyBuildTree
  rw [h.freqN, h.validFreq]
  split
  · exact .raise _ _
  · exact .ok { h with freqN := rfl, nodeN := rfl, root := rfl, tree := read_writeSeq_agree (Nat.le_refl _) }

theorem Agree.genCodes (htree : s.treeOk) : ResultsAgree (bodyGenCodes s) (bodyGenCodes u) := by
  unfold bodyGenCodes
  by_cases hn : s.nodeN = 0#32
  · rw [if_pos hn, if_pos (h.nodeN.trans hn)]
    exact .raise _ _
  · obtain ⟨n, hshape⟩ := htree.treeShape hn
    rw [if_neg hn, if_neg (h.nodeN ▸ hn), h.codesOfTree hshape]
    split
    · exact .stuck _
    · exact .ok { h with codeN := rfl, codetab := read_writeSeq_agree (Nat.le_refl _) }

theorem Agree.encBits : ResultsAgree (bodyEncBits s) (bodyEncBits u) := by
  unfold bodyEncBits
  rw [h.maxBits, h.validText, h.validCodes]
  split
  · exact .raise _ _
  · dsimp only
    split
    · exact .raise _ _
    · exact .ok { h with bitsLen := rfl, bits := read_writeSeq_agree (Nat.le_refl _) }

theorem Agree.pad : ResultsAgree (bodyPad s) (bodyPad u) := by
  unfold bodyPad
  rw [h.maxBits, h.validBits, h.bitsLen]
  dsimp only
  split
  · exact .raise _ _
  · exact .ok { h with
      bitsLen := rfl
      padcnt := rfl
      bits := read_writeSeq_agree (padBits_valid_length s).ge }

theorem Agree.toBytes : ResultsAgree (bodyToBytes s) (bodyToBytes u) := by
  unfold bodyToBytes
  rw [h.maxPayload, h.validBits, h.bitsLen]
  dsimp only
  split
  · exact .raise _ _
  · next hmod =>
    split
    · exact .raise _ _
    · exact .ok { h with
        bitsLen := rfl
        payLen := rfl
        payload := read_writeSeq_agree (bytesOf_valid_length (not_not.1 hmod)).ge }

theorem Agree.serTable : ResultsAgree (bodySerTable s) (bodySerTable u) := by
  unfold bodySerTable
  rw [h.maxTable, h.serialize]
  dsimp only
  split
  · exact .raise _ _
  · exact .ok { h with tabLen := rfl, table := read_writeSeq_agree (Nat.le_refl _) }

theorem Agree.gridPack : ResultsAgree (bodyGridPack s) (bodyGridPack u) := by
  unfold bodyGridPack
  rw [h.maxRows, h.validPayload, h.validTable, h.payLen, h.tabLen]
  dsimp only
  split
  · exact .raise _ _
  split
  · exact .raise _ _
  split
  · exact .raise _ _
  · refine .ok { h with payLen := rfl, tabLen := rfl, gridRows := rfl, grid := fun i hi => ?_ }
    have hlt : i < (packGrid s.validPayload s.validTable).length := by
      rw [packGrid_valid_length]
      exact hi.trans_le (Nat.mul_le_mul_left 9 (toNat_ofNat_le (Nat.le_refl _)))
    exact (Memory.read_writeSeq_lt _ _ _ _ hlt).trans (Memory.read_writeSeq_lt _ _ _ _ hlt).symm

theorem Agree.toBits : ResultsAgree (bodyToBits s) (bodyToBits u) := by
  unfold bodyToBits
  rw [h.maxBits, h.validPayload, h.payLen]
  dsimp only
  split
  · exact .raise _ _
  · exact .ok { h with
      payLen := rfl
      bitsLen := rfl
      bits := read_writeSeq_agree (bitsOf_valid_length s).ge }

theorem Agree.deserTable : ResultsAgree (bodyDeserTable s) (bodyDeserTable u) := by
  unfold bodyDeserTable
  rw [h.deserialize]
  split
  · exact .raise _ _
  · exact .ok { h with codeN := rfl, codetab := read_writeSeq_agree (Nat.le_refl _) }

theorem Agree.decBits : ResultsAgree (bodyDecBits s) (bodyDecBits u) := by
  unfold bodyDecBits
  rw [h.maxText, h.validCodes, h.validBits]
  dsimp only
  split
  · exact .raise _ _
  · exact .ok { h with
      textLen := rfl
      status := congrArg (fun f : Status =>
        { f with residue := residueFlag (decodeBits s.validCodes s.validBits).2 }) h.status
      text := read_writeSeq_agree (Nat.le_refl _) }

theorem Agree.unpad : ResultsAgree (bodyUnpad s) (bodyUnpad u) := by
  unfold bodyUnpad
  rw [h.bitsLen]
  dsimp only
  split
  · exact .raise _ _
  · next hlen =>
    rw [h.memRead_bits (i := 0) (n := 8) (by omega)]
    split
    · exact .raise _ _
    · next hp =>
      rw [h.memRead_bits (by omega)]
      exact .ok { h with
        bitsLen := rfl
        padcnt := rfl
        bits := read_writeSeq_agree (memRead_length _ _ _).ge }

/-- With one row at least, the header bytes are valid. -/
theorem Agree.gridUnpack : ResultsAgree (bodyGridUnpack s) (bodyGridUnpack u) := by
  unfold bodyGridUnpack
  rw [h.gridRows]
  dsimp only
  split
  · exact .raise _ _
  next hrows =>
  have hheader : ∀ j < 9, u.gridAt j = s.gridAt j := fun j hj => h.grid j (by omega)
  have hlt : ∀ j ∈ digitPositions, j < 9 := by decide
  have hfind : digitPositions.find? (fun j => decide (u.gridAt j = 255#8)) =
      digitPositions.find? (fun j => decide (s.gridAt j = 255#8)) :=
    List.find?_congr fun j hj => by rw [hheader j (hlt j hj)]
  rw [hheader 4 (by decide), hfind, h.memRead_grid (i := 0) (n := 4) (by omega),
    h.memRead_grid (i := 5) (n := 4) (by omega), h.maxPayload, h.maxTable,
    show undigits255 (memRead s.gridAt 0 4) = headerLen1 s from rfl,
    show undigits255 (memRead s.gridAt 5 4) = headerLen2 s from rfl]
  split
  · exact .raise _ _
  split
  · exact .raise _ _
  split
  · exact .raise _ _
  next hneed =>
  split
  · exact .raise _ _
  split
  · exact .raise _ _
  · have hdata : 9 + (headerLen1 s + headerLen2 s) ≤ 9 * s.gridRows.toNat := by
      unfold rowsNeeded ceilDiv at hneed
      omega
    obtain ⟨hlen1, hlen2⟩ := splitSlots_header_length s
    rw [h.memRead_grid hdata]
    exact .ok { h with
      gridRows := rfl
      payLen := rfl
      tabLen := rfl
      payload := read_writeSeq_agree hlen1.ge
      table := read_writeSeq_agree hlen2.ge }

end

/-- A body that runs on a state whose TREE is a tree or absent runs alike on one that agrees. -/
theorem IsStage.agree {op : Byte} {body : State → Result} (hop : IsStage op body) {s u : State} (htree : s.treeOk)
    (h : Agree s u) : ResultsAgree (body s) (body u) := by
  cases hop with
  | nop => exact .ok h
  | analyze => exact h.analyze
  | buildTree => exact h.buildTree
  | genCodes => exact h.genCodes htree
  | encBits => exact h.encBits
  | pad => exact h.pad
  | toBytes => exact h.toBytes
  | serTable => exact h.serTable
  | gridPack => exact h.gridPack
  | gridUnpack => exact h.gridUnpack
  | deserTable => exact h.deserTable
  | toBits => exact h.toBits
  | unpad => exact h.unpad
  | decBits => exact h.decBits
  | clrStatus => exact .ok h.clearFault
  | softReset => exact .ok h.resetRegisters

/-! ### Stages, chains, commands -/

theorem runStage_agree {op : Byte} {body : State → Result} (hop : IsStage op body) {s u : State} (htree : s.treeOk)
    (h : Agree s u) : ProgressesAgree (runStage op body s) (runStage op body u) := by
  have hbody := hop.agree (s := startStage op s) htree (h.startStage op)
  unfold runStage
  generalize body (startStage op s) = r at hbody ⊢
  generalize body (startStage op u) = r' at hbody ⊢
  cases hbody with
  | ok h' => exact .running h'
  | raise c n => exact .faulted ((h.startStage op).raiseFault c n)
  | stuck f => exact .stopped f

/-- The data part of the invariant gives each later stage of a chain its tree. -/
theorem IsChain.agree {p : State → Progress} (hp : IsChain p) {s u : State} (hs : DataInv s) (h : Agree s u) :
    ProgressesAgree (p s) (p u) := by
  induction hp with
  | stage hop => exact runStage_agree hop hs.treeOk h
  | @andThen p op body hp hop ih =>
    have hdata : ∀ t, p s = .running t → DataInv t := fun t ht => hp.running dataInv_dataInvariant.stages hs ht
    dsimp only
    generalize p s = r at ih hdata ⊢
    generalize p u = r' at ih ⊢
    cases ih with
    | running h' => exact runStage_agree hop (hdata _ rfl).treeOk h'
    | faulted h' => exact .faulted h'
    | stopped f => exact .stopped f

theorem ProgressesAgree.finish {p q : Progress} (h : ProgressesAgree p q) {t : State} (ht : p.finish = .next t) :
    ∃ v, q.finish = .next v ∧ Agree t v := by
  cases h with
  | running h => cases ht; exact ⟨_, rfl, h.complete⟩
  | faulted h => cases ht; exact ⟨_, rfl, h⟩
  | stopped f => cases ht

/-- Settles O49: every body reads valid elements only, and each stage of a composite starts from a state of the
invariant's data part. -/
theorem nonValidElementsNeverRead : Obligations.NonValidElementsNeverRead := by
  unfold Obligations.NonValidElementsNeverRead
  intro i s u t hinv h ht
  obtain ⟨p, hp, he⟩ := exec_chain i
  rw [he] at ht ⊢
  exact (hp.agree hinv.data h).finish ht

end Sys2Proof.Machine
end

section
/-! PROOFS. The host port of a busy core and at offsets without a register (20_memory.md R62 to R64), and the buffer
window (20_memory.md R66 to R71). -/

namespace Sys2Proof.Machine

/-! ### A busy core -/

/-- While `BUSY = 1` no read has an effect, and only STATUS answers a value of the core (R64). -/
theorem hostRead_busy {s : State} (off : Nat) (hb : s.status.busy = true) :
    hostRead off s = (if off = 0x04 then s.status.toWord else Config.busyReadValue s.turn, s) := by
  unfold hostRead
  rw [if_pos hb]
  split <;> rfl

/-- While `BUSY = 1` every write is dropped (R64). -/
theorem hostWrite_busy {s : State} (off : Nat) (v : Word) (hb : s.status.busy = true) : hostWrite off v s = s :=
  if_pos hb

/-- Settles O8. -/
theorem busyPortDropsAndShields : Obligations.BusyPortDropsAndShields := by
  unfold Obligations.BusyPortDropsAndShields
  intro s hb
  exact ⟨fun off v => hostWrite_busy off v hb, hostRead_statusOffset s,
    fun off => congrArg Prod.snd (hostRead_busy off hb)⟩

/-- Settles O4: the first part collects what the parts on read, write and wait say. -/
theorem busyCommandUndisturbed : Obligations.BusyCommandUndisturbed := by
  unfold Obligations.BusyCommandUndisturbed
  intro s rest hb
  have hread : ∀ off, hostAct (.read off) { s with inbox := rest } = { s with
      inbox := rest
      replies := s.replies ++ [if off = 0x04 then s.status.toWord else Config.busyReadValue s.turn] } :=
    fun off => congrArg reply (hostRead_busy (s := { s with inbox := rest }) off hb)
  have hwrite : ∀ off v, hostAct (.write off v) { s with inbox := rest } = { s with inbox := rest } :=
    fun off v => hostWrite_busy off v hb
  have hwait : hostAct .wait { s with inbox := rest } =
      { s with inbox := rest, replies := s.replies ++ [s.status.toWord] } :=
    congrArg reply (hostRead_statusOffset _)
  refine ⟨fun a ha => ?_, hread, hwrite, hwait, rfl⟩
  cases a with
  | read off => exact ⟨_, hread off⟩
  | write off v => exact ⟨[], by simpa using hwrite off v⟩
  | wait => exact ⟨_, hwait⟩
  | reset => exact absurd rfl ha

/-! ### Offsets without a register, registers without a write -/

/-- Every offset of the register map is a multiple of 4 below `0x48` (R62, R63). -/
theorem regAt_eq_none {off : Nat} (h : off % 4 ≠ 0 ∨ 0x48 ≤ off) : regAt off = none := by
  have hmap : ∀ row ∈ registerMap, row.1 % 4 = 0 ∧ row.1 < 0x48 := by decide
  refine Option.map_eq_none_iff.2 (List.find?_eq_none.2 fun row hrow => ?_)
  have := hmap row hrow
  have hne : row.1 ≠ off := by omega
  simpa using hne

theorem hostWrite_unmapped {s : State} {off : Nat} (v : Word) (hr : regAt off = none) : hostWrite off v s = s := by
  simp [hostWrite, hr]

theorem hostRead_unmapped {s : State} {off : Nat} (hb : s.status.busy = false) (hr : regAt off = none) :
    hostRead off s = (0#32, s) := by
  simp [hostRead, hb, hr]

/-- A register that drops its write leaves the state alone, busy or idle. -/
theorem hostWrite_dropped {s : State} {off : Nat} {v : Word} {r : RegName} (hr : regAt off = some r)
    (hw : regWrite r v s = s) : hostWrite off v s = s := by
  cases hb : s.status.busy
  · exact (hostWrite_idle r v hb hr).trans hw
  · exact hostWrite_busy off v hb

/-- Settles O11. -/
theorem unmappedAndReadOnly : Obligations.UnmappedAndReadOnly := by
  unfold Obligations.UnmappedAndReadOnly
  intro s off v
  refine ⟨fun h => ?_, fun hoff => ?_⟩
  · have hr := regAt_eq_none h
    exact ⟨hostWrite_unmapped v hr, fun hb => hostRead_unmapped hb hr⟩
  · simp only [List.mem_cons, List.not_mem_nil, or_false] at hoff
    rcases hoff with rfl | rfl | rfl | rfl | rfl | rfl | rfl | rfl | rfl <;>
      exact hostWrite_dropped rfl rfl

/-! ### Window reads -/

/-- `BUF_IDX` moves by one modulo `2 ^ 32`. -/
theorem bumpIdx_eq (s : State) :
    bumpIdx s = { s with bufIdx := BitVec.ofNat 32 ((s.bufIdx.toNat + 1) % 2 ^ 32) } := by
  have : s.bufIdx + 1#32 = BitVec.ofNat 32 ((s.bufIdx.toNat + 1) % 2 ^ 32) := by
    apply BitVec.eq_of_toNat_eq
    simp
  rw [bumpIdx, this]

/-- R67 for the buffer that BUF_SEL selects. -/
theorem windowData_of_sel {s : State} {sel : BitVec 3} {b : BufName} (hsel : s.bufSel = sel)
    (hb : windowBuf sel = some b) :
    windowData s = if s.bufIdx.toNat < windowSize s.params b then unitAt s b s.bufIdx.toNat else 0#32 := by
  simp only [windowData, hsel, hb]

/-- R67 for the buffer that BUF_SEL selects, beyond its window and inside. -/
theorem windowData_cases {s : State} {sel : BitVec 3} {b : BufName} (hsel : s.bufSel = sel)
    (hb : windowBuf sel = some b) : windowSize s.params b ≤ s.bufIdx.toNat ∧ windowData s = 0#32 ∨
      s.bufIdx.toNat < windowSize s.params b ∧ windowData s = unitAt s b s.bufIdx.toNat := by
  rw [windowData_of_sel hsel hb]
  by_cases hi : s.bufIdx.toNat < windowSize s.params b
  · exact .inr ⟨hi, if_pos hi⟩
  · exact .inl ⟨Nat.le_of_not_lt hi, if_neg hi⟩

/-- The two words of a FREQ entry (R69). -/
theorem freqWord_layout (s : State) (k : Nat) :
    freqWord s (2 * k) = (s.freqAt k).sym ∧ freqWord s (2 * k + 1) = (s.freqAt k).count := by
  have hdiv : (2 * k + 1) / 2 = k := by omega
  simp [freqWord, hdiv]

/-- The four words of a TREE node (R70). -/
theorem treeWord_layout (s : State) (h : Nat) :
    treeWord s (4 * h) = (if (s.treeAt h).kind = .leaf then 0#32 else 1#32) ∧
    treeWord s (4 * h + 1) = (s.treeAt h).freq ∧
    treeWord s (4 * h + 2) = (if (s.treeAt h).kind = .leaf then (s.treeAt h).sym else (s.treeAt h).left) ∧
    treeWord s (4 * h + 3) = (if (s.treeAt h).kind = .leaf then 0#32 else (s.treeAt h).right) := by
  have hdiv : ∀ j < 4, (4 * h + j) / 4 = h := by omega
  have hmod : ∀ j < 4, (4 * h + j) % 4 = j := by omega
  have hdiv0 : 4 * h / 4 = h := hdiv 0 (by decide)
  have hmod0 : 4 * h % 4 = 0 := hmod 0 (by decide)
  cases hk : (s.treeAt h).kind <;> simp [treeWord, hdiv, hmod, hdiv0, hmod0, hk, kindWord]

/-- A byte in a window keeps its value (R71). -/
theorem byteUnit_toNat (c : Prop) [Decidable c] (b : Byte) :
    (if c then b.zeroExtend 32 else 0#32).toNat = if c then b.toNat else 0 := by
  split
  · exact BitVec.toNat_setWidth_of_le (by decide)
  · rfl

/-- Settles O14: for each selector, the unit at BUF_IDX in the buffer's layout. -/
theorem windowReads : Obligations.WindowReads := by
  unfold Obligations.WindowReads
  intro s hb
  have hread : hostRead 0x44 s = (windowData s, bumpIdx s) := hostRead_idle .bufData hb rfl
  rw [bumpIdx_eq] at hread
  refine ⟨windowData s, hread, fun hsel => ?_, fun hsel k => ?_, fun hsel h => ?_, fun hsel => ?_, fun hsel => ?_,
    fun hsel => ?_, fun hsel => ?_, fun hsel => ?_⟩
  · exact windowData_of_sel hsel rfl
  · obtain ⟨hsym, hcount⟩ := freqWord_layout s k
    refine (windowData_cases hsel rfl).imp id fun ⟨hin, hv⟩ => ⟨hin, ?_⟩
    rw [hv]
    exact ⟨fun hi => hi ▸ hsym, fun hi => hi ▸ hcount⟩
  · obtain ⟨hkind, hfreq, hleft, hright⟩ := treeWord_layout s h
    refine (windowData_cases hsel rfl).imp id fun ⟨hin, hv⟩ => ⟨hin, ?_⟩
    rw [hv]
    exact ⟨fun hi => hi ▸ hkind, fun hi => hi ▸ hfreq, fun hi => hi ▸ hleft, fun hi => hi ▸ hright⟩
  · rw [ite_and]
    exact windowData_of_sel hsel rfl
  · rw [windowData_of_sel hsel rfl]
    exact byteUnit_toNat _ _
  · rw [windowData_of_sel hsel rfl]
    exact byteUnit_toNat _ _
  · rw [windowData_of_sel hsel rfl]
    exact byteUnit_toNat _ _
  · rw [windowData, hsel]
    rfl

/-! ### Window writes -/

/-- The contents `m` of buffer `b` after a write of BUF_DATA whose low bits are `x` (R68). -/
def windowStored {α : Type} (s : State) (b : BufName) (x : α) (m : Memory α) : Memory α :=
  if windowBuf s.bufSel = some b ∧ s.bufIdx.toNat < windowSize s.params b then m.set s.bufIdx.toNat x else m

/-- What a write of BUF_DATA does, buffer by buffer (R66, R68, R71). -/
theorem windowStore_eq (v : Word) (s : State) : windowStore v s = { s with
    bufIdx := BitVec.ofNat 32 ((s.bufIdx.toNat + 1) % 2 ^ 32)
    text := windowStored s .text (maskSym s.params v) s.text
    bits := windowStored s .bits (v.getLsbD 0) s.bits
    payload := windowStored s .payload (v.extractLsb' 0 8) s.payload
    table := windowStored s .table (v.extractLsb' 0 8) s.table
    grid := windowStored s .grid (v.extractLsb' 0 8) s.grid } := by
  simp only [windowStore, bumpIdx_eq, windowStored]
  cases hb : windowBuf s.bufSel with
  | none => simp
  | some b =>
    by_cases hi : s.bufIdx.toNat < windowSize s.params b
    · cases b <;> simp [setUnit, hi]
    · cases b <;> simp [hi]

/-- The one unit that a write of BUF_DATA can change, in the buffer of selector `sel`. -/
theorem read_windowStored {α : Type} {b : BufName} {sel : BitVec 3} (hsel : ∀ x, windowBuf x = some b ↔ x = sel)
    (d : Nat → α) (s : State) (x : α) {m : Memory α} (hm : Memory.wf m) (i : Nat) :
    Memory.read d (windowStored s b x m) i =
      if s.bufSel = sel ∧ i = s.bufIdx.toNat ∧ i < windowSize s.params b then x else Memory.read d m i := by
  unfold windowStored
  by_cases hin : windowBuf s.bufSel = some b ∧ s.bufIdx.toNat < windowSize s.params b
  · obtain ⟨hb, hsize⟩ := hin
    rw [if_pos ⟨hb, hsize⟩, Memory.read_set d m _ i x hm]
    by_cases hi : i = s.bufIdx.toNat
    · rw [if_pos hi, if_pos ⟨(hsel _).1 hb, hi, hi ▸ hsize⟩]
    · rw [if_neg hi, if_neg fun h => hi h.2.1]
  · rw [if_neg hin, if_neg]
    rintro ⟨hb, rfl, hsize⟩
    exact hin ⟨(hsel _).2 hb, hsize⟩

theorem maskSym_toNat (p : Params) (v : Word) : (maskSym p v).toNat = v.toNat % 2 ^ p.symW :=
  toNat_ofNat_of_lt (Nat.lt_of_le_of_lt (Nat.mod_le _ _) v.isLt)

theorem lowByte_toNat (v : Word) : (v.extractLsb' 0 8).toNat = v.toNat % 256 := by
  simp

/-- Settles O15. -/
theorem windowWrites : Obligations.WindowWrites := by
  unfold Obligations.WindowWrites
  intro s v hb hcanonical
  obtain ⟨htext, -, -, -, hbits, hpayload, htable, hgrid⟩ := hcanonical
  refine ⟨_, (hostWrite_idle .bufData v hb rfl).trans (windowStore_eq v s), rfl, fun i => ?_, fun i => ?_,
    fun i => ?_, fun i => ?_, fun i => ?_⟩
  · rw [← maskSym_toNat, ← apply_ite BitVec.toNat]
    exact congrArg BitVec.toNat (read_windowStored (by decide) _ s _ htext i)
  · exact read_windowStored (by decide) _ s _ hbits i
  · rw [← lowByte_toNat, ← apply_ite BitVec.toNat]
    exact congrArg BitVec.toNat (read_windowStored (by decide) _ s _ hpayload i)
  · rw [← lowByte_toNat, ← apply_ite BitVec.toNat]
    exact congrArg BitVec.toNat (read_windowStored (by decide) _ s _ htable i)
  · rw [← lowByte_toNat, ← apply_ite BitVec.toNat]
    exact congrArg BitVec.toNat (read_windowStored (by decide) _ s _ hgrid i)

end Sys2Proof.Machine
end

section
/-! PROOFS. The command word: decoder and encoder are inverse (30_encoding.md R90, R91, R94). -/

namespace Sys2Proof

theorem opcodeField_toNat (w : Word) : (opcodeField w).toNat = w.toNat % 256 := by
  simp [opcodeField]

theorem zeroField_toNat (w : Word) : (zeroField w).toNat = w.toNat / 256 := by
  have hlt := w.isLt
  simp only [zeroField, BitVec.extractLsb'_toNat, Nat.shiftRight_eq_div_pow]
  omega

/-- A word is its two fields (R90). -/
theorem eq_zeroExtend_iff (w : Word) (b : Byte) :
    w = b.zeroExtend 32 ↔ zeroField w = 0#24 ∧ opcodeField w = b := by
  have hb := b.isLt
  have hw := w.isLt
  have hext : (b.zeroExtend 32).toNat = b.toNat := by simp; omega
  rw [← BitVec.toNat_inj, ← BitVec.toNat_inj, ← BitVec.toNat_inj, hext, zeroField_toNat, opcodeField_toNat,
    BitVec.toNat_ofNat]
  omega

/-- The opcode map lists each command with its own opcode (R91). -/
theorem decodeOpcode_eq_some_iff (b : Byte) (i : Instr) : decodeOpcode b = some i ↔ b = i.opcode := by
  constructor
  · intro h
    obtain ⟨row, hfind, rfl⟩ := Option.map_eq_some_iff.1 h
    have hrow : ∀ row ∈ opcodeMap, row.1 = row.2.opcode := by decide
    have hb : row.1 = b := by simpa using List.find?_some hfind
    exact hb ▸ hrow row (List.mem_of_find?_eq_some hfind)
  · rintro rfl
    cases i <;> rfl

theorem Instr.opcode_injective : Function.Injective Instr.opcode := by
  intro i j h
  have hi := (decodeOpcode_eq_some_iff _ i).2 rfl
  rw [(decodeOpcode_eq_some_iff _ j).2 h] at hi
  exact (Option.some.inj hi).symm

/-- The legal opcodes are those of the commands (R91, R94). -/
theorem opcodeLegal_iff (b : Byte) : opcodeLegal b ↔ ∃ i : Instr, b = i.opcode := by
  constructor
  · have low : ∀ n < 0x0E, ∃ row ∈ opcodeMap, BitVec.ofNat 8 n = row.2.opcode := by decide
    rintro (h | rfl | rfl | rfl | rfl)
    · obtain ⟨row, -, hrow⟩ := low b.toNat (by omega)
      exact ⟨row.2, by rw [← hrow, BitVec.ofNat_toNat, BitVec.setWidth_eq]⟩
    · exact ⟨.compress, rfl⟩
    · exact ⟨.decompress, rfl⟩
    · exact ⟨.clrStatus, rfl⟩
    · exact ⟨.softReset, rfl⟩
  · rintro ⟨i, rfl⟩
    cases i <;> decide

theorem decode_eq_ok_iff (w : Word) (i : Instr) : decode w = .ok i ↔ w = encode i := by
  rw [encode, eq_zeroExtend_iff, ← decodeOpcode_eq_some_iff]
  unfold decode
  by_cases hz : zeroField w = 0#24
  · cases decodeOpcode (opcodeField w) <;> simp [hz]
  · simp [hz]

/-- The legal words are those of the commands (R94). -/
theorem commandWordWf_iff (w : Word) : commandWordWf w ↔ ∃ i, decode w = .ok i := by
  simp only [decode_eq_ok_iff, encode, eq_zeroExtend_iff, exists_and_left, ← opcodeLegal_iff]
  rfl

/-- Settles O5: a word is its two fields, and the opcode map lists each opcode once. -/
theorem decodeInvertsEncode : Obligations.DecodeInvertsEncode := by
  unfold Obligations.DecodeInvertsEncode
  refine ⟨decode_eq_ok_iff, fun w => ?_⟩
  rw [commandWordWf_iff]
  cases decode w with
  | ok i => simp
  | error e => cases e <;> simp

/-- Settles O6. -/
theorem tableWordsDecode : Obligations.TableWordsDecode := by
  unfold Obligations.TableWordsDecode
  simp only [decode_eq_ok_iff]
  decide

end Sys2Proof
end

section
/-! PROOFS. The acceptance of a command word (30_encoding.md R92), and the digits of the header (R104). -/

namespace Sys2Proof.Machine

/-- With `ERR = 1` every word but those of CLR_STATUS and SOFT_RESET is dropped. -/
theorem accept_dropped {w : Word} {s : State} (herr : s.status.err = true) (hclr : w ≠ 0x1E#32)
    (hrst : w ≠ 0x1F#32) : accept w s = s := by
  simp [accept, herr, hclr, hrst]

theorem accept_latched {w : Word} {s : State} (hb : s.status.busy = false)
    (hw : s.status.err = false ∨ w = 0x1E#32 ∨ w = 0x1F#32) :
    accept w s = { s with cmdLatch := w, status := s.status.accepted } := by
  unfold accept
  rw [if_neg (by simp [hb]), if_neg]
  rintro ⟨herr, hn⟩
  rcases hw with hw | hw
  · simp [hw] at herr
  · exact hn hw

/-- Settles O7. -/
theorem commandAcceptance : Obligations.CommandAcceptance := by
  unfold Obligations.CommandAcceptance
  refine fun s w => ⟨fun hb => hostWrite_busy 0x00 w hb, fun hb herr hclr hrst => ?_, fun hb hw => ?_⟩
  · exact (hostWrite_idle .cmd w hb rfl).trans (accept_dropped herr hclr hrst)
  · exact (hostWrite_idle .cmd w hb rfl).trans (accept_latched hb hw)

theorem digits255_le {n : Nat} {d : Byte} (hd : d ∈ digits255 n) : d.toNat ≤ 254 := by
  have digit : ∀ k : Nat, (BitVec.ofNat 8 (k % 255)).toNat ≤ 254 := fun k => by
    rw [BitVec.toNat_ofNat]; omega
  simp only [digits255, List.mem_cons, List.not_mem_nil, or_false] at hd
  rcases hd with rfl | rfl | rfl | rfl <;> exact digit _

/-- Settles O35: each digit is a remainder by 255; the two lengths of C1 are evaluated. -/
theorem headerDigitsRoundTrip : Obligations.HeaderDigitsRoundTrip := by
  unfold Obligations.HeaderDigitsRoundTrip
  exact ⟨fun n hn => ⟨undigits255_digits255 n hn, rfl, fun _ => digits255_le⟩, by decide, by decide⟩

end Sys2Proof.Machine
end

section
/-! PROOFS. Every command writes only its outputs (30_encoding.md R91, 45_pipeline_and_control.md R201, R207). -/

namespace Sys2Proof.Machine

/-- `t` is `s` but for what the command `i` lists. -/
structure WritesOnly (i : Instr) (s t : State) : Prop where
  registers : ∀ r ∉ outRegisters i, r ∉ [.status, .errcode, .errinfo, .stage, .bufData] → regValue t r = regValue s r
  buffers : ∀ b ∉ outBuffers i, sameFrom b 0 s t
  residue : writesResidue i = false → t.status.residue = s.status.residue
  cmdLatch : t.cmdLatch = s.cmdLatch
  params : t.params = s.params
  inbox : t.inbox = s.inbox
  replies : t.replies = s.replies
  epoch : t.epoch = s.epoch
  turn : t.turn = s.turn

/-- `s` with STATUS, the fault record, STAGE and the outputs of `i` as they are in `u`. -/
def State.withOutputs (s : State) (i : Instr) (u : State) : State :=
  { s with
    status := { u.status with residue := if writesResidue i then u.status.residue else s.status.residue }
    errcode := u.errcode
    errinfo := u.errinfo
    stage := u.stage
    textLen := if .textLen ∈ outRegisters i then u.textLen else s.textLen
    freqN := if .freqN ∈ outRegisters i then u.freqN else s.freqN
    nodeN := if .nodeN ∈ outRegisters i then u.nodeN else s.nodeN
    root := if .root ∈ outRegisters i then u.root else s.root
    codeN := if .codeN ∈ outRegisters i then u.codeN else s.codeN
    bitsLen := if .bitsLen ∈ outRegisters i then u.bitsLen else s.bitsLen
    payLen := if .payLen ∈ outRegisters i then u.payLen else s.payLen
    tabLen := if .tabLen ∈ outRegisters i then u.tabLen else s.tabLen
    gridRows := if .gridRows ∈ outRegisters i then u.gridRows else s.gridRows
    padcnt := if .padcnt ∈ outRegisters i then u.padcnt else s.padcnt
    bufSel := if .bufSel ∈ outRegisters i then u.bufSel else s.bufSel
    bufIdx := if .bufIdx ∈ outRegisters i then u.bufIdx else s.bufIdx
    text := if .text ∈ outBuffers i then u.text else s.text
    freq := if .freq ∈ outBuffers i then u.freq else s.freq
    tree := if .tree ∈ outBuffers i then u.tree else s.tree
    codetab := if .codetab ∈ outBuffers i then u.codetab else s.codetab
    bits := if .bits ∈ outBuffers i then u.bits else s.bits
    payload := if .payload ∈ outBuffers i then u.payload else s.payload
    table := if .table ∈ outBuffers i then u.table else s.table
    grid := if .grid ∈ outBuffers i then u.grid else s.grid }

theorem regValue_withOutputs (s u : State) {i : Instr} {r : RegName} (hr : r ∉ outRegisters i)
    (hc : r ∉ [.status, .errcode, .errinfo, .stage, .bufData]) : regValue (s.withOutputs i u) r = regValue s r := by
  cases r with
  | status | errcode | errinfo | stage | bufData => simp at hc
  | cmd => rfl
  | _ => simp only [regValue, State.withOutputs, if_neg hr]

theorem sameFrom_withOutputs (s u : State) {i : Instr} {b : BufName} (hb : b ∉ outBuffers i) :
    sameFrom b 0 s (s.withOutputs i u) := by
  cases b <;> intro k _
  · simp only [State.textAt, State.withOutputs, if_neg hb]
  · simp only [State.freqAt, State.withOutputs, if_neg hb]
  · simp only [State.treeAt, State.withOutputs, if_neg hb]
  · simp only [State.codeAt, State.withOutputs, if_neg hb]
  · simp only [State.bitAt, State.withOutputs, if_neg hb]
  · simp only [State.payloadAt, State.withOutputs, if_neg hb]
  · simp only [State.tableAt, State.withOutputs, if_neg hb]
  · simp only [State.gridAt, State.withOutputs, if_neg hb]

theorem WritesOnly.of_eq {i : Instr} {s t : State} (h : t = s.withOutputs i t) : WritesOnly i s t where
  registers _ hr hc := by rw [h]; exact regValue_withOutputs s t hr hc
  buffers _ hb := by rw [h]; exact sameFrom_withOutputs s t hb
  residue hres := by rw [h]; simp [State.withOutputs, hres]
  cmdLatch := by rw [h]; rfl
  params := by rw [h]; rfl
  inbox := by rw [h]; rfl
  replies := by rw [h]; rfl
  epoch := by rw [h]; rfl
  turn := by rw [h]; rfl

theorem sameFrom.trans {b : BufName} {n : Nat} {s t u : State} (h : sameFrom b n s t) (k : sameFrom b n t u) :
    sameFrom b n s u := by
  cases b <;> exact fun i hi => (k i hi).trans (h i hi)

theorem WritesOnly.trans {i : Instr} {s t u : State} (h : WritesOnly i s t) (k : WritesOnly i t u) :
    WritesOnly i s u where
  registers r hr hc := (k.registers r hr hc).trans (h.registers r hr hc)
  buffers b hb := (h.buffers b hb).trans (k.buffers b hb)
  residue hres := (k.residue hres).trans (h.residue hres)
  cmdLatch := k.cmdLatch.trans h.cmdLatch
  params := k.params.trans h.params
  inbox := k.inbox.trans h.inbox
  replies := k.replies.trans h.replies
  epoch := k.epoch.trans h.epoch
  turn := k.turn.trans h.turn

/-- What command `j` writes is among what command `i` writes. -/
abbrev OutputsWithin (j i : Instr) : Prop :=
  (∀ r ∈ outRegisters j, r ∈ outRegisters i) ∧ (∀ b ∈ outBuffers j, b ∈ outBuffers i) ∧
    (writesResidue i = false → writesResidue j = false)

theorem WritesOnly.mono {j i : Instr} {s t : State} (h : WritesOnly j s t) (hji : OutputsWithin j i) :
    WritesOnly i s t := by
  obtain ⟨hregs, hbufs, hres⟩ := hji
  exact { h with
    registers := fun r hr hc => h.registers r (fun hj => hr (hregs r hj)) hc
    buffers := fun b hb => h.buffers b fun hj => hb (hbufs b hj)
    residue := fun hi => h.residue (hres hi) }

/-- A change of nothing but STATUS (RESIDUE kept), the fault record and STAGE is within every command's writes. -/
theorem WritesOnly.of_eq_nop (i : Instr) {s t : State} (h : t = s.withOutputs .nop t) : WritesOnly i s t :=
  (WritesOnly.of_eq h).mono ⟨by simp [outRegisters], by simp [outBuffers], fun _ => rfl⟩

/-! ### Stages and chains -/

/-- The body of the stage with opcode `op` writes only the outputs of the command of that opcode. -/
theorem IsStage.body_writesOnly {op : Byte} {body : State → Result} {s t : State} (hop : IsStage op body)
    (ht : body s = .ok t) : ∃ i : Instr, i.opcode = op ∧ WritesOnly i s t := by
  cases hop with
  | nop => cases ht; exact ⟨.nop, rfl, .of_eq rfl⟩
  | analyze => obtain ⟨f, -, rfl⟩ := bodyAnalyze_ok.1 ht; exact ⟨.analyze, rfl, .of_eq rfl⟩
  | buildTree => obtain ⟨-, rfl⟩ := bodyBuildTree_ok.1 ht; exact ⟨.buildTree, rfl, .of_eq rfl⟩
  | genCodes => obtain ⟨-, tab, -, rfl⟩ := bodyGenCodes_ok.1 ht; exact ⟨.genCodes, rfl, .of_eq rfl⟩
  | encBits => obtain ⟨-, -, rfl⟩ := bodyEncBits_ok.1 ht; exact ⟨.encBits, rfl, .of_eq rfl⟩
  | pad => obtain ⟨-, rfl⟩ := bodyPad_ok.1 ht; exact ⟨.pad, rfl, .of_eq rfl⟩
  | toBytes => obtain ⟨-, -, rfl⟩ := bodyToBytes_ok.1 ht; exact ⟨.toBytes, rfl, .of_eq rfl⟩
  | serTable => obtain ⟨-, rfl⟩ := bodySerTable_ok.1 ht; exact ⟨.serTable, rfl, .of_eq rfl⟩
  | gridPack => obtain ⟨-, -, -, rfl⟩ := bodyGridPack_ok.1 ht; exact ⟨.gridPack, rfl, .of_eq rfl⟩
  | gridUnpack => obtain ⟨-, -, -, -, -, -, rfl⟩ := bodyGridUnpack_ok.1 ht; exact ⟨.gridUnpack, rfl, .of_eq rfl⟩
  | deserTable => obtain ⟨tab, -, rfl⟩ := bodyDeserTable_ok.1 ht; exact ⟨.deserTable, rfl, .of_eq rfl⟩
  | toBits => obtain ⟨-, rfl⟩ := bodyToBits_ok.1 ht; exact ⟨.toBits, rfl, .of_eq rfl⟩
  | unpad => obtain ⟨-, -, rfl⟩ := bodyUnpad_ok.1 ht; exact ⟨.unpad, rfl, .of_eq rfl⟩
  | decBits => obtain ⟨-, rfl⟩ := bodyDecBits_ok.1 ht; exact ⟨.decBits, rfl, .of_eq rfl⟩
  | clrStatus => cases ht; exact ⟨.clrStatus, rfl, .of_eq rfl⟩
  | softReset => cases ht; exact ⟨.softReset, rfl, .of_eq rfl⟩

/-- Wherever `p` gets to, running on or faulted, it has written only the outputs of `i`. -/
def ChainWrites (i : Instr) (p : State → Progress) : Prop :=
  ∀ s t, p s = .running t ∨ p s = .faulted t → WritesOnly i s t

/-- The stage of command `j`, alone or as a stage of `i`. -/
theorem ChainWrites.stage {i : Instr} (j : Instr) {body : State → Result} (hop : IsStage j.opcode body)
    (hji : OutputsWithin j i) : ChainWrites i (runStage j.opcode body) := by
  intro s t ht
  have hstart : WritesOnly i s (startStage j.opcode s) := .of_eq_nop i rfl
  refine hstart.trans ?_
  rcases ht with ht | ht
  · obtain ⟨k, hk, hw⟩ := hop.body_writesOnly (runStage_running.1 ht)
    exact (Instr.opcode_injective hk ▸ hw).mono hji
  · obtain ⟨c, n, -, rfl⟩ := runStage_faulted.1 ht
    exact .of_eq_nop i rfl

theorem ChainWrites.andThen {i : Instr} {p : State → Progress} (hp : ChainWrites i p) (j : Instr)
    {body : State → Result} (hop : IsStage j.opcode body) (hji : OutputsWithin j i) :
    ChainWrites i fun s => (p s).andThen (runStage j.opcode body) := by
  intro s t ht
  have onward : ∀ u, p s = .running u → runStage j.opcode body u = .running t ∨ runStage j.opcode body u = .faulted t →
      WritesOnly i s t := fun u hu ht => (hp s u (.inl hu)).trans (ChainWrites.stage j hop hji u t ht)
  rcases ht with ht | ht
  · obtain ⟨u, hu, ht⟩ := andThen_running.1 ht
    exact onward u hu (.inl ht)
  · rcases andThen_faulted.1 ht with ht | ⟨u, hu, ht⟩
    · exact hp s t (.inr ht)
    · exact onward u hu (.inr ht)

theorem compressChain_writes : ChainWrites .compress compressChain :=
  ChainWrites.stage .analyze .analyze (by decide) |>.andThen .buildTree .buildTree (by decide)
    |>.andThen .genCodes .genCodes (by decide) |>.andThen .encBits .encBits (by decide)
    |>.andThen .pad .pad (by decide) |>.andThen .toBytes .toBytes (by decide)
    |>.andThen .serTable .serTable (by decide) |>.andThen .gridPack .gridPack (by decide)

theorem decompressChain_writes : ChainWrites .decompress decompressChain :=
  ChainWrites.stage .gridUnpack .gridUnpack (by decide) |>.andThen .deserTable .deserTable (by decide)
    |>.andThen .toBits .toBits (by decide) |>.andThen .unpad .unpad (by decide)
    |>.andThen .decBits .decBits (by decide)

/-- Every command is the end of a chain that writes only the command's outputs. -/
theorem exec_chainWrites (i : Instr) : ∃ p, ChainWrites i p ∧ exec i = fun s => (p s).finish := by
  cases i with
  | nop => exact ⟨_, .stage .nop .nop (by decide), rfl⟩
  | analyze => exact ⟨_, .stage .analyze .analyze (by decide), rfl⟩
  | buildTree => exact ⟨_, .stage .buildTree .buildTree (by decide), rfl⟩
  | genCodes => exact ⟨_, .stage .genCodes .genCodes (by decide), rfl⟩
  | encBits => exact ⟨_, .stage .encBits .encBits (by decide), rfl⟩
  | pad => exact ⟨_, .stage .pad .pad (by decide), rfl⟩
  | toBytes => exact ⟨_, .stage .toBytes .toBytes (by decide), rfl⟩
  | serTable => exact ⟨_, .stage .serTable .serTable (by decide), rfl⟩
  | gridPack => exact ⟨_, .stage .gridPack .gridPack (by decide), rfl⟩
  | gridUnpack => exact ⟨_, .stage .gridUnpack .gridUnpack (by decide), rfl⟩
  | deserTable => exact ⟨_, .stage .deserTable .deserTable (by decide), rfl⟩
  | toBits => exact ⟨_, .stage .toBits .toBits (by decide), rfl⟩
  | unpad => exact ⟨_, .stage .unpad .unpad (by decide), rfl⟩
  | decBits => exact ⟨_, .stage .decBits .decBits (by decide), rfl⟩
  | clrStatus => exact ⟨_, .stage .clrStatus .clrStatus (by decide), rfl⟩
  | softReset => exact ⟨_, .stage .softReset .softReset (by decide), rfl⟩
  | compress => exact ⟨_, compressChain_writes, rfl⟩
  | decompress => exact ⟨_, decompressChain_writes, rfl⟩

theorem exec_writesOnly {i : Instr} {s t : State} (ht : exec i s = .next t) : WritesOnly i s t := by
  obtain ⟨p, hp, he⟩ := exec_chainWrites i
  rw [he] at ht
  rcases finish_next.1 ht with ⟨u, hu, rfl⟩ | hfault
  · exact (hp s u (.inl hu)).trans (.of_eq_nop i rfl)
  · exact hp s t (.inr hfault)

/-- Settles O47: each body writes only its own outputs, and a chain no more than its stages. -/
theorem commandsWriteOnlyOutputs : Obligations.CommandsWriteOnlyOutputs := by
  unfold Obligations.CommandsWriteOnlyOutputs
  intro i s t ht
  have h := exec_writesOnly ht
  exact ⟨h.registers, h.buffers, h.residue, h.cmdLatch, h.params, h.inbox, h.replies, h.epoch, h.turn⟩

end Sys2Proof.Machine
end

section
/-! PROOFS. What GEN_CODES leaves (41_huffman_encoder.md R130, R131, R133): the code table is the list of the tree's
leaves with their paths, left to right. -/

namespace Sys2Proof.Machine

/-! ### The leaves of a tree with their paths -/

/-- The leaves of a TREE of `n` leaves, as handles with their paths from the root, left to right. -/
def State.leafPaths (s : State) (n : Nat) : List (Nat × Bitstring) := pathsFrom s.treeAt (2 * n - 1) (2 * n - 2) []

namespace State.treeShape

variable {s : State} {n : Nat} (h : s.treeShape n)
include h

theorem one_le : 1 ≤ n := h.1

theorem lt_word (hwf : s.params.wf) : n < 2 ^ 32 := by
  obtain ⟨-, hcap, -⟩ := h
  obtain ⟨-, -, ⟨-, -, hmaxSyms⟩, -⟩ := hwf
  omega

theorem nodeN_ne : s.nodeN ≠ 0#32 := by
  obtain ⟨hpos, -, hnodeN, -⟩ := h
  intro h0
  rw [h0, BitVec.toNat_ofNat] at hnodeN
  omega

theorem root_toNat : s.root.toNat = 2 * n - 2 := by
  obtain ⟨-, -, -, hroot, -⟩ := h
  exact hroot

theorem leaf_kind : ∀ l < n, (s.treeAt l).kind = .leaf := by
  obtain ⟨-, -, -, -, hleaf, -⟩ := h
  exact fun l hl => (hleaf l hl).1

theorem sym_inj : ∀ l < n, ∀ g < n, (s.treeAt l).sym = (s.treeAt g).sym → l = g := by
  obtain ⟨-, -, -, -, -, hsym, -⟩ := h
  exact hsym

theorem inner_children : ∀ g < 2 * n - 1, n ≤ g → (s.treeAt g).kind = .internal ∧ (s.treeAt g).left.toNat < g ∧
    (s.treeAt g).right.toNat < g ∧ (s.treeAt g).left ≠ (s.treeAt g).right := by
  obtain ⟨-, -, -, -, -, -, hinner, -⟩ := h
  intro g hg hn
  obtain ⟨hkind, -, hl, hr, hne, -⟩ := hinner g hg hn
  exact ⟨hkind, hl, hr, hne⟩

theorem one_parent : ∀ l < 2 * n - 2, ∃ g < 2 * n - 1, n ≤ g ∧ hasChild s.treeAt g l ∧
    ∀ k < 2 * n - 1, n ≤ k → hasChild s.treeAt k l → k = g := by
  obtain ⟨-, -, -, -, -, -, -, hparent⟩ := h
  exact hparent

theorem treeAt_descends : descends s.treeAt (2 * n - 1) := tree_descends h.leaf_kind h.inner_children

/-- Each leaf is listed once. -/
theorem leafPaths_perm : ((s.leafPaths n).map Prod.fst).Perm (List.range n) :=
  tree_paths_perm h.one_le h.leaf_kind h.inner_children h.one_parent

theorem leafPaths_length : (s.leafPaths n).length = n := by
  simpa using h.leafPaths_perm.length_eq

/-- A leaf is listed with the path that leads to it. -/
theorem follow_of_mem_leafPaths {x : Nat × Bitstring} (hx : x ∈ s.leafPaths n) :
    x.1 < n ∧ follow s.treeAt s.root.toNat x.2 = some x.1 := by
  have hpos := h.one_le
  obtain ⟨q, hq, hf, -⟩ := (mem_pathsFrom h.treeAt_descends _ _ _ (by omega) (by omega) x.1 x.2).1 hx
  rw [List.nil_append] at hq
  exact ⟨List.mem_range.1 (h.leafPaths_perm.mem_iff.1 (List.mem_map_of_mem hx)), by rw [h.root_toNat, hq, hf]⟩

theorem leafPaths_leftOf : (s.leafPaths n).Pairwise fun x y => leftOf x.2 y.2 := by
  have hpos := h.one_le
  exact pairwise_pathsFrom h.treeAt_descends _ _ _ (by omega) (by omega)

/-- The leaves' symbols are distinct, each leaf being listed once. -/
theorem leafPaths_symbols_nodup : ((s.leafPaths n).map fun x => (s.treeAt x.1).sym).Nodup := by
  have hperm := h.leafPaths_perm.map fun l => (s.treeAt l).sym
  rw [List.map_map] at hperm
  refine hperm.nodup_iff.2 ((List.nodup_map_iff_inj_on List.nodup_range).2 fun l hl g hg => ?_)
  exact h.sym_inj l (List.mem_range.1 hl) g (List.mem_range.1 hg)

/-! ### The code table -/

/-- The code table lists the leaves' symbols in the order of the walk. -/
theorem codesOfTree_eq_leafPaths (hn : 2 ≤ n) : codesOfTree s.treeAt s.nodeN.toNat s.root.toNat =
    some ((s.leafPaths n).map fun x => { sym := (s.treeAt x.1).sym, code := x.2 }) :=
  h.codesOfTree_eq_paths hn

theorem codesOfTree_symbols_nodup {tab : List CodeEntry}
    (htab : codesOfTree s.treeAt s.nodeN.toNat s.root.toNat = some tab) : (tab.map CodeEntry.sym).Nodup := by
  rcases Nat.lt_or_ge n 2 with hn | hn
  · obtain rfl : n = 1 := by have := h.one_le; omega
    obtain rfl := Option.some.inj (h.codesOfTree_single.symm.trans htab)
    exact List.nodup_singleton _
  · obtain rfl := Option.some.inj ((h.codesOfTree_eq_leafPaths hn).symm.trans htab)
    rw [List.map_map]
    exact h.leafPaths_symbols_nodup

end State.treeShape

/-- `s` after GEN_CODES has completed with the code table `tab`. -/
abbrev State.withCodes (s : State) (tab : List CodeEntry) : State :=
  { completed s 0x03#8 with codetab := s.codetab.writeSeq 0 tab, codeN := BitVec.ofNat 32 tab.length }

theorem exec_genCodes {s : State} {tab : List CodeEntry} (hn : s.nodeN ≠ 0#32)
    (htab : codesOfTree s.treeAt s.nodeN.toNat s.root.toNat = some tab) :
    exec .genCodes s = .next (s.withCodes tab) :=
  runStage_finish_ok (op := 0x03#8) (bodyGenCodes_ok.2 ⟨hn, tab, htab, rfl⟩)

theorem withCodes_codeAt (s : State) (tab : List CodeEntry) {k : Nat} (hk : k < tab.length) :
    (s.withCodes tab).codeAt k = tab[k] :=
  Memory.read_writeSeq_lt _ _ _ k hk

theorem withCodes_validCodes (s : State) {tab : List CodeEntry} (hlen : tab.length < 2 ^ 32) :
    (s.withCodes tab).validCodes = tab := by
  rw [State.validCodes, toNat_ofNat_of_lt hlen]
  exact memRead_writeSeq _ _ _

/-- Settles O24: the codes are the paths to the leaves, left to right, and each leaf has one path. -/
theorem genCodesPrefixFree : Obligations.GenCodesPrefixFree := by
  unfold Obligations.GenCodesPrefixFree
  intro s n hwf h
  obtain ⟨tab, htab, hcodes⟩ := h.codesOfTree_spec
  have hvalid := withCodes_validCodes s (tab := tab) (hcodes.length ▸ h.lt_word hwf)
  refine ⟨s.withCodes tab, exec_genCodes h.nodeN_ne htab, rfl, ?_⟩
  rw [hvalid]
  exact ⟨hcodes.length, hcodes.prefixFree, h.codesOfTree_symbols_nodup htab, hcodes.codeLength⟩

/-- The `k`-th entry of the table is the `k`-th leaf of the walk: its symbol, and the path to it. -/
theorem State.treeShape.withCodes_codeAt_leafPaths {s : State} {n : Nat} (h : s.treeShape n) (hn : 2 ≤ n)
    {tab : List CodeEntry} (htab : codesOfTree s.treeAt s.nodeN.toNat s.root.toNat = some tab) {k : Nat}
    (hk : k < (s.leafPaths n).length) : (s.withCodes tab).codeAt k =
      { sym := (s.treeAt (s.leafPaths n)[k].1).sym, code := (s.leafPaths n)[k].2 } := by
  obtain rfl := Option.some.inj ((h.codesOfTree_eq_leafPaths hn).symm.trans htab)
  rw [withCodes_codeAt s _ (by rwa [List.length_map]), List.getElem_map]

/-- Entries that list the leaves with their paths lead to every leaf and to nothing else, from left to right. -/
theorem State.treeShape.entries_walk {s : State} {n : Nat} (h : s.treeShape n) {entry : Nat → CodeEntry}
    (hentry : ∀ k (hk : k < (s.leafPaths n).length),
      entry k = { sym := (s.treeAt (s.leafPaths n)[k].1).sym, code := (s.leafPaths n)[k].2 }) :
    (∀ k < n, ∃ l < n, follow s.treeAt s.root.toNat (entry k).code = some l ∧ (entry k).sym = (s.treeAt l).sym) ∧
    (∀ l < n, ∃ k < n, follow s.treeAt s.root.toNat (entry k).code = some l) ∧
    (∀ j k, j < k → k < n → leftOf (entry j).code (entry k).code) := by
  have hlen := h.leafPaths_length
  refine ⟨fun k hk => ?leads, fun l hl => ?reached, fun j k hjk hk => ?ordered⟩
  case leads =>
    rw [← hlen] at hk
    obtain ⟨hl, hf⟩ := h.follow_of_mem_leafPaths (List.getElem_mem hk)
    rw [hentry k hk]
    exact ⟨_, hl, hf, rfl⟩
  case reached =>
    obtain ⟨x, hx, rfl⟩ := List.mem_map.1 (h.leafPaths_perm.mem_iff.2 (List.mem_range.2 hl))
    obtain ⟨k, hk, rfl⟩ := List.getElem_of_mem hx
    refine ⟨k, by omega, ?_⟩
    rw [hentry k hk]
    exact (h.follow_of_mem_leafPaths hx).2
  case ordered =>
    rw [hentry j (by omega), hentry k (by omega)]
    exact List.pairwise_iff_getElem.1 h.leafPaths_leftOf j k _ _ hjk

/-- Settles O23: the code table lists the leaves with their paths, in the order of the walk. -/
theorem genCodesWalksTree : Obligations.GenCodesWalksTree := by
  unfold Obligations.GenCodesWalksTree
  refine ⟨rfl, fun s h0 => ?noTree, fun s n hwf h => ?tree⟩
  case noTree =>
    exact runStage_finish_raise (show bodyGenCodes (startStage 0x03#8 s) = .raise .emptyInput 0 from if_pos h0)
  case tree =>
    obtain ⟨tab, htab, hcodes⟩ := h.codesOfTree_spec
    have hexec := exec_genCodes h.nodeN_ne htab
    rw [State.withCodes, hcodes.length] at hexec
    refine ⟨_, hexec, fun k hk => Memory.read_writeSeq_ge _ _ _ k (hcodes.length ▸ hk), ?single, fun hn => ?entries⟩
    case single =>
      rintro rfl
      obtain rfl := Option.some.inj (h.codesOfTree_single.symm.trans htab)
      rw [h.root_toNat]
      exact withCodes_codeAt s _ Nat.one_pos
    case entries => exact h.entries_walk fun k hk => h.withCodes_codeAt_leafPaths hn htab hk

end Sys2Proof.Machine
end

section
/-! PROOFS. What ANALYZE leaves: the frequency table of the text (41_huffman_encoder.md R121). -/

namespace Sys2Proof.Machine

/-- `s` after ANALYZE has completed with the frequency table `f`. -/
abbrev State.withFreqs (s : State) (f : List FreqEntry) : State :=
  { completed s 0x01#8 with freq := s.freq.writeSeq 0 f, freqN := BitVec.ofNat 32 f.length }

theorem exec_analyze_ok {s : State} (h : s.validText.eraseDups.length ≤ s.params.maxSyms) :
    exec .analyze s = .next (s.withFreqs (tableOf s.validText)) :=
  runStage_finish_ok (op := 0x01#8) (bodyAnalyze_ok.2 ⟨_, countFrom_ok _ 0 [] s.validText h, rfl⟩)

/-- A count of the valid text fits a word. -/
theorem count_validText_lt (s : State) (x : Symbol) : s.validText.count x < 2 ^ 32 :=
  calc s.validText.count x ≤ s.validText.length := List.count_le_length
    _ = s.textLen.toNat := validText_length s
    _ < 2 ^ 32 := s.textLen.isLt

theorem withFreqs_freqAt (s : State) {k : Nat} (hk : k < s.validText.eraseDups.length) :
    (s.withFreqs (tableOf s.validText)).freqAt k =
      { sym := s.validText.eraseDups[k], count := BitVec.ofNat 32 (s.validText.count s.validText.eraseDups[k]) } := by
  refine (Memory.read_writeSeq_lt _ _ _ k (by rwa [tableOf_length])).trans ?_
  simp only [tableOf, List.getElem_map]

/-- `ERRINFO` holds every number below `2 ^ 32` as it is. -/
theorem saturate_of_lt {n : Nat} (h : n < 2 ^ 32) : saturate n = BitVec.ofNat 32 n := by
  rw [saturate, Nat.min_eq_left (by omega)]

theorem bodyAnalyze_overflow {s : State} {i : Nat} (hi : i < s.textLen.toNat)
    (hfull : (s.validText.take i).eraseDups.length = s.params.maxSyms) (hnew : s.textAt i ∉ s.validText.take i) :
    bodyAnalyze s = .raise .overflow i := by
  have hlt : i < s.validText.length := by rwa [validText_length]
  have hget : s.validText[i] = s.textAt i := (memRead_getElem s.textAt 0 _ i hlt).trans (by rw [Nat.zero_add])
  have herr : countFrom s.params.maxSyms 0 [] s.validText = .error (0 + i) :=
    countFrom_error s.params.maxSyms 0 [] s.validText i hlt hfull (hget ▸ hnew)
  rw [bodyAnalyze, herr, Nat.zero_add]

/-- Settles O20: the loop keeps the table of the symbols seen so far. -/
theorem analyzeCountsSymbols : Obligations.AnalyzeCountsSymbols := by
  unfold Obligations.AnalyzeCountsSymbols
  refine ⟨rfl, fun s => ⟨fun hfit => ?fits, fun i hi hfull hnew => ?overflow⟩⟩
  case fits =>
    have hexec := exec_analyze_ok hfit
    rw [State.withFreqs, tableOf_length] at hexec
    refine ⟨_, hexec, fun k hk => Memory.read_writeSeq_ge _ _ _ k (by rwa [tableOf_length]), fun k hk => ?_⟩
    have hentry := withFreqs_freqAt s hk
    exact ⟨congrArg FreqEntry.sym hentry, (congrArg (fun e => e.count.toNat) hentry).trans
      (toNat_ofNat_of_lt (count_validText_lt s _))⟩
  case overflow =>
    have hbody := bodyAnalyze_overflow (s := startStage 0x01#8 s) hi hfull hnew
    rw [← saturate_of_lt (hi.trans s.textLen.isLt)]
    exact runStage_finish_raise hbody

end Sys2Proof.Machine
end

section
/-! PROOFS. What BUILD_TREE leaves: the arena of the merging loop (41_huffman_encoder.md R125). -/

namespace Sys2Proof.Machine

/-- `s` after BUILD_TREE has completed with the arena `nodes` and the root `r`. -/
abbrev State.withTree (s : State) (nodes : List TreeNode) (r : Nat) : State :=
  { completed s 0x02#8 with
    tree := s.tree.writeSeq 0 nodes, nodeN := BitVec.ofNat 32 nodes.length, root := BitVec.ofNat 32 r }

theorem exec_buildTree {s : State} (hn : s.freqN ≠ 0#32) : exec .buildTree s =
    .next (s.withTree (buildTree s.validFreq).1 ((buildTree s.validFreq).2.headD 0)) :=
  runStage_finish_ok (op := 0x02#8) (bodyBuildTree_ok.2 ⟨hn, rfl⟩)

theorem withTree_treeAt (s : State) (nodes : List TreeNode) (r : Nat) {h : Nat} (hh : h < nodes.length) :
    (s.withTree nodes r).treeAt h = nodeOf nodes h :=
  (Memory.read_writeSeq_lt _ _ _ h hh).trans (by simp [nodeOf, hh])

theorem validFreq_getElem (s : State) {h : Nat} (hh : h < s.validFreq.length) : s.validFreq[h] = s.freqAt h :=
  (memRead_getElem s.freqAt 0 _ h hh).trans (by rw [Nat.zero_add])

/-- The merging loop on a FREQ whose counts sum to a word (41_huffman_encoder.md R122). -/
theorem buildTree_of_sum_lt {s : State} (hwf : s.params.wf) (hpos : 1 ≤ s.freqN.toNat)
    (hcap : s.freqN.toNat ≤ s.params.maxSyms) (hsum : (s.validFreq.map fun e => e.count.toNat).sum < 2 ^ 32) :
    Built s.validFreq (buildTree s.validFreq).1 (buildTree s.validFreq).2 ∧
      (buildTree s.validFreq).1.length = 2 * s.freqN.toNat - 1 ∧
      (buildTree s.validFreq).2 = [2 * s.freqN.toNat - 2] := by
  obtain ⟨-, -, ⟨-, -, hmaxSyms⟩, -⟩ := hwf
  have hlen := validFreq_length s
  rw [← hlen]
  exact buildTree_spec s.validFreq (List.length_pos_iff.1 (by omega)) (by omega) hsum

/-- What `Built.inner` says of an arena, said of a buffer that holds it. -/
theorem Built.inner_of_agree {f : List FreqEntry} {nodes : List TreeNode} {live : List Nat}
    (B : Built f nodes live) {node : Nat → TreeNode} (hnode : ∀ h < nodes.length, node h = nodeOf nodes h) {g : Nat}
    (hg : g < nodes.length) (hn : f.length ≤ g) : ∃ a b,
      node g = ⟨.internal, BitVec.ofNat 32 ((node a).freq.toNat + (node b).freq.toNat), 0#32, BitVec.ofNat 32 a,
        BitVec.ofNat 32 b⟩ ∧
      liveWhen node f.length g a ∧ liveWhen node f.length g b ∧ a ≠ b ∧
      (node g).freq.toNat = (node a).freq.toNat + (node b).freq.toNat ∧
      (∀ h, liveWhen node f.length g h → h ≠ a → lighter node a h) ∧
      (∀ h, liveWhen node f.length g h → h ≠ a → h ≠ b → lighter node b h) := by
  have hlive : ∀ h, liveWhen node f.length g h ↔ liveWhen (nodeOf nodes) f.length g h := fun h =>
    liveWhen_congr fun k hk => hnode k (hk.trans hg)
  have hlighter : ∀ x < g, ∀ h < g, lighter node x h ↔ lighter (nodeOf nodes) x h := fun x hx h hh =>
    lighter_congr (hnode x (hx.trans hg)) (hnode h (hh.trans hg))
  obtain ⟨a, b, heq, ha, hb, hab, hfreq, hleast, hnext⟩ := B.inner g hg hn
  refine ⟨a, b, ?_, (hlive a).2 ha, (hlive b).2 hb, hab, ?_, fun h hl hne => ?_, fun h hl hne hne' => ?_⟩
  · rw [hnode g hg, heq, hnode a (ha.1.trans hg), hnode b (hb.1.trans hg)]; rfl
  · rw [hnode g hg, hnode a (ha.1.trans hg), hnode b (hb.1.trans hg), hfreq]
  · exact (hlighter a ha.1 h hl.1).2 (hleast h ((hlive h).1 hl) hne)
  · exact (hlighter b hb.1 h hl.1).2 (hnext h ((hlive h).1 hl) hne hne')

/-- Settles O21: TREE holds the arena of the merging loop. -/
theorem buildTreeMergesLightest : Obligations.BuildTreeMergesLightest := by
  unfold Obligations.BuildTreeMergesLightest
  refine ⟨rfl, fun s h0 => ?noEntries, fun s n hwf hn hpos hcap hsum => ?tree⟩
  case noEntries =>
    exact runStage_finish_raise (show bodyBuildTree (startStage 0x02#8 s) = .raise .emptyInput 0 from if_pos h0)
  case tree =>
    subst hn
    obtain ⟨B, hsize, hroot⟩ := buildTree_of_sum_lt hwf hpos hcap hsum
    have hexec := exec_buildTree (s := s) (by rintro h0; simp [h0] at hpos)
    have hlen := validFreq_length s
    have hnode := fun h hh => withTree_treeAt s (buildTree s.validFreq).1 (2 * s.freqN.toNat - 2) (h := h) hh
    rw [State.withTree, hsize, hroot, List.headD_cons] at hexec
    refine ⟨_, hexec, fun h hh => Memory.read_writeSeq_ge _ _ _ h (hsize ▸ hh), fun h hh => ?leaf, fun g hg hn => ?inner⟩
    case leaf =>
      refine (hnode h (by omega)).trans ?_
      rw [B.leaves h (by omega), validFreq_getElem]
      rfl
    case inner =>
      rw [← hsize] at hg
      rw [← hlen] at hn ⊢
      exact B.inner_of_agree hnode hg hn

end Sys2Proof.Machine
end

section
/-! PROOFS. A fault of a primitive or control command (41_huffman_encoder.md R120, 60_exceptions.md R236). -/

namespace Sys2Proof.Machine

/-- A command that is not composite is one stage, under its own opcode. -/
theorem exec_stage_opcode {i : Instr} (hi : isComposite i = false) :
    ∃ body, IsStage i.opcode body ∧ exec i = fun s => (runStage i.opcode body s).finish := by
  cases i with
  | compress | decompress => cases hi
  | _ => exact ⟨_, by constructor, rfl⟩

/-- A body that ends well sets no ERR. -/
theorem IsStage.err_of_ok {op : Byte} {body : State → Result} {s t : State} (hop : IsStage op body)
    (hs : s.status.err = false) (ht : body s = .ok t) : t.status.err = false := by
  rcases hop.cases_op with hle | ⟨rfl, rfl⟩ | ⟨rfl, rfl⟩
  · rw [(hop.record_kept hle ht).status]; exact hs
  · cases ht; rfl
  · cases ht; rfl

/-- Settles O46: such a command ended in a raise, and a raise carries no state. -/
theorem faultsArePrecise : Obligations.FaultsArePrecise := by
  unfold Obligations.FaultsArePrecise
  intro i s t hi hs ht herr
  obtain ⟨body, hop, he⟩ := exec_stage_opcode hi
  rw [he] at ht
  rcases runStage_finish.1 ht with ⟨u, hu, rfl⟩ | ⟨c, n, -, rfl⟩
  · exact absurd ((hop.err_of_ok (s := startStage i.opcode s) hs hu).symm.trans herr) Bool.false_ne_true
  · exact ⟨c.code, saturate n, rfl⟩

end Sys2Proof.Machine
end

section
/-! PROOFS. The BitPacker (42_bitpacker.md): what PAD, TO_BYTES, TO_BITS and UNPAD leave, that the four in that order
restore the bitstring (R153), and what ENC_BITS makes of the code table (R141). -/

namespace Sys2Proof.Machine

/-! ### A completed write of BITS or PAYLOAD -/

/-- `s` after a command with opcode `op` has completed with the bitstring `b` in BITS. -/
abbrev State.withBits (s : State) (op : Byte) (b : Bitstring) : State :=
  { completed s op with bits := s.bits.writeSeq 0 b, bitsLen := BitVec.ofNat 32 b.length }

/-- `s` after TO_BYTES has completed with the bytes `x` in PAYLOAD. -/
abbrev State.withPayload (s : State) (x : List Byte) : State :=
  { completed s 0x06#8 with payload := s.payload.writeSeq 0 x, payLen := BitVec.ofNat 32 x.length }

theorem withBits_bitAt (s : State) (op : Byte) (b : Bitstring) {i : Nat} (hi : i < b.length) :
    (s.withBits op b).bitAt i = b[i] :=
  Memory.read_writeSeq_lt _ _ _ i hi

theorem withBits_sameFrom (s : State) (op : Byte) {b : Bitstring} {n : Nat} (hn : b.length = n) :
    sameFrom .bits n s (s.withBits op b) :=
  fun i hi => Memory.read_writeSeq_ge _ _ _ i (hn ▸ hi)

theorem withBits_validBits (s : State) (op : Byte) {b : Bitstring} (hlen : b.length < 2 ^ 32) :
    (s.withBits op b).validBits = b :=
  memRead_written hlen

theorem withPayload_payloadAt (s : State) (x : List Byte) {i : Nat} (hi : i < x.length) :
    (s.withPayload x).payloadAt i = x[i] :=
  Memory.read_writeSeq_lt _ _ _ i hi

theorem withPayload_sameFrom (s : State) {x : List Byte} {n : Nat} (hn : x.length = n) :
    sameFrom .payload n s (s.withPayload x) :=
  fun i hi => Memory.read_writeSeq_ge _ _ _ i (hn ▸ hi)

theorem withPayload_validPayload (s : State) {x : List Byte} (hlen : x.length < 2 ^ 32) :
    (s.withPayload x).validPayload = x :=
  memRead_written hlen

/-! ### Elements and parts of what is valid -/

/-- A part of a sequence that was read is the sequence of that part's elements. -/
theorem memRead_eq_take_drop {α : Type} (elem : Nat → α) {i n m : Nat} (h : i + n ≤ m) :
    memRead elem i n = ((memRead elem 0 m).drop i).take n := by
  apply List.ext_getElem
  · simp; omega
  · intro j _ _
    simp

theorem validText_getElem (s : State) {i : Nat} (hi : i < s.validText.length) : s.validText[i] = s.textAt i :=
  (memRead_getElem s.textAt 0 _ i hi).trans (by rw [Nat.zero_add])

theorem validBits_getElem (s : State) {i : Nat} (hi : i < s.validBits.length) : s.validBits[i] = s.bitAt i :=
  (memRead_getElem s.bitAt 0 _ i hi).trans (by rw [Nat.zero_add])

theorem validPayload_getElem (s : State) {i : Nat} (hi : i < s.validPayload.length) :
    s.validPayload[i] = s.payloadAt i :=
  (memRead_getElem s.payloadAt 0 _ i hi).trans (by rw [Nat.zero_add])

theorem memRead_bitAt_eq (s : State) {i n : Nat} (h : i + n ≤ s.bitsLen.toNat) :
    memRead s.bitAt i n = (s.validBits.drop i).take n :=
  memRead_eq_take_drop s.bitAt h

/-! ### The padded bitstring (42_bitpacker.md R144) -/

theorem bin8_ofNat_getElem (p : Nat) {i : Nat} (hi : i < (bin8 (BitVec.ofNat 8 p)).length) :
    (bin8 (BitVec.ofNat 8 p))[i] = p.testBit (7 - i) := by
  rw [bin8_getElem, BitVec.getLsbD_ofNat, decide_eq_true (by omega), Bool.true_and]

theorem padBits_getElem_count (b : Bitstring) {i : Nat} (hi : i < 8) :
    (padBits b)[i]'(by rw [padBits_length]; omega) = (padCount b.length).testBit (7 - i) := by
  simp only [padBits, List.append_assoc]
  rw [List.getElem_append_left (by rwa [bin8_length]), bin8_ofNat_getElem]

theorem padBits_getElem_bits (b : Bitstring) {i : Nat} (hi : i < b.length) :
    (padBits b)[8 + i]'(by rw [padBits_length]; omega) = b[i] := by
  simp only [padBits]
  rw [List.getElem_append_left (by simp; omega), List.getElem_append_right (by simp)]
  simp

theorem padBits_getElem_zeros (b : Bitstring) {i : Nat} (hi : i < padCount b.length) :
    (padBits b)[8 + b.length + i]'(by rw [padBits_length]; omega) = false := by
  simp only [padBits]
  rw [List.getElem_append_right (by simp), List.getElem_replicate]

theorem padBits_take (b : Bitstring) : (padBits b).take 8 = bin8 (BitVec.ofNat 8 (padCount b.length)) := by
  rw [padBits, List.append_assoc, List.take_left' (bin8_length _)]

theorem padBits_drop_take (b : Bitstring) : ((padBits b).drop 8).take b.length = b := by
  rw [padBits, List.append_assoc, List.drop_left' (bin8_length _), List.take_left' rfl]

/-- The count in front of a padded bitstring is the number of zeros behind it. -/
theorem val_padBits_take (b : Bitstring) : val ((padBits b).take 8) = padCount b.length := by
  have hp := padCount_pos b.length
  rw [padBits_take, val_bin8, BitVec.toNat_ofNat, Nat.mod_eq_of_lt (by omega)]

/-! ### How the four commands complete -/

theorem exec_pad {s : State} (hcap : s.bitsLen.toNat + 8 + padCount s.bitsLen.toNat ≤ s.params.maxBits) :
    exec .pad s = .next (State.withBits { s with padcnt := BitVec.ofNat 8 (padCount s.bitsLen.toNat) } 0x05#8
      (padBits s.validBits)) := by
  rw [State.withBits, padBits_valid_length]
  exact runStage_finish_ok (op := 0x05#8) (bodyPad_ok.2 ⟨hcap, rfl⟩)

theorem exec_toBytes {s : State} (hmod : s.bitsLen.toNat % 8 = 0) (hcap : s.bitsLen.toNat / 8 ≤ s.params.maxPayload) :
    exec .toBytes s = .next (s.withPayload (bytesOf s.validBits)) := by
  rw [State.withPayload, bytesOf_valid_length hmod]
  exact runStage_finish_ok (op := 0x06#8) (bodyToBytes_ok.2 ⟨hmod, hcap, rfl⟩)

theorem exec_toBits {s : State} (hcap : 8 * s.payLen.toNat ≤ s.params.maxBits) :
    exec .toBits s = .next (s.withBits 0x0B#8 (bitsOf s.validPayload)) := by
  rw [State.withBits, bitsOf_valid_length]
  exact runStage_finish_ok (op := 0x0B#8) (bodyToBits_ok.2 ⟨hcap, rfl⟩)

theorem exec_unpad {s : State} {p : Nat} (hp : val (memRead s.bitAt 0 8) = p) (hcount : 8 ≤ s.bitsLen.toNat)
    (hrest : p ≤ s.bitsLen.toNat - 8) :
    exec .unpad s = .next (State.withBits { s with padcnt := BitVec.ofNat 8 p } 0x0C#8
      (memRead s.bitAt 8 (s.bitsLen.toNat - 8 - p))) := by
  subst hp
  rw [State.withBits, memRead_length]
  exact runStage_finish_ok (op := 0x0C#8) (bodyUnpad_ok.2 ⟨hcount, hrest, rfl⟩)

/-- UNPAD takes off what PAD put on. -/
theorem exec_unpad_padBits {s : State} {b : Bitstring} (hs : s.validBits = padBits b) : exec .unpad s =
    .next (State.withBits { s with padcnt := BitVec.ofNat 8 (padCount b.length) } 0x0C#8 b) := by
  have hlen : s.bitsLen.toNat = b.length + 8 + padCount b.length := by rw [← validBits_length, hs, padBits_length]
  have hcount : val (memRead s.bitAt 0 8) = padCount b.length := by
    rw [memRead_bitAt_eq s (by omega), hs, List.drop_zero, val_padBits_take]
  have hkept : memRead s.bitAt 8 (s.bitsLen.toNat - 8 - padCount b.length) = b := by
    rw [memRead_bitAt_eq s (by omega), hs, show s.bitsLen.toNat - 8 - padCount b.length = b.length by omega,
      padBits_drop_take]
  have hexec := exec_unpad hcount (by omega) (by omega)
  rwa [hkept] at hexec

/-! ### The round trip (42_bitpacker.md R153) -/

/-- A state in which the next command of a chain has been accepted (30_encoding.md R92). -/
abbrev State.acceptedNext (s : State) : State := { s with status := s.status.accepted }

/-- A command that ended well in a chain hands its state on, accepted again. -/
theorem runChain_cons {i j : Instr} {is : List Instr} {s t : State} (ht : exec i s = .next t)
    (herr : t.status.err = false) : runChain (i :: j :: is) s = runChain (j :: is) t.acceptedNext := by
  simp only [runChain, ht]
  exact if_neg (by simp [herr])

/-- A run ends without a fault, with the bitstring `b` in BITS and the count of its padding in PADCNT. -/
def EndsWithBits (b : Bitstring) (o : Host.Outcome State Fault Refusal) : Prop :=
  ∃ t, o = .next t ∧ t.status.err = false ∧ t.validBits = b ∧ t.padcnt.toNat = padCount b.length

theorem unpad_endsWithBits {s : State} {b : Bitstring} (herr : s.status.err = false) (hs : s.validBits = padBits b) :
    EndsWithBits b (runChain [.unpad] s) := by
  have hlen : s.bitsLen.toNat = b.length + 8 + padCount b.length := by rw [← validBits_length, hs, padBits_length]
  have hlt := s.bitsLen.isLt
  have hp := padCount_pos b.length
  refine ⟨_, exec_unpad_padBits hs, herr, withBits_validBits _ _ (by omega), ?_⟩
  exact (BitVec.toNat_ofNat _ 8).trans (Nat.mod_eq_of_lt (by omega))

theorem toBits_endsWithBits {s : State} {b : Bitstring} (herr : s.status.err = false)
    (hmax : s.params.maxBits < 2 ^ 32) (hcap : (padBits b).length ≤ s.params.maxBits)
    (hs : s.validPayload = bytesOf (padBits b)) : EndsWithBits b (runChain [.toBits, .unpad] s) := by
  have hbits : bitsOf s.validPayload = padBits b := by rw [hs, bitsOf_bytesOf _ (padBits_mod b)]
  have hlen : 8 * s.payLen.toNat = (padBits b).length := by rw [← bitsOf_valid_length, hbits]
  rw [runChain_cons (exec_toBits (by omega)) herr, hbits]
  exact unpad_endsWithBits herr (withBits_validBits s 0x0B#8 (by omega))

theorem toBytes_endsWithBits {s : State} {b : Bitstring} (herr : s.status.err = false)
    (hmax : s.params.maxBits < 2 ^ 32) (hcap : (padBits b).length ≤ s.params.maxBits)
    (hpay : (padBits b).length / 8 ≤ s.params.maxPayload) (hs : s.validBits = padBits b) :
    EndsWithBits b (runChain [.toBytes, .toBits, .unpad] s) := by
  have hmod := padBits_mod b
  have hlen : s.bitsLen.toNat = (padBits b).length := by rw [← validBits_length, hs]
  rw [runChain_cons (exec_toBytes (by omega) (by omega)) herr, hs]
  refine toBits_endsWithBits herr hmax hcap (withPayload_validPayload s ?_)
  rw [bytesOf_length _ hmod]
  omega

/-- PAD fills the last group of 8 bits, TO_BITS takes TO_BYTES back on whole groups, and UNPAD drops what PAD added. -/
theorem pad_endsWithBits {s : State} (herr : s.status.err = false) (hmax : s.params.maxBits < 2 ^ 32)
    (hcap : (padBits s.validBits).length ≤ s.params.maxBits)
    (hpay : (padBits s.validBits).length / 8 ≤ s.params.maxPayload) :
    EndsWithBits s.validBits (runChain [.pad, .toBytes, .toBits, .unpad] s) := by
  rw [runChain_cons (exec_pad (padBits_valid_length s ▸ hcap)) herr]
  exact toBytes_endsWithBits herr hmax hcap hpay (withBits_validBits s 0x05#8 (by omega))

/-- Settles O41: PAD adds at most 16 bits, so the capacities suffice. -/
theorem packingRoundTrip : Obligations.PackingRoundTrip := by
  unfold Obligations.PackingRoundTrip
  intro s hmax herr hbits hpay
  have hp := padCount_pos s.bitsLen.toNat
  have hlen := padBits_valid_length s
  obtain ⟨t, ht, hterr, htbits, htpad⟩ := pad_endsWithBits (s := s) herr hmax (by omega) (by omega)
  refine ⟨t, ht, hterr, BitVec.eq_of_toNat_eq ?_, htbits, ?_⟩
  · rw [← validBits_length, htbits, validBits_length]
  · rw [htpad, validBits_length, padCount]

/-! ### The four commands one by one -/

/-- `ERRINFO` holds a register's value as it is. -/
theorem saturate_toNat (w : Word) : saturate w.toNat = w := by
  rw [saturate_of_lt w.isLt, BitVec.ofNat_toNat, BitVec.setWidth_eq]

/-- Settles O26: BITS holds the padded bitstring. -/
theorem padPrefixesCount : Obligations.PadPrefixesCount := by
  unfold Obligations.PadPrefixesCount
  refine ⟨rfl, fun s hmax => ⟨fun hcap => ?fits, fun hover => ?overflow⟩⟩
  case fits =>
    have hlen := padBits_valid_length s
    have hexec := exec_pad hcap
    have hbit := fun i => withBits_bitAt s 0x05#8 (padBits s.validBits) (i := i)
    rw [State.withBits, hlen] at hexec
    refine ⟨_, hexec, withBits_sameFrom s 0x05#8 hlen, fun i hi => ?count, fun i hi => ?bits, fun i hi => ?zeros⟩
    case count =>
      refine (hbit i (by omega)).trans ((padBits_getElem_count _ hi).trans ?_)
      rw [validBits_length, padCount]
    case bits =>
      have hi' : i < s.validBits.length := by rwa [validBits_length]
      exact (hbit _ (by omega)).trans ((padBits_getElem_bits _ hi').trans (validBits_getElem s hi'))
    case zeros =>
      rw [← validBits_length] at hi ⊢
      exact (hbit _ (by rw [padBits_length, padCount]; omega)).trans (padBits_getElem_zeros _ hi)
  case overflow =>
    exact runStage_finish_raise (show bodyPad (startStage 0x05#8 s) = .raise .overflow _ from if_pos hover)

/-- Settles O27: PAYLOAD holds the bytes of the bits. -/
theorem toBytesPacksMsbFirst : Obligations.ToBytesPacksMsbFirst := by
  unfold Obligations.ToBytesPacksMsbFirst
  refine ⟨rfl, fun s => ⟨fun hmod hcap => ?fits, fun hmod => ?misaligned, fun hmod hover => ?overflow⟩⟩
  case fits =>
    have hlen := bytesOf_valid_length hmod
    have hexec := exec_toBytes hmod hcap
    rw [State.withPayload, hlen] at hexec
    refine ⟨_, hexec, withPayload_sameFrom s hlen, fun i hi j hj => ?_⟩
    have hbits := validBits_length s
    calc ((s.withPayload (bytesOf s.validBits)).payloadAt i).getLsbD (7 - j)
        = ((bytesOf s.validBits)[i]'(by omega)).getLsbD (7 - j) := by rw [withPayload_payloadAt]
      _ = s.validBits[8 * i + j]'(by omega) := bytesOf_getLsbD _ (by omega) i j (by omega) hj
      _ = s.bitAt (8 * i + j) := validBits_getElem s _
  case misaligned =>
    have hbody : bodyToBytes (startStage 0x06#8 s) = .raise .misalignedPadding s.bitsLen.toNat := if_pos hmod
    exact saturate_toNat s.bitsLen ▸ runStage_finish_raise hbody
  case overflow =>
    have hbody : bodyToBytes (startStage 0x06#8 s) = .raise .overflow (s.bitsLen.toNat / 8) :=
      (if_neg (not_not_intro hmod)).trans (if_pos hover)
    rw [← saturate_of_lt ((Nat.div_le_self _ 8).trans_lt s.bitsLen.isLt)]
    exact runStage_finish_raise hbody

/-- Settles O28: BITS holds the bits of the bytes. -/
theorem toBitsUnpacksMsbFirst : Obligations.ToBitsUnpacksMsbFirst := by
  unfold Obligations.ToBitsUnpacksMsbFirst
  refine ⟨rfl, fun s hmax => ⟨fun hcap => ?fits, fun hover => ?overflow⟩⟩
  case fits =>
    have hlen := bitsOf_valid_length s
    have hexec := exec_toBits hcap
    rw [State.withBits, hlen] at hexec
    refine ⟨_, hexec, withBits_sameFrom s 0x0B#8 hlen, fun i hi j hj => ?_⟩
    rw [← validPayload_length] at hi
    calc (s.withBits 0x0B#8 (bitsOf s.validPayload)).bitAt (8 * i + j)
        = (bitsOf s.validPayload)[8 * i + j]'(by rw [bitsOf_length]; omega) := withBits_bitAt ..
      _ = s.validPayload[i].getLsbD (7 - j) := bitsOf_getElem _ i j hi hj
      _ = (s.payloadAt i).getLsbD (7 - j) := by rw [validPayload_getElem]
  case overflow =>
    exact runStage_finish_raise (show bodyToBits (startStage 0x0B#8 s) = .raise .overflow _ from if_pos hover)

/-- The number whose bits, most significant first, are the first 8 bits of BITS. -/
theorem val_memRead_count {s : State} {p : Nat} (hp : p < 256) (hbits : ∀ i < 8, s.bitAt i = p.testBit (7 - i)) :
    val (memRead s.bitAt 0 8) = p := by
  have hcount : memRead s.bitAt 0 8 = bin8 (BitVec.ofNat 8 p) := by
    apply List.ext_getElem (by simp)
    intro i hi _
    rw [memRead_getElem, bin8_ofNat_getElem, Nat.zero_add, hbits i (by simpa using hi)]
  rw [hcount, val_bin8, BitVec.toNat_ofNat, Nat.mod_eq_of_lt hp]

/-- Settles O29: the count is read as it stands in the first 8 bits. -/
theorem unpadDropsCountedBits : Obligations.UnpadDropsCountedBits := by
  unfold Obligations.UnpadDropsCountedBits
  refine ⟨rfl, fun s p hp => ⟨fun hshort => ?short, fun hlen hbits => ?counted⟩⟩
  case short =>
    have hbody : bodyUnpad (startStage 0x0C#8 s) = .raise .malformedPadding s.bitsLen.toNat := if_pos hshort
    exact saturate_toNat s.bitsLen ▸ runStage_finish_raise hbody
  case counted =>
    have hval := val_memRead_count hp hbits
    refine ⟨fun hover => ?beyond, fun hrest => ?fits⟩
    case beyond =>
      have hbody : bodyUnpad (startStage 0x0C#8 s) = .raise .malformedPadding s.bitsLen.toNat :=
        (if_neg (Nat.not_lt.2 hlen)).trans (if_pos (hval.symm ▸ hover))
      exact saturate_toNat s.bitsLen ▸ runStage_finish_raise hbody
    case fits =>
      have hkept := memRead_length s.bitAt 8 (s.bitsLen.toNat - 8 - p)
      have hexec := exec_unpad hval hlen hrest
      rw [State.withBits, hkept] at hexec
      refine ⟨_, hexec, withBits_sameFrom s 0x0C#8 hkept, fun i hi => ?_⟩
      exact (withBits_bitAt s 0x0C#8 _ (by rwa [hkept])).trans (memRead_getElem ..)

/-! ### ENC_BITS (42_bitpacker.md R141) -/

/-- The code of a symbol is that of the least index at which the symbol stands. -/
theorem codeOf_validCodes_first {s : State} {k : Nat} (hk : k < s.codeN.toNat)
    (hfirst : ∀ j < k, (s.codeAt j).sym ≠ (s.codeAt k).sym) :
    codeOf s.validCodes (s.codeAt k).sym = some (s.codeAt k).code := by
  have hlen : k < s.validCodes.length := by rwa [State.validCodes, memRead_length]
  refine Option.map_eq_some_iff.2 ⟨s.codeAt k, ?_, rfl⟩
  refine List.find?_eq_some_iff_getElem.2 ⟨by simp, k, hlen, by simp [State.validCodes], fun j hj => ?_⟩
  simpa [State.validCodes] using hfirst j hj

theorem codeOf_validCodes_eq_none {s : State} {x : Symbol} :
    codeOf s.validCodes x = none ↔ ∀ k < s.codeN.toNat, (s.codeAt k).sym ≠ x := by
  simp [codeOf, State.validCodes, mem_memRead]

theorem firstMissing_eq_none {tab : List CodeEntry} {x : List Symbol} :
    firstMissing tab x = none ↔ ∀ c ∈ x, (codeOf tab c).isSome := by
  simp [firstMissing, List.findIdx?_eq_none_iff]

/-- Entries `ks` that list, for each symbol of the text, the least index with the symbol. -/
structure FirstEntries (s : State) (ks : List Nat) : Prop where
  text : s.validText = ks.map fun k => (s.codeAt k).sym
  code : ∀ k ∈ ks, codeOf s.validCodes (s.codeAt k).sym = some (s.codeAt k).code

theorem firstEntries_of_least {s : State} {ks : List Nat} (hlen : ks.length = s.textLen.toNat)
    (hks : ∀ i (h : i < ks.length), ks[i] < s.codeN.toNat ∧ (s.codeAt ks[i]).sym = s.textAt i ∧
      ∀ j < ks[i], (s.codeAt j).sym ≠ s.textAt i) : FirstEntries s ks where
  text := by
    apply List.ext_getElem (by simp [hlen])
    intro i hi hi'
    rw [List.length_map] at hi'
    obtain ⟨-, hsym, -⟩ := hks i hi'
    rw [validText_getElem, List.getElem_map, hsym]
  code k hk := by
    obtain ⟨i, hi, rfl⟩ := List.getElem_of_mem hk
    obtain ⟨hlt, hsym, hfirst⟩ := hks i hi
    exact codeOf_validCodes_first hlt (hsym ▸ hfirst)

theorem FirstEntries.firstMissing {s : State} {ks : List Nat} (h : FirstEntries s ks) :
    firstMissing s.validCodes s.validText = none := by
  refine firstMissing_eq_none.2 fun c hc => ?_
  rw [h.text] at hc
  obtain ⟨k, hk, rfl⟩ := List.mem_map.1 hc
  simp [h.code k hk]

theorem FirstEntries.encodeText {s : State} {ks : List Nat} (h : FirstEntries s ks) :
    encodeText s.validCodes s.validText = (ks.map fun k => (s.codeAt k).code).flatten := by
  rw [Machine.encodeText, h.text, List.flatMap_map, List.flatMap_def]
  congr 1
  exact List.map_congr_left fun k hk => by rw [h.code k hk, Option.getD_some]

theorem exec_encBits {s : State} (hall : firstMissing s.validCodes s.validText = none)
    (hcap : (encodeText s.validCodes s.validText).length ≤ s.params.maxBits) :
    exec .encBits s = .next (s.withBits 0x04#8 (encodeText s.validCodes s.validText)) :=
  runStage_finish_ok (op := 0x04#8) (bodyEncBits_ok.2 ⟨hall, hcap, rfl⟩)

theorem bodyEncBits_missing {s : State} {i : Nat} (h : firstMissing s.validCodes s.validText = some i) :
    bodyEncBits s = .raise .missingCode i := by
  rw [bodyEncBits, h]

theorem bodyEncBits_overflow {s : State} (hall : firstMissing s.validCodes s.validText = none)
    (hover : s.params.maxBits < (encodeText s.validCodes s.validText).length) :
    bodyEncBits s = .raise .overflow (encodeText s.validCodes s.validText).length := by
  rw [bodyEncBits, hall]
  exact if_pos hover

/-- Settles O25: the code of a symbol is that of its least entry, and MissingCode is tested on the whole text first. -/
theorem encBitsConcatenatesCodes : Obligations.EncBitsConcatenatesCodes := by
  unfold Obligations.EncBitsConcatenatesCodes
  refine ⟨rfl, fun s ks hmax hlen hks => ?complete, fun s i hi hmissing hbefore => ?missing⟩
  case complete =>
    have h := firstEntries_of_least hlen hks
    refine ⟨fun hcap => ?fits, fun hover => ?overflow⟩
    case fits =>
      rw [← h.encodeText] at hcap ⊢
      exact ⟨_, exec_encBits h.firstMissing hcap, withBits_sameFrom s 0x04#8 rfl,
        fun i hi => withBits_bitAt s 0x04#8 _ hi⟩
    case overflow =>
      rw [← h.encodeText] at hover ⊢
      exact runStage_finish_raise (bodyEncBits_overflow (s := startStage 0x04#8 s) h.firstMissing hover)
  case missing =>
    have hi' : i < s.validText.length := by rwa [validText_length]
    have hfirst : firstMissing s.validCodes s.validText = some i := by
      refine List.findIdx?_eq_some_iff_getElem.2 ⟨hi', ?_, fun j hj => ?_⟩
      · rw [validText_getElem, codeOf_validCodes_eq_none.2 hmissing]
        rfl
      · obtain ⟨k, hk, hsym⟩ := hbefore j hj
        rw [validText_getElem, Option.isNone_iff_eq_none, codeOf_validCodes_eq_none]
        exact fun hnone => hnone k hk hsym
    rw [← saturate_of_lt (hi.trans s.textLen.isLt)]
    exact runStage_finish_raise (bodyEncBits_missing (s := startStage 0x04#8 s) hfirst)

end Sys2Proof.Machine
end

section
/-! PROOFS. The Huffman decoder (43_huffman_decoder.md): the records SER_TABLE writes (R161), what DESER_TABLE makes of a
TABLE (R165), the reading of the bitstring by DEC_BITS (R170), and the two round trips (R167, R173). -/

namespace Sys2Proof.Machine

/-! ### Commands that complete -/

/-- A primitive or control command after which `ERR = 0` has completed. -/
theorem runStage_finish_completed {op : Byte} {body : State → Result} {s t : State}
    (ht : (runStage op body s).finish = .next t) (herr : t.status.err = false) :
    ∃ u, body (startStage op s) = .ok u ∧ t = complete u := by
  rcases runStage_finish.1 ht with hok | ⟨c, n, -, rfl⟩
  · exact hok
  · exact absurd herr (by simp)

@[simp] theorem validCodes_length (s : State) : s.validCodes.length = s.codeN.toNat := by simp [State.validCodes]

theorem validCodes_getD (s : State) {k : Nat} (hk : k < s.codeN.toNat) : s.validCodes.getD k default = s.codeAt k := by
  rw [List.getD_eq_getElem _ _ ((validCodes_length s).symm ▸ hk)]
  exact (memRead_getElem s.codeAt 0 _ k _).trans (by rw [Nat.zero_add])

/-- `s` after SER_TABLE has completed with the bytes `x` in TABLE. -/
abbrev State.withTable (s : State) (x : List Byte) : State :=
  { completed s 0x07#8 with table := s.table.writeSeq 0 x, tabLen := BitVec.ofNat 32 x.length }

/-- `s` after DESER_TABLE has completed with the code table `tab` in CODETAB. -/
abbrev State.withParsed (s : State) (tab : List CodeEntry) : State :=
  { completed s 0x0A#8 with codetab := s.codetab.writeSeq 0 tab, codeN := BitVec.ofNat 32 tab.length }

/-- `s` after DEC_BITS has completed with the symbols `x` in TEXT and the bits `q` left over. -/
abbrev State.withText (s : State) (x : List Symbol) (q : Bitstring) : State :=
  { completed s 0x0D#8 with
    text := s.text.writeSeq 0 x
    textLen := BitVec.ofNat 32 x.length
    status := { s.status with busy := false, done := true, residue := residueFlag q } }

theorem exec_serTable {s : State} (hcap : (serialize s.params s.validCodes).length ≤ s.params.maxTable) :
    exec .serTable s = .next (s.withTable (serialize s.params s.validCodes)) :=
  runStage_finish_ok (op := 0x07#8) (bodySerTable_ok.2 ⟨hcap, rfl⟩)

theorem exec_serTable_completed {s t : State} (ht : exec .serTable s = .next t) (herr : t.status.err = false) :
    (serialize s.params s.validCodes).length ≤ s.params.maxTable ∧
      t = s.withTable (serialize s.params s.validCodes) := by
  obtain ⟨u, hu, rfl⟩ := runStage_finish_completed ht herr
  obtain ⟨hcap, rfl⟩ := bodySerTable_ok.1 hu
  exact ⟨hcap, rfl⟩

theorem exec_encBits_completed {s t : State} (ht : exec .encBits s = .next t) (herr : t.status.err = false) :
    firstMissing s.validCodes s.validText = none ∧
      (encodeText s.validCodes s.validText).length ≤ s.params.maxBits ∧
      t = s.withBits 0x04#8 (encodeText s.validCodes s.validText) := by
  obtain ⟨u, hu, rfl⟩ := runStage_finish_completed ht herr
  obtain ⟨hall, hcap, rfl⟩ := bodyEncBits_ok.1 hu
  exact ⟨hall, hcap, rfl⟩

theorem exec_deserTable {s : State} {tab : List CodeEntry} (htab : deserialize s.params s.validTable = .ok tab) :
    exec .deserTable s = .next (s.withParsed tab) :=
  runStage_finish_ok (op := 0x0A#8) (bodyDeserTable_ok.2 ⟨tab, htab, rfl⟩)

theorem exec_deserTable_completed {s t : State} (ht : exec .deserTable s = .next t) (herr : t.status.err = false) :
    ∃ tab, deserialize s.params s.validTable = .ok tab ∧ t = s.withParsed tab := by
  obtain ⟨u, hu, rfl⟩ := runStage_finish_completed ht herr
  obtain ⟨tab, htab, rfl⟩ := bodyDeserTable_ok.1 hu
  exact ⟨tab, htab, rfl⟩

theorem exec_deserTable_error {s : State} {c : Cause} {info : Nat}
    (herr : deserialize s.params s.validTable = .error (c, info)) :
    exec .deserTable s = .next (faultEnd s 0x0A#8 c.code (saturate info)) := by
  have hbody : bodyDeserTable (startStage 0x0A#8 s) = .raise c info := by
    unfold bodyDeserTable
    simp [herr]
  exact runStage_finish_raise hbody

theorem exec_decBits {s : State} {x : List Symbol} {q : Bitstring} (hscan : decodeBits s.validCodes s.validBits = (x, q))
    (hcap : x.length ≤ s.params.maxText) : exec .decBits s = .next (s.withText x q) := by
  obtain ⟨rfl, rfl⟩ := Prod.ext_iff.1 hscan
  exact runStage_finish_ok (op := 0x0D#8) (bodyDecBits_ok.2 ⟨hcap, rfl⟩)

theorem exec_decBits_overflow {s : State} {x : List Symbol} {q : Bitstring}
    (hscan : decodeBits s.validCodes s.validBits = (x, q)) (hover : s.params.maxText < x.length) :
    exec .decBits s = .next (faultEnd s 0x0D#8 0x06#8 (saturate x.length)) := by
  obtain ⟨rfl, rfl⟩ := Prod.ext_iff.1 hscan
  exact runStage_finish_raise (show bodyDecBits (startStage 0x0D#8 s) = .raise .overflow _ from if_pos hover)

theorem withTable_validTable (s : State) {x : List Byte} (hlen : x.length < 2 ^ 32) : (s.withTable x).validTable = x :=
  memRead_written hlen

theorem withParsed_validCodes (s : State) {tab : List CodeEntry} (hlen : tab.length < 2 ^ 32) :
    (s.withParsed tab).validCodes = tab :=
  memRead_written hlen

theorem withText_validText (s : State) {x : List Symbol} (q : Bitstring) (hlen : x.length < 2 ^ 32) :
    (s.withText x q).validText = x :=
  memRead_written hlen

/-! ### The round trip of the table (43_huffman_decoder.md R167) -/

/-- Settles O42: the invariant gives codes of 1 to 65535 bits, none twice, and symbols of `SYM_W` bits, and the parser
takes the records of such a table back. -/
theorem tableRoundTrip : Obligations.TableRoundTrip := by
  unfold Obligations.TableRoundTrip
  intro s t h hs ht herr m n
  obtain ⟨-, -, ⟨-, -, hmaxSyms⟩, -, -, ⟨-, hmaxTable⟩, -⟩ := h.params
  obtain ⟨hcap, rfl⟩ := exec_serTable_completed ht herr
  obtain ⟨hcodes, hnodup⟩ := h.codes
  have hfits : s.validCodes.length ≤ s.params.maxSyms := (validCodes_length s).trans_le h.data.codetab.fits
  have hparse : deserialize s.params (serialize s.params s.validCodes) = .ok s.validCodes :=
    deserialize_serialize _ _ (fun e he => ⟨(hcodes e he).1, (hcodes e he).2, h.data.validCodes_symbolOk e he⟩)
      hnodup hfits
  rw [← withTable_validTable s (x := serialize s.params s.validCodes) (by omega)] at hparse
  refine ⟨_, exec_deserTable hparse, hs, ?_, withParsed_validCodes _ (by omega)⟩
  simp

/-! ### The round trip of the coding (43_huffman_decoder.md R173) -/

/-- The code of a symbol is that of an entry of the symbol. -/
theorem codeOf_eq_some {tab : List CodeEntry} {x : Symbol} {c : Bitstring} (h : codeOf tab x = some c) :
    ∃ e ∈ tab, e.sym = x ∧ e.code = c := by
  obtain ⟨e, he, rfl⟩ := Option.map_eq_some_iff.1 h
  exact ⟨e, List.mem_of_find?_eq_some he, by simpa using List.find?_some he, rfl⟩

/-- A text without a missing code is coded by the codes of entries whose symbols it is. -/
theorem encodeText_entries {tab : List CodeEntry} {x : List Symbol} (h : firstMissing tab x = none) :
    ∃ es : List CodeEntry, (∀ e ∈ es, e ∈ tab) ∧ es.map CodeEntry.sym = x ∧
      encodeText tab x = (es.map CodeEntry.code).flatten := by
  rw [firstMissing_eq_none] at h
  induction x with
  | nil => exact ⟨[], by simp, rfl, rfl⟩
  | cons c x ih =>
    obtain ⟨hc, hx⟩ := List.forall_mem_cons.1 h
    obtain ⟨es, hmem, hsym, hcode⟩ := ih hx
    obtain ⟨b, hb⟩ := Option.isSome_iff_exists.1 hc
    obtain ⟨e, he, rfl, rfl⟩ := codeOf_eq_some hb
    refine ⟨e :: es, List.forall_mem_cons.2 ⟨he, hmem⟩, by simp [hsym], ?_⟩
    rw [encodeText, List.flatMap_cons, hb, Option.getD_some, List.map_cons, List.flatten_cons, ← hcode, encodeText]

/-- With codes none of which is empty or starts another, the scan takes the coding back. -/
theorem decodeBits_encodeText {tab : List CodeEntry} {x : List Symbol} (hp : prefixFree (tab.map CodeEntry.code))
    (hne : ∀ e ∈ tab, e.code ≠ []) (hall : firstMissing tab x = none) :
    decodeBits tab (encodeText tab x) = (x, []) := by
  obtain ⟨es, hmem, rfl, hcode⟩ := encodeText_entries hall
  rw [hcode, decodeBits_codes tab es hp hne hmem]

/-- Settles O43: BITS is a sequence of codes of entries whose symbols are the text, and the scan reads it back. -/
theorem codingRoundTrip : Obligations.CodingRoundTrip := by
  unfold Obligations.CodingRoundTrip
  intro s t hwf hcap hs _ hp hne ht herr m n
  obtain ⟨-, -, -, ⟨-, hmaxBits⟩, -⟩ := hwf
  obtain ⟨hall, hbits, rfl⟩ := exec_encBits_completed ht herr
  have hlen := validText_length s
  have hlt := s.textLen.isLt
  have hscan := decodeBits_encodeText hp hne hall
  rw [← withBits_validBits s 0x04#8 (b := encodeText s.validCodes s.validText) (by omega)] at hscan
  refine ⟨_, exec_decBits hscan (hlen.trans_le hcap), hs, ?_, withText_validText _ [] (by omega), rfl⟩
  simp

/-! ### SER_TABLE (43_huffman_decoder.md R161, R162) -/

theorem serialize_length (p : Params) (tab : List CodeEntry) :
    (serialize p tab).length = (tab.map fun e => 2 + ceilDiv e.code.length 8 + p.symBytes).sum := by
  simp only [serialize, List.length_flatMap, codeRecord_length]

/-- Settles O30: the serialization of a table is its records. -/
theorem serTableWritesRecords : Obligations.SerTableWritesRecords := by
  unfold Obligations.SerTableWritesRecords
  refine ⟨rfl, fun s hwf hcodes => ?_⟩
  obtain ⟨-, -, -, -, -, ⟨-, hmaxTable⟩, -⟩ := hwf
  rw [← serialize_length]
  refine ⟨fun hcap => ?fits, fun hover => ?overflow⟩
  case fits =>
    refine ⟨_, exec_serTable hcap, fun i hi => Memory.read_writeSeq_ge _ _ _ i hi, ?_⟩
    rw [areRecords_iff _ _ _ fun e he => (hcodes e he).2]
    exact withTable_validTable s (by omega)
  case overflow =>
    exact runStage_finish_raise (show bodySerTable (startStage 0x07#8 s) = .raise .overflow _ from if_pos hover)

/-! ### DESER_TABLE (43_huffman_decoder.md R165) -/

/-- The length field of a record. -/
def recordLen (t : List Byte) : Nat := 256 * (t.getD 0 0#8).toNat + (t.getD 1 0#8).toNat

/-- Bit `j` of the code bytes of a record, the first bit first. -/
def recordBit (t : List Byte) (j : Nat) : Bool := (t.getD (2 + j / 8) 0#8).getLsbD (7 - j % 8)

/-- The front of `t` is no record that may follow the entries `tab`: cut short, of an empty code, with an unused bit set,
or of a code that stands in `tab` already (43_huffman_decoder.md R165). -/
def MalformedRecord (p : Params) (tab : List CodeEntry) (t : List Byte) : Prop :=
  t.length < 2 ∨ recordLen t = 0 ∨ t.length < 2 + ceilDiv (recordLen t) 8 + p.symBytes ∨
    (∃ j < 8 * ceilDiv (recordLen t) 8, recordLen t ≤ j ∧ recordBit t j = true) ∨
    ∃ e ∈ tab, e.code.length = recordLen t ∧ ∀ j < recordLen t, e.code.getD j false = recordBit t j

/-- The bits of the code bytes, unused ones included, in the order the parser reads them. -/
theorem bitsOf_codeBytes {t : List Byte} {k : Nat} (hk : 2 + k ≤ t.length) :
    bitsOf ((t.drop 2).take k) = (List.range (8 * k)).map (recordBit t) := by
  have hlen : ((t.drop 2).take k).length = k := by simp; omega
  apply List.ext_getElem (by simp [hlen])
  intro j hj _
  rw [bitsOf_length, hlen] at hj
  have hbit := bitsOf_getElem ((t.drop 2).take k) (j / 8) (j % 8) (by omega) (by omega)
  simp only [Nat.div_add_mod] at hbit
  rw [hbit, List.getElem_map, List.getElem_range, recordBit, List.getElem_take, List.getElem_drop,
    List.getD_eq_getElem?_getD, List.getElem?_eq_getElem (by omega), Option.getD_some]

/-- A code equals the first `n` bits of a record when it has `n` bits and they agree one by one. -/
theorem eq_take_map_range_iff {c : Bitstring} {f : Nat → Bool} {n m : Nat} (hn : n ≤ m) :
    c = ((List.range m).map f).take n ↔ c.length = n ∧ ∀ j < n, c.getD j false = f j := by
  constructor
  · rintro rfl
    refine ⟨by simp [hn], fun j hj => ?_⟩
    have hjm : j < m := by omega
    simp [List.getD_eq_getElem?_getD, hj, hjm]
  · rintro ⟨hlen, hbits⟩
    apply List.ext_getElem (by simp [hlen, hn])
    intro j hj _
    have := hbits j (hlen ▸ hj)
    simpa [List.getD_eq_getElem?_getD, hj] using this

/-- The five tests of the parser are those of R165, said of bits. -/
theorem malformedRecord_iff {p : Params} {tab : List CodeEntry} {t : List Byte} : MalformedRecord p tab t ↔
    t.length < 2 ∨ recordLen t = 0 ∨ 2 + ceilDiv (recordLen t) 8 + p.symBytes > t.length ∨
      ((bitsOf ((t.drop 2).take (ceilDiv (recordLen t) 8))).drop (recordLen t)).any id = true ∨
      (tab.any fun e => e.code = (bitsOf ((t.drop 2).take (ceilDiv (recordLen t) 8))).take (recordLen t)) = true := by
  refine or_congr_right (or_congr_right (or_congr_right' fun hlong => ?_))
  have hk := (ceilDiv8 (recordLen t)).1
  rw [bitsOf_codeBytes (by omega)]
  refine or_congr ?unused ?repeated
  case unused =>
    simp only [List.any_eq_true, List.mem_drop_iff_getElem, List.getElem_map, List.getElem_range, id_eq]
    constructor
    · rintro ⟨j, hj, hle, hbit⟩
      exact ⟨_, ⟨j - recordLen t, by simp; omega, rfl⟩, by rwa [Nat.add_sub_cancel' hle]⟩
    · rintro ⟨_, ⟨j, hj, rfl⟩, hbit⟩
      exact ⟨recordLen t + j, by simpa [Nat.add_comm] using hj, Nat.le_add_right _ _, hbit⟩
  case repeated =>
    simp only [List.any_eq_true, decide_eq_true_eq, eq_take_map_range_iff hk]

theorem parseRecord_malformed {p : Params} {tab : List CodeEntry} {t : List Byte} (pos : Nat)
    (h : MalformedRecord p tab t) : parseRecord p tab pos t = .error (.malformedTable, pos) := by
  rw [malformedRecord_iff] at h
  unfold recordLen at h
  unfold parseRecord
  dsimp only
  simp only [ite_eq_left_iff]
  exact fun h1 h2 h3 h4 h5 => absurd h (by simp only [not_or]; exact ⟨h1, h2, h3, h4, h5⟩)

theorem parseRecord_full {p : Params} {tab : List CodeEntry} {t : List Byte} (pos : Nat)
    (h : ¬ MalformedRecord p tab t) (hfull : tab.length = p.maxSyms) :
    parseRecord p tab pos t = .error (.overflow, p.maxSyms + 1) := by
  simp only [malformedRecord_iff, not_or] at h
  unfold recordLen at h
  obtain ⟨h1, h2, h3, h4, h5⟩ := h
  unfold parseRecord
  dsimp only
  rw [if_neg h1, if_neg h2, if_neg h3, if_neg h4, if_neg h5, if_pos hfull]

/-- The parser comes to the record behind the records of a table that fits, and ends in that record's fault. -/
theorem deserialize_append_error {p : Params} {tab : List CodeEntry} {rest : List Byte} {c : Cause × Nat}
    (htab : tableFits p tab) (hlen : ∀ e ∈ tab, e.code.length ≤ 65535) (hrest : rest ≠ [])
    (herr : parseRecord p tab (serialize p tab).length rest = .error c) :
    deserialize p (serialize p tab ++ rest) = .error c := by
  obtain ⟨hentry, hnodup, hcap⟩ := htab
  have hge := serialize_length_ge p tab
  have hpos := List.length_pos_iff.2 hrest
  obtain ⟨n, hn⟩ : ∃ n, (serialize p tab ++ rest).length = tab.length + (n + 1) :=
    ⟨(serialize p tab ++ rest).length - tab.length - 1, by rw [List.length_append]; omega⟩
  rw [deserialize, hn, parseFrom_serialize p (n + 1) [] tab 0 rest
    (fun e he => ⟨(hentry e he).1, hlen e he, (hentry e he).2⟩) hnodup hcap, List.nil_append, Nat.zero_add, parseFrom,
    if_neg hrest, herr]

/-- Settles O31: what the parser takes is the serialization of what it makes of it, and behind the records of a table that
fits it tests the next record as R165 says. -/
theorem deserTableParsesRecords : Obligations.DeserTableParsesRecords := by
  unfold Obligations.DeserTableParsesRecords
  refine ⟨rfl, fun s hwf => ⟨fun tab hfits hrec => ?taken, fun t _ ht herr => ?only⟩,
    fun s tab done rest hwf hfits hrec hs hrest => ?rest⟩
  all_goals obtain ⟨⟨-, hsymBytes⟩, -, ⟨-, -, hmaxSyms⟩, -⟩ := hwf
  case taken =>
    have hlen := areRecords_length_le hrec
    have hentry := hfits.1
    have hcap := hfits.2.2
    have hparse : deserialize s.params s.validTable = .ok tab := by
      rw [(areRecords_iff _ _ _ hlen).1 hrec]
      exact deserialize_serialize _ _ (fun e he => ⟨(hentry e he).1, hlen e he, (hentry e he).2⟩) hfits.2.1 hcap
    exact ⟨_, exec_deserTable hparse, fun i hi => Memory.read_writeSeq_ge _ _ _ i hi,
      withParsed_validCodes s (by omega)⟩
  case only =>
    obtain ⟨tab, htab, rfl⟩ := exec_deserTable_completed ht herr
    obtain ⟨hbytes, hfits, hlen⟩ := deserialize_ok hsymBytes htab
    have hcap := hfits.2.2
    rw [withParsed_validCodes s (by omega)]
    exact ⟨hfits, (areRecords_iff _ _ _ hlen).2 hbytes⟩
  case rest =>
    have hlen := areRecords_length_le hrec
    obtain rfl := (areRecords_iff _ _ _ hlen).1 hrec
    have hdone : (serialize s.params tab).length < 2 ^ 32 := by
      have := congrArg List.length hs
      rw [validTable_length, List.length_append] at this
      omega
    have hfault : ∀ c info, parseRecord s.params tab (serialize s.params tab).length rest = .error (c, info) →
        exec .deserTable s = .next (faultEnd s 0x0A#8 c.code (saturate info)) := fun c info herr =>
      exec_deserTable_error (hs ▸ deserialize_append_error hfits hlen hrest herr)
    refine ⟨fun hmal => ?malformed, fun hwell hfull => ?overflow⟩
    case malformed => exact saturate_of_lt hdone ▸ hfault _ _ (parseRecord_malformed _ hmal)
    case overflow =>
      exact saturate_of_lt (n := s.params.maxSyms + 1) (by omega) ▸ hfault _ _ (parseRecord_full _ hwell hfull)

/-! ### DEC_BITS (43_huffman_decoder.md R170, R171) -/

/-- The entries `ks` are the reading of BITS: each code the first that matches since the code before, and a rest `q` no
start of which is a code. -/
structure ReadsAs (s : State) (ks : List Nat) (q : Bitstring) : Prop where
  bits : s.validBits = (ks.map fun k => (s.codeAt k).code).flatten ++ q
  codes : ∀ k ∈ ks, k < s.codeN.toNat ∧ (s.codeAt k).code ≠ [] ∧
    (∀ j < k, (s.codeAt j).code ≠ (s.codeAt k).code) ∧
    ∀ j < s.codeN.toNat, (s.codeAt j).code ≠ [] → (s.codeAt j).code <+: (s.codeAt k).code →
      (s.codeAt j).code = (s.codeAt k).code
  rest : ∀ j < s.codeN.toNat, (s.codeAt j).code ≠ [] → ¬ (s.codeAt j).code <+: q

/-- The scan emits the symbols of a reading of BITS and leaves its rest. -/
theorem exists_readsAs (s : State) : ∃ ks q, ReadsAs s ks q ∧
    decodeBits s.validCodes s.validBits = (ks.map fun k => (s.codeAt k).sym, q) := by
  obtain ⟨ks, q, hq, hlt, hsyms, hbits, hcodes, hrest⟩ := decodeFrom_spec s.validCodes [] s.validBits (by simp)
  rw [validCodes_length] at hlt hcodes hrest
  have hget := fun k hk => validCodes_getD s (k := k) hk
  have hmap : ∀ {β : Type} (f : CodeEntry → β),
      (ks.map fun k => f (s.validCodes.getD k default)) = ks.map fun k => f (s.codeAt k) := fun f =>
    List.map_congr_left fun k hk => congrArg f (hget k (hlt k hk))
  refine ⟨ks, q, ⟨?_, fun k hk => ?_, fun j hj => ?_⟩, Prod.ext (hsyms.trans (hmap _)) hq⟩
  · rw [← hmap CodeEntry.code, ← hbits, List.nil_append]
  · have hkn := hlt k hk
    obtain ⟨hne, hfirst, hshort⟩ := hcodes k hk
    rw [hget k hkn] at hne hfirst hshort
    refine ⟨hkn, hne, fun j hj => ?_, fun j hj => ?_⟩
    · exact hget j (hj.trans hkn) ▸ hfirst j hj
    · exact hget j hj ▸ hshort j hj
  · exact hget j hj ▸ hrest j hj

theorem residueFlag_eq (q : Bitstring) : residueFlag q = decide (q ≠ []) := by
  simp [residueFlag, List.length_pos_iff]

/-- Settles O32: the scan is the reading of BITS. -/
theorem decBitsEmitsShortestMatches : Obligations.DecBitsEmitsShortestMatches := by
  unfold Obligations.DecBitsEmitsShortestMatches
  refine ⟨rfl, fun s hmax => ?_⟩
  obtain ⟨ks, q, hread, hscan⟩ := exists_readsAs s
  have hlen : (ks.map fun k => (s.codeAt k).sym).length = ks.length := List.length_map _
  refine ⟨ks, q, hread.bits, hread.codes, hread.rest, fun hcap => ?fits, fun hover => ?overflow⟩
  case fits =>
    have hexec := exec_decBits hscan (hlen.trans_le hcap)
    rw [State.withText, hlen, residueFlag_eq] at hexec
    refine ⟨_, hexec, fun i hi => Memory.read_writeSeq_ge _ _ _ i (hlen ▸ hi), fun i hi => ?_⟩
    exact (Memory.read_writeSeq_lt _ _ _ i (hlen ▸ hi)).trans (List.getElem_map _)
  case overflow =>
    exact hlen ▸ exec_decBits_overflow hscan (hlen ▸ hover)

end Sys2Proof.Machine
end

section
/-! PROOFS. The grid container (44_grid_container.md): what GRID_PACK writes (R181 to R185), what GRID_UNPACK makes of a
grid (R188, R189), and that the second takes the first back (R191). -/

namespace Sys2Proof.Machine

/-! ### Parts of a sequence that was read -/

theorem memRead_getElem? {α : Type} (elem : Nat → α) {i n j : Nat} (hj : j < n) :
    (memRead elem i n)[j]? = some (elem (i + j)) := by
  simp [memRead, hj]

/-- What was read as two sequences in a row is each of them in its place. -/
theorem memRead_eq_append {α : Type} {elem : Nat → α} {i : Nat} {x y : List α}
    (h : memRead elem i (x ++ y).length = x ++ y) :
    memRead elem i x.length = x ∧ memRead elem (i + x.length) y.length = y := by
  rw [List.length_append, memRead, ← List.range'_append_1, List.map_append] at h
  exact List.append_inj h (memRead_length elem i x.length)

/-! ### The slots (44_grid_container.md R184, R185) -/

theorem interleave_memRead_getElem? (top bot : Nat → Byte) {tl bl k : Nat} (hk : k < tl + bl) :
    (interleave (memRead top 0 tl) (memRead bot 0 bl))[k]? = some (
      let b := botBefore tl bl k
      if (k % 3 = 2 ∧ b < bl) ∨ tl ≤ k - b then bot b else top (k - b)) := by
  obtain ⟨hle, htop, hbot⟩ := botBefore_le tl bl k
  specialize hbot hk.le
  rw [interleave_getElem? _ _ _ (by simpa using hk)]
  simp only [memRead_length]
  split
  · rw [memRead_getElem? bot (by omega), Nat.zero_add]
  · rw [memRead_getElem? top (by omega), Nat.zero_add]

/-- The data slots of PAYLOAD and TABLE hold the bytes that the interleaving rule names. -/
theorem slotData_memRead_getElem? (s : State) {len1 len2 k : Nat} (hk : k < len1 + len2) :
    (slotData (memRead s.payloadAt 0 len1) (memRead s.tableAt 0 len2))[k]? = some (slotByte s len1 len2 k) := by
  simp only [slotData, slotByte, memRead_length]
  by_cases h : len1 ≥ len2
  · simp [h, interleave_memRead_getElem? s.payloadAt s.tableAt hk]
  · have hlt : len1 ≤ len2 := by omega
    simp [h, hlt, interleave_memRead_getElem? s.tableAt s.payloadAt (show k < len2 + len1 by omega)]

/-- The interleaving takes the splitting of the slots back. -/
theorem slotData_splitSlots {data : List Byte} {len1 len2 : Nat} (hdata : data.length = len1 + len2) :
    slotData (splitSlots data len1 len2).1 (splitSlots data len1 len2).2 = data := by
  have hsum : data.length = max len1 len2 + min len1 len2 := by omega
  obtain ⟨htop, hbot, hback⟩ := interleaveFrom_deinterleaveFrom _ 0 _ _ data hsum (Nat.le_refl _)
  obtain ⟨hlen1, hlen2⟩ := splitSlots_length hdata
  have hinter : interleave (deinterleave data (max len1 len2) (min len1 len2)).1
      (deinterleave data (max len1 len2) (min len1 len2)).2 = data := by
    rw [interleave, deinterleave, htop, hbot, hback]
  rw [slotData, hlen1, hlen2]
  by_cases h : len1 ≥ len2
  · simpa [splitSlots, h] using hinter
  · simpa [splitSlots, h] using hinter

/-! ### The header (44_grid_container.md R181) -/

theorem digits255_getElem? (n : Nat) {j : Nat} (hj : j < 4) :
    (digits255 n)[j]? = some (BitVec.ofNat 8 (n / 255 ^ (3 - j) % 255)) := by
  match j, hj with
  | 0, _ | 1, _ | 2, _ | 3, _ => simp [digits255]

theorem undigits255_memRead (s : State) (j : Nat) : undigits255 (memRead s.gridAt j 4) = headerField s j := by
  simp [undigits255, memRead, headerField, List.range']

theorem headerLen1_eq (s : State) : headerLen1 s = headerField s 0 := undigits255_memRead s 0

theorem headerLen2_eq (s : State) : headerLen2 s = headerField s 5 := undigits255_memRead s 5

theorem rowsNeeded_eq (len1 len2 : Nat) : rowsNeeded len1 len2 = (len1 + len2 + 8) / 9 + 1 := rfl

/-- Four digits of which none is 255 hold a length below `255 ^ 4`. -/
theorem headerField_lt {s : State} {j : Nat} (h : ∀ i < 4, s.gridAt (j + i) ≠ 255#8) :
    headerField s j < 4228250625 := by
  have digit : ∀ i < 4, (s.gridAt (j + i)).toNat ≤ 254 := fun i hi => by
    have := h i hi
    bv_omega
  have h0 := digit 0 (by decide)
  have h1 := digit 1 (by decide)
  have h2 := digit 2 (by decide)
  have h3 := digit 3 (by decide)
  rw [Nat.add_zero] at h0
  unfold headerField
  omega

/-- Four bytes that are the digits of a number, one by one. -/
theorem digit_toNat {g : Nat → Byte} {i n : Nat} (h : memRead g i 4 = digits255 n) {j : Nat} (hj : j < 4) :
    (g (i + j)).toNat = n / 255 ^ (3 - j) % 255 := by
  have hdigit := memRead_getElem? g (i := i) hj
  rw [h, digits255_getElem? n hj] at hdigit
  rw [← Option.some_injective _ hdigit, BitVec.toNat_ofNat]
  omega

theorem digit_ne_255 {g : Nat → Byte} {i n : Nat} (h : memRead g i 4 = digits255 n) {j : Nat} (hj : j < 4) :
    g (i + j) ≠ 255#8 := by
  intro h255
  have hdigit := digit_toNat h hj
  have hlt : n / 255 ^ (3 - j) % 255 < 255 := Nat.mod_lt _ (by decide)
  rw [h255, show (255#8).toNat = 255 from rfl] at hdigit
  omega

/-- Every digit of the header is one of the first length or one of the second. -/
theorem forall_digitPositions {P : Nat → Prop} :
    (∀ j ∈ digitPositions, P j) ↔ (∀ j < 4, P (0 + j)) ∧ ∀ j < 4, P (5 + j) := by
  constructor
  · intro h
    exact ⟨fun j hj => h _ (by simp [digitPositions]; omega), fun j hj => h _ (by simp [digitPositions]; omega)⟩
  · rintro ⟨h1, h2⟩ j hj
    have hj : (j < 4 ∨ 5 ≤ j) ∧ j < 9 := by simp [digitPositions] at hj; omega
    rcases hj.1 with hlow | hhigh
    · simpa using h1 j hlow
    · simpa [show 5 + (j - 5) = j by omega] using h2 (j - 5) (by omega)

/-! ### A grid that holds a container -/

/-- The grid `g` holds the container of the payload `pay` and the table `tab`, part by part. -/
structure HoldsContainer (g : Nat → Byte) (pay tab : List Byte) : Prop where
  len1 : memRead g 0 4 = digits255 pay.length
  signature : g 4 = 0#8
  len2 : memRead g 5 4 = digits255 tab.length
  slots : memRead g 9 (pay.length + tab.length) = slotData pay tab
  zeros : ∀ k, 9 + pay.length + tab.length ≤ k → k < 9 * rowsNeeded pay.length tab.length → g k = 0#8

theorem holdsContainer_of_packGrid {g : Nat → Byte} {pay tab : List Byte}
    (h : memRead g 0 (packGrid pay tab).length = packGrid pay tab) : HoldsContainer g pay tab := by
  obtain ⟨h, hzeros⟩ := memRead_eq_append h
  obtain ⟨hheader, hslots⟩ := memRead_eq_append h
  obtain ⟨h, hlen2⟩ := memRead_eq_append hheader
  obtain ⟨hlen1, hsig⟩ := memRead_eq_append h
  refine ⟨hlen1, List.singleton_inj.1 hsig, hlen2, slotData_length pay tab ▸ hslots, fun k hlow hhigh => ?_⟩
  rw [List.length_append, slotData_length, show (headerRow pay.length tab.length).length = 9 from rfl] at hzeros
  refine List.eq_of_mem_replicate (hzeros ▸ (mem_memRead g _ _ _).2 ⟨k, by omega, ?_, rfl⟩)
  rw [List.length_replicate]
  omega

theorem HoldsContainer.digits_ne_255 {g : Nat → Byte} {pay tab : List Byte} (h : HoldsContainer g pay tab) :
    ∀ j ∈ digitPositions, g j ≠ 255#8 :=
  forall_digitPositions.2 ⟨fun _ => digit_ne_255 h.len1, fun _ => digit_ne_255 h.len2⟩

/-! ### GRID_PACK (44_grid_container.md R182) -/

/-- `s` after GRID_PACK has completed. -/
abbrev State.packed (s : State) : State :=
  { completed s 0x08#8 with
    grid := s.grid.writeSeq 0 (packGrid s.validPayload s.validTable)
    gridRows := BitVec.ofNat 32 (rowsNeeded s.payLen.toNat s.tabLen.toNat) }

theorem exec_gridPack {s : State} (hlen1 : s.payLen.toNat < 4228250625) (hlen2 : s.tabLen.toNat < 4228250625)
    (hcap : rowsNeeded s.payLen.toNat s.tabLen.toNat ≤ s.params.maxRows) : exec .gridPack s = .next s.packed :=
  runStage_finish_ok (op := 0x08#8) (bodyGridPack_ok.2 ⟨hlen1, hlen2, hcap, rfl⟩)

theorem exec_gridPack_completed {s t : State} (ht : exec .gridPack s = .next t) (herr : t.status.err = false) :
    s.payLen.toNat < 4228250625 ∧ s.tabLen.toNat < 4228250625 ∧
      rowsNeeded s.payLen.toNat s.tabLen.toNat ≤ s.params.maxRows ∧ t = s.packed := by
  obtain ⟨u, hu, rfl⟩ := runStage_finish_completed ht herr
  obtain ⟨hlen1, hlen2, hcap, rfl⟩ := bodyGridPack_ok.1 hu
  exact ⟨hlen1, hlen2, hcap, rfl⟩

theorem packed_holdsContainer (s : State) : HoldsContainer s.packed.gridAt s.validPayload s.validTable :=
  holdsContainer_of_packGrid (memRead_writeSeq _ _ _)

theorem packed_sameFrom (s : State) :
    sameFrom .grid (9 * rowsNeeded s.payLen.toNat s.tabLen.toNat) s s.packed :=
  fun i hi => Memory.read_writeSeq_ge _ _ _ i ((packGrid_valid_length s).trans_le hi)

/-- Settles O33: the parts of the container stand in GRID, and the faults are tested in their order. -/
theorem gridPackWritesContainer : Obligations.GridPackWritesContainer := by
  unfold Obligations.GridPackWritesContainer
  refine ⟨rfl, fun s => ⟨fun hlen1 hlen2 hcap => ?fits, fun hlong1 => ?long1, fun hlen1 hlong2 => ?long2,
    fun hlen1 hlen2 hover => ?overflow⟩⟩
  case fits =>
    obtain ⟨h1, hsig, h2, hslots, hzeros⟩ := packed_holdsContainer s
    simp only [validPayload_length, validTable_length] at h1 h2 hslots hzeros
    refine ⟨_, exec_gridPack hlen1 hlen2 hcap, packed_sameFrom s, fun j hj => ?_, hsig, fun j => digit_toNat h2,
      fun k hk => ?_, hzeros⟩
    · have hdigit := digit_toNat h1 hj
      rwa [Nat.zero_add] at hdigit
    · have hslot := slotData_memRead_getElem? s hk
      have hread := memRead_getElem? s.packed.gridAt (i := 9) hk
      rw [hslots] at hread
      exact Option.some_injective _ (hread.symm.trans hslot)
  case long1 =>
    have hbody : bodyGridPack (startStage 0x08#8 s) = .raise .lengthOverflow s.payLen.toNat := if_pos hlong1
    exact saturate_toNat s.payLen ▸ runStage_finish_raise hbody
  case long2 =>
    have hbody : bodyGridPack (startStage 0x08#8 s) = .raise .lengthOverflow s.tabLen.toNat :=
      (if_neg (Nat.not_le.2 hlen1)).trans (if_pos hlong2)
    exact saturate_toNat s.tabLen ▸ runStage_finish_raise hbody
  case overflow =>
    have hbody : bodyGridPack (startStage 0x08#8 s) =
        .raise .overflow (rowsNeeded s.payLen.toNat s.tabLen.toNat) :=
      (if_neg (Nat.not_le.2 hlen1)).trans ((if_neg (Nat.not_le.2 hlen2)).trans (if_pos hover))
    rw [← rowsNeeded_eq, ← saturate_of_lt (by rw [rowsNeeded_eq]; omega)]
    exact runStage_finish_raise hbody

/-! ### GRID_UNPACK (44_grid_container.md R188) -/

/-- `s` after GRID_UNPACK has completed with the bytes `pay` in PAYLOAD and `tab` in TABLE. -/
abbrev State.unpacked (s : State) (pay tab : List Byte) : State :=
  { completed s 0x09#8 with
    payload := s.payload.writeSeq 0 pay
    payLen := BitVec.ofNat 32 pay.length
    table := s.table.writeSeq 0 tab
    tabLen := BitVec.ofNat 32 tab.length }

theorem unpacked_validPayload (s : State) {pay : List Byte} (tab : List Byte) (hlen : pay.length < 2 ^ 32) :
    (s.unpacked pay tab).validPayload = pay :=
  memRead_written hlen

theorem unpacked_validTable (s : State) (pay : List Byte) {tab : List Byte} (hlen : tab.length < 2 ^ 32) :
    (s.unpacked pay tab).validTable = tab :=
  memRead_written hlen

/-- A header that GRID_UNPACK goes on from: there is a row, the signature is 0, no digit is 255. -/
structure State.HeaderOk (s : State) : Prop where
  rows : s.gridRows ≠ 0#32
  signature : s.gridAt 4 = 0#8
  digits : ∀ j ∈ digitPositions, s.gridAt j ≠ 255#8

theorem gridRows_toNat_ne_zero {s : State} (h : s.gridRows ≠ 0#32) : s.gridRows.toNat ≠ 0 := by
  bv_omega

/-- The slots are those of the payload and table they split into. -/
theorem exec_gridUnpack {s : State} {pay tab : List Byte} (hs : s.HeaderOk) (hlen1 : headerLen1 s = pay.length)
    (hlen2 : headerLen2 s = tab.length) (hslots : memRead s.gridAt 9 (pay.length + tab.length) = slotData pay tab)
    (hrows : rowsNeeded pay.length tab.length ≤ s.gridRows.toNat) (hpay : pay.length ≤ s.params.maxPayload)
    (htab : tab.length ≤ s.params.maxTable) : exec .gridUnpack s = .next (s.unpacked pay tab) := by
  have hbody : bodyGridUnpack (startStage 0x09#8 s) = .ok _ :=
    bodyGridUnpack_ok.2 ⟨gridRows_toNat_ne_zero hs.rows, hs.signature, hs.digits, hlen1 ▸ hlen2 ▸ hrows,
      hlen1 ▸ hpay, hlen2 ▸ htab, rfl⟩
  refine (runStage_finish_ok hbody).trans ?_
  rw [show headerLen1 (startStage 0x09#8 s) = pay.length from hlen1,
    show headerLen2 (startStage 0x09#8 s) = tab.length from hlen2, startStage_gridAt, hslots, splitSlots_slotData]
  rfl

theorem exec_gridUnpack_container {s : State} {pay tab : List Byte} (h : HoldsContainer s.gridAt pay tab)
    (hlt1 : pay.length < 4228250625) (hlt2 : tab.length < 4228250625)
    (hrows : rowsNeeded pay.length tab.length ≤ s.gridRows.toNat) (hpay : pay.length ≤ s.params.maxPayload)
    (htab : tab.length ≤ s.params.maxTable) : exec .gridUnpack s = .next (s.unpacked pay tab) := by
  have hs : s.HeaderOk := ⟨by rintro h0; simp [h0, rowsNeeded] at hrows, h.signature, h.digits_ne_255⟩
  refine exec_gridUnpack hs ?_ ?_ h.slots hrows hpay htab
  · rw [headerLen1, h.len1, undigits255_digits255 _ hlt1]
  · rw [headerLen2, h.len2, undigits255_digits255 _ hlt2]

/-- Settles O44: GRID_PACK leaves the container of the valid parts, whose lengths the invariant keeps within the
capacities. -/
theorem containerRoundTrip : Obligations.ContainerRoundTrip := by
  unfold Obligations.ContainerRoundTrip
  intro s t h hs ht herr m1 m2 n1 n2
  obtain ⟨-, -, -, -, -, -, -, hmaxRows⟩ := h.params
  obtain ⟨hlen1, hlen2, hcap, rfl⟩ := exec_gridPack_completed ht herr
  have hrows : s.packed.gridRows.toNat = rowsNeeded s.payLen.toNat s.tabLen.toNat := toNat_ofNat_of_lt (by omega)
  have hpay := validPayload_length s
  have htab := validTable_length s
  refine ⟨_, exec_gridUnpack_container (packed_holdsContainer s) (by omega) (by omega) ?_ ?_ ?_, hs, ?_,
    unpacked_validPayload _ _ (by omega), ?_, unpacked_validTable _ _ (by omega)⟩
  · rw [hpay, htab]; exact hrows.ge
  · exact hpay.trans_le h.data.payload.fits
  · exact htab.trans_le h.data.table.fits
  · simp
  · simp

/-! ### What GRID_UNPACK leaves, and its faults (44_grid_container.md R188, R189) -/

theorem unpacked_sameFrom_payload (s : State) {pay : List Byte} (tab : List Byte) {n : Nat} (hn : pay.length = n) :
    sameFrom .payload n s (s.unpacked pay tab) :=
  fun i hi => Memory.read_writeSeq_ge _ _ _ i (hn ▸ hi)

theorem unpacked_sameFrom_table (s : State) (pay : List Byte) {tab : List Byte} {n : Nat} (hn : tab.length = n) :
    sameFrom .table n s (s.unpacked pay tab) :=
  fun i hi => Memory.read_writeSeq_ge _ _ _ i (hn ▸ hi)

/-- The buffers GRID_UNPACK wrote hold in slot `k` of their interleaving what they were written from. -/
theorem unpacked_slotData_getElem? (s : State) (pay tab : List Byte) {k : Nat} (hk : k < pay.length + tab.length) :
    (slotData pay tab)[k]? = some (slotByte (s.unpacked pay tab) pay.length tab.length k) := by
  have hpay : memRead (s.unpacked pay tab).payloadAt 0 pay.length = pay := memRead_writeSeq _ _ _
  have htab : memRead (s.unpacked pay tab).tableAt 0 tab.length = tab := memRead_writeSeq _ _ _
  rw [← slotData_memRead_getElem? _ hk, hpay, htab]

/-- The first digit of 255 is the one the search answers. -/
theorem find?_eq_some_of_least {l : List Nat} {p : Nat → Bool} {j : Nat} (hl : l.Pairwise (· < ·)) (hj : j ∈ l)
    (hp : p j = true) (hleast : ∀ i ∈ l, i < j → p i = false) : l.find? p = some j := by
  induction hl with
  | nil => cases hj
  | @cons a l hhead _ ih =>
    rcases List.mem_cons.1 hj with rfl | hmem
    · exact List.find?_cons_of_pos hp
    · rw [List.find?_cons_of_neg (by simp [hleast a List.mem_cons_self (hhead j hmem)])]
      exact ih hmem fun i hi => hleast i (List.mem_cons_of_mem a hi)

theorem exec_gridUnpack_raise {s : State} {c : Cause} {n : Nat} (hn : n < 2 ^ 32)
    (hbody : bodyGridUnpack (startStage 0x09#8 s) = .raise c n) :
    exec .gridUnpack s = .next (faultEnd s 0x09#8 c.code (BitVec.ofNat 32 n)) :=
  saturate_of_lt hn ▸ runStage_finish_raise hbody

theorem bodyGridUnpack_signature {s : State} (hrows : s.gridRows ≠ 0#32) (hsig : s.gridAt 4 ≠ 0#8) :
    bodyGridUnpack s = .raise .invalidSignature (s.gridAt 4).toNat :=
  (if_neg (gridRows_toNat_ne_zero hrows)).trans (if_pos hsig)

theorem bodyGridUnpack_badDigit {s : State} {j : Nat} (hrows : s.gridRows ≠ 0#32) (hsig : s.gridAt 4 = 0#8)
    (hj : j ∈ digitPositions) (h255 : s.gridAt j = 255#8)
    (hleast : ∀ i ∈ digitPositions, i < j → s.gridAt i ≠ 255#8) : bodyGridUnpack s = .raise .badHeaderDigit j := by
  have hfind : digitPositions.find? (fun j => s.gridAt j = 255#8) = some j :=
    find?_eq_some_of_least (by decide) hj (by simp [h255]) (by simpa using hleast)
  simp [bodyGridUnpack, gridRows_toNat_ne_zero hrows, hsig, hfind]

namespace State.HeaderOk

variable {s : State} (h : s.HeaderOk)
include h

theorem find?_eq_none : digitPositions.find? (fun j => s.gridAt j = 255#8) = none :=
  List.find?_eq_none.2 (by simpa using h.digits)

theorem headerLen_lt : headerLen1 s < 4228250625 ∧ headerLen2 s < 4228250625 := by
  obtain ⟨h1, h2⟩ := forall_digitPositions.1 h.digits
  exact ⟨headerLen1_eq s ▸ headerField_lt h1, headerLen2_eq s ▸ headerField_lt h2⟩

theorem body_truncated (hrows : s.gridRows.toNat < rowsNeeded (headerLen1 s) (headerLen2 s)) :
    bodyGridUnpack s = .raise .gridTruncated (rowsNeeded (headerLen1 s) (headerLen2 s)) := by
  unfold headerLen1 headerLen2 at *
  simp [bodyGridUnpack, gridRows_toNat_ne_zero h.rows, h.signature, h.find?_eq_none, hrows]

theorem body_payload_overflow (hrows : rowsNeeded (headerLen1 s) (headerLen2 s) ≤ s.gridRows.toNat)
    (hpay : s.params.maxPayload < headerLen1 s) : bodyGridUnpack s = .raise .overflow (headerLen1 s) := by
  unfold headerLen1 headerLen2 at *
  simp [bodyGridUnpack, gridRows_toNat_ne_zero h.rows, h.signature, h.find?_eq_none, Nat.not_lt.2 hrows, hpay]

theorem body_table_overflow (hrows : rowsNeeded (headerLen1 s) (headerLen2 s) ≤ s.gridRows.toNat)
    (hpay : headerLen1 s ≤ s.params.maxPayload) (htab : s.params.maxTable < headerLen2 s) :
    bodyGridUnpack s = .raise .overflow (headerLen2 s) := by
  unfold headerLen1 headerLen2 at *
  simp [bodyGridUnpack, gridRows_toNat_ne_zero h.rows, h.signature, h.find?_eq_none, Nat.not_lt.2 hrows,
    Nat.not_lt.2 hpay, htab]

end State.HeaderOk

/-- A grid with a good header and room for its two lengths: the slots go back to where the interleaving takes them
from. -/
theorem exec_gridUnpack_slots {s : State} {len1 len2 : Nat} (hs : s.HeaderOk) (hlen1 : headerLen1 s = len1)
    (hlen2 : headerLen2 s = len2) (hrows : rowsNeeded len1 len2 ≤ s.gridRows.toNat)
    (hpay : len1 ≤ s.params.maxPayload) (htab : len2 ≤ s.params.maxTable) :
    ∃ pay tab, pay.length = len1 ∧ tab.length = len2 ∧ exec .gridUnpack s = .next (s.unpacked pay tab) ∧
      ∀ k < len1 + len2, slotByte (s.unpacked pay tab) len1 len2 k = s.gridAt (9 + k) := by
  have hdata := memRead_length s.gridAt 9 (len1 + len2)
  have hslots := slotData_splitSlots hdata
  obtain ⟨hl1, hl2⟩ := splitSlots_length hdata
  generalize (splitSlots (memRead s.gridAt 9 (len1 + len2)) len1 len2).1 = pay at *
  generalize (splitSlots (memRead s.gridAt 9 (len1 + len2)) len1 len2).2 = tab at *
  subst hl1 hl2
  refine ⟨pay, tab, rfl, rfl, exec_gridUnpack hs hlen1 hlen2 hslots.symm hrows hpay htab, fun k hk => ?_⟩
  have hslot := unpacked_slotData_getElem? s pay tab hk
  rw [hslots, memRead_getElem? _ hk] at hslot
  exact (Option.some_injective _ hslot).symm

/-- Settles O34: a good header is read as the two lengths, and the faults are tested in their order. -/
theorem gridUnpackSplitsSlots : Obligations.GridUnpackSplitsSlots := by
  unfold Obligations.GridUnpackSplitsSlots
  refine ⟨rfl, fun s hrows hsig hdig hneed hpay htab => ?fits, fun s => ⟨fun h0 => ?noRow, fun hrows =>
    ⟨fun hsig => ?signature, fun hsig => ⟨fun j hj h255 hleast => ?badDigit, fun hdig => ?header⟩⟩⟩⟩
  case fits =>
    obtain ⟨pay, tab, hlen1, hlen2, hexec, hslots⟩ :=
      exec_gridUnpack_slots ⟨hrows, hsig, hdig⟩ (headerLen1_eq s) (headerLen2_eq s) hneed hpay htab
    have hsame1 := unpacked_sameFrom_payload s tab hlen1
    have hsame2 := unpacked_sameFrom_table s pay hlen2
    rw [State.unpacked, hlen1, hlen2] at hexec hslots hsame1 hsame2
    exact ⟨_, _, hexec, hsame1, hsame2, hslots⟩
  case noRow =>
    exact exec_gridUnpack_raise (by decide) (if_pos (by simp [h0]))
  case signature =>
    have hinfo : BitVec.ofNat 32 (s.gridAt 4).toNat = (s.gridAt 4).zeroExtend 32 := BitVec.ofNat_toNat 32 _
    exact hinfo ▸ exec_gridUnpack_raise (by omega) (bodyGridUnpack_signature (s := startStage 0x09#8 s) hrows hsig)
  case badDigit =>
    have hlt : j < 9 := by simp at hj; omega
    exact exec_gridUnpack_raise (by omega)
      (bodyGridUnpack_badDigit (s := startStage 0x09#8 s) hrows hsig hj h255 hleast)
  case header =>
    have hs : (startStage 0x09#8 s).HeaderOk := ⟨hrows, hsig, hdig⟩
    obtain ⟨hlt1, hlt2⟩ := hs.headerLen_lt
    rw [← headerLen1_eq, ← headerLen2_eq, ← rowsNeeded_eq]
    refine ⟨fun hneed => ?truncated, fun hneed hpay => ?payload, fun hneed hpay htab => ?table⟩
    case truncated => exact exec_gridUnpack_raise (by rw [rowsNeeded_eq]; omega) (hs.body_truncated hneed)
    case payload => exact exec_gridUnpack_raise (by omega) (hs.body_payload_overflow hneed hpay)
    case table => exact exec_gridUnpack_raise (by omega) (hs.body_table_overflow hneed hpay htab)

end Sys2Proof.Machine
end

section
/-! PROOFS. The stages of the composites as they run on (45_pipeline_and_control.md R200), whatever the flags are; that
DECOMPRESS reads every genuine container (R203). -/

namespace Sys2Proof.Machine

/-! ### Stages one after the other -/

/-- `p` runs on exactly when `C` holds, and then to the state `u`. -/
def RunsIff (p : Progress) (C : Prop) (u : State) : Prop := ∀ v, p = .running v ↔ C ∧ v = u

section
variable {p : Progress} {C D : Prop} {u w : State}

theorem RunsIff.running (h : RunsIff p C u) (hC : C) : p = .running u := (h u).2 ⟨hC, rfl⟩

theorem RunsIff.congr (h : RunsIff p C u) (hCD : C ↔ D) : RunsIff p D u := fun v => (h v).trans (and_congr_left' hCD)

theorem RunsIff.andThen {g : State → Progress} (hp : RunsIff p C u) (hg : C → RunsIff (g u) D w) :
    RunsIff (p.andThen g) (C ∧ D) w := by
  intro v
  rw [andThen_running]
  constructor
  · rintro ⟨s, hs, hv⟩
    obtain ⟨hC, rfl⟩ := (hp s).1 hs
    obtain ⟨hD, rfl⟩ := (hg hC v).1 hv
    exact ⟨⟨hC, hD⟩, rfl⟩
  · rintro ⟨⟨hC, hD⟩, rfl⟩
    exact ⟨u, hp.running hC, (hg hC).running hD⟩

/-- A command whose chain of stages runs on completes. -/
theorem RunsIff.finish (h : RunsIff p C u) (hC : C) : p.finish = .next (complete u) := by rw [h.running hC]; rfl

end

/-- A composite after which `ERR = 0` has run all its stages. -/
theorem IsChain.running_of_finish {p : State → Progress} (hp : IsChain p) {s t : State} (ht : (p s).finish = .next t)
    (herr : t.status.err = false) : ∃ u, p s = .running u ∧ t = complete u := by
  rcases finish_next.1 ht with hrun | hfault
  · exact hrun
  · have hkept : KeptByStages fun _ => True := ⟨fun _ _ _ => trivial, fun _ _ _ => trivial⟩
    obtain ⟨u, c, n, -, rfl⟩ := hp.faulted hkept trivial hfault
    exact absurd herr (by simp)

/-! ### The stages that both composites write BITS, PAYLOAD and TABLE by -/

/-- `s` in the stage `op` with the bitstring `b` written to BITS. -/
abbrev State.ranBits (s : State) (op : Byte) (b : Bitstring) : State :=
  { startStage op s with bits := s.bits.writeSeq 0 b, bitsLen := BitVec.ofNat 32 b.length }

theorem ranBits_validBits (s : State) (op : Byte) {b : Bitstring} (hlen : b.length < 2 ^ 32) :
    (s.ranBits op b).validBits = b :=
  memRead_written hlen

/-! ### The stages of DECOMPRESS -/

/-- `s` after the stage GRID_UNPACK with the bytes `pay` and `bytes` written to PAYLOAD and TABLE. -/
abbrev State.ranGridUnpack (s : State) (pay bytes : List Byte) : State :=
  { startStage 0x09#8 s with
    payload := s.payload.writeSeq 0 pay
    payLen := BitVec.ofNat 32 pay.length
    table := s.table.writeSeq 0 bytes
    tabLen := BitVec.ofNat 32 bytes.length }

/-- `s` after the stage DESER_TABLE with the code table `tab` written to CODETAB. -/
abbrev State.ranDeserTable (s : State) (tab : List CodeEntry) : State :=
  { startStage 0x0A#8 s with codetab := s.codetab.writeSeq 0 tab, codeN := BitVec.ofNat 32 tab.length }

/-- `s` after the stage DEC_BITS with the symbols `x` written to TEXT and no bit left over. -/
abbrev State.ranDecBits (s : State) (x : List Symbol) : State :=
  { startStage 0x0D#8 s with
    text := s.text.writeSeq 0 x
    textLen := BitVec.ofNat 32 x.length
    status := { s.status with residue := false } }

theorem stageGridUnpack_container {s : State} {pay bytes : List Byte} (h : HoldsContainer s.gridAt pay bytes)
    (hlt1 : pay.length < 4228250625) (hlt2 : bytes.length < 4228250625)
    (hrows : rowsNeeded pay.length bytes.length ≤ s.gridRows.toNat) (hpay : pay.length ≤ s.params.maxPayload)
    (htab : bytes.length ≤ s.params.maxTable) : stageGridUnpack s = .running (s.ranGridUnpack pay bytes) := by
  have hlen1 : headerLen1 (startStage 0x09#8 s) = pay.length :=
    (congrArg undigits255 h.len1).trans (undigits255_digits255 _ hlt1)
  have hlen2 : headerLen2 (startStage 0x09#8 s) = bytes.length :=
    (congrArg undigits255 h.len2).trans (undigits255_digits255 _ hlt2)
  have hsplit : splitSlots (memRead (startStage 0x09#8 s).gridAt 9 (pay.length + bytes.length)) pay.length
      bytes.length = (pay, bytes) := by
    rw [startStage_gridAt, h.slots, splitSlots_slotData]
  refine runStage_running.2 (bodyGridUnpack_ok.2 ⟨?_, h.signature, h.digits_ne_255, ?_⟩)
  · have hpos : 0 < rowsNeeded pay.length bytes.length := Nat.succ_pos _
    exact (hpos.trans_le hrows).ne'
  · rw [hlen1, hlen2, hsplit]
    exact ⟨hrows, hpay, htab, rfl⟩

theorem stageDeserTable_serialize {s : State} {tab : List CodeEntry} (hs : s.validTable = serialize s.params tab)
    (hfits : tableFits s.params tab) (hlen : ∀ e ∈ tab, e.code.length ≤ 65535) :
    stageDeserTable s = .running (s.ranDeserTable tab) := by
  obtain ⟨hentry, hnodup, hcap⟩ := hfits
  have hparse : deserialize s.params s.validTable = .ok tab := by
    rw [hs]
    exact deserialize_serialize _ _ (fun e he => ⟨(hentry e he).1, hlen e he, (hentry e he).2⟩) hnodup hcap
  exact runStage_running.2 (bodyDeserTable_ok.2 ⟨tab, hparse, rfl⟩)

theorem stageToBits_bytesOf {s : State} {b : Bitstring} (hs : s.validPayload = bytesOf b) (hmod : b.length % 8 = 0)
    (hcap : b.length ≤ s.params.maxBits) : stageToBits s = .running (s.ranBits 0x0B#8 b) := by
  have hbits : bitsOf s.validPayload = b := by rw [hs, bitsOf_bytesOf b hmod]
  have hlen : 8 * s.payLen.toNat = b.length := by rw [← bitsOf_valid_length, hbits]
  refine runStage_running.2 (bodyToBits_ok.2 ?_)
  rw [startStage_validPayload, startStage_payLen, hbits, hlen]
  exact ⟨hcap, rfl⟩

/-- `s` after the stage UNPAD has taken the padding off the bitstring `b`. -/
abbrev State.ranUnpad (s : State) (b : Bitstring) : State :=
  State.ranBits { s with padcnt := BitVec.ofNat 8 (padCount b.length) } 0x0C#8 b

theorem stageUnpad_padBits {s : State} {b : Bitstring} (hs : s.validBits = padBits b) :
    stageUnpad s = .running (s.ranUnpad b) := by
  have hlen : s.bitsLen.toNat = b.length + 8 + padCount b.length := by rw [← validBits_length, hs, padBits_length]
  have hcount : val (memRead s.bitAt 0 8) = padCount b.length := by
    rw [memRead_bitAt_eq s (by omega), hs, List.drop_zero, val_padBits_take]
  have hrest : s.bitsLen.toNat - 8 - padCount b.length = b.length := by omega
  have hkept : memRead s.bitAt 8 b.length = b := by rw [memRead_bitAt_eq s (by omega), hs, padBits_drop_take]
  refine runStage_running.2 (bodyUnpad_ok.2 ?_)
  rw [startStage_bitAt, startStage_bitsLen, hcount, hrest, hkept]
  exact ⟨by omega, by omega, rfl⟩

theorem stageDecBits_codes {s : State} {tab es : List CodeEntry} (htab : s.validCodes = tab)
    (hbits : s.validBits = (es.map CodeEntry.code).flatten) (hp : prefixFree (tab.map CodeEntry.code))
    (hne : ∀ e ∈ tab, e.code ≠ []) (hes : ∀ e ∈ es, e ∈ tab) (hcap : es.length ≤ s.params.maxText) :
    stageDecBits s = .running (s.ranDecBits (es.map CodeEntry.sym)) := by
  have hscan := decodeBits_codes tab es hp hne hes
  rw [← htab, ← hbits] at hscan
  refine runStage_running.2 (bodyDecBits_ok.2 ?_)
  rw [startStage_validCodes, startStage_validBits, hscan]
  exact ⟨(List.length_map _).trans_le hcap, rfl⟩

/-! ### DECOMPRESS on a genuine container (45_pipeline_and_control.md R203) -/

/-- The codes of the entries, one after the other. -/
abbrev codedBits (es : List CodeEntry) : Bitstring := (es.map CodeEntry.code).flatten

/-- The payload of the entries: their codes, padded and packed into bytes (30_encoding.md R102). -/
abbrev payloadOf (es : List CodeEntry) : List Byte := bytesOf (padBits (codedBits es))

theorem bytesOf_padBits_length (b : Bitstring) : 8 * (bytesOf (padBits b)).length = (padBits b).length := by
  have hmod := padBits_mod b
  rw [bytesOf_length _ hmod]
  omega

/-- GRID holds the container of the codes of the entries `es` of a table `tab` in which no code starts another, and the
capacities hold what DECOMPRESS makes of it. -/
structure State.HasContainer (s : State) (tab es : List CodeEntry) : Prop where
  params : s.params.wf
  fits : tableFits s.params tab
  codeLength : ∀ e ∈ tab, e.code.length ≤ 65535
  prefixFree : prefixFree (tab.map CodeEntry.code)
  entries : ∀ e ∈ es, e ∈ tab
  text : es.length ≤ s.params.maxText
  payload : (payloadOf es).length ≤ s.params.maxPayload
  bits : (padBits (codedBits es)).length ≤ s.params.maxBits
  table : (serialize s.params tab).length ≤ s.params.maxTable
  tableLimit : (serialize s.params tab).length < 4228250625
  rows : rowsNeeded (payloadOf es).length (serialize s.params tab).length ≤ s.gridRows.toNat
  grid : HoldsContainer s.gridAt (payloadOf es) (serialize s.params tab)

/-- `s` after the stages of DECOMPRESS before UNPAD, on the container of the table `tab` and the entries `es`. -/
abbrev State.unpackedToBits (s : State) (tab es : List CodeEntry) : State :=
  s.ranGridUnpack (payloadOf es) (serialize s.params tab) |>.ranDeserTable tab
    |>.ranBits 0x0B#8 (padBits (codedBits es))

/-- `s` after the five stages of DECOMPRESS on that container. -/
abbrev State.decompressed (s : State) (tab es : List CodeEntry) : State :=
  s.unpackedToBits tab es |>.ranUnpad (codedBits es) |>.ranDecBits (es.map CodeEntry.sym)

namespace State.HasContainer

variable {s : State} {tab es : List CodeEntry} (h : s.HasContainer tab es)
include h

theorem padBits_lt : (padBits (codedBits es)).length < 2 ^ 32 := by
  obtain ⟨-, -, -, ⟨-, hmaxBits⟩, -⟩ := h.params
  have := h.bits
  omega

theorem codedBits_lt : (codedBits es).length < 2 ^ 32 := by
  have hlt := h.padBits_lt
  rw [padBits_length] at hlt
  omega

theorem payloadOf_lt : (payloadOf es).length < 4228250625 := by
  have hlt := h.padBits_lt
  have hlen : 8 * (payloadOf es).length = (padBits (codedBits es)).length := bytesOf_padBits_length _
  omega

theorem tab_lt : tab.length < 2 ^ 32 := by
  obtain ⟨-, -, ⟨-, -, hmaxSyms⟩, -⟩ := h.params
  have := h.fits.2.2
  omega

theorem text_lt : (es.map CodeEntry.sym).length < 2 ^ 32 := by
  obtain ⟨-, ⟨-, hmaxText⟩, -⟩ := h.params
  have := h.text
  rw [List.length_map]
  omega

theorem validPayload : (s.decompressed tab es).validPayload = payloadOf es :=
  memRead_written (h.payloadOf_lt.trans (by decide))

theorem validTable : (s.decompressed tab es).validTable = serialize s.params tab :=
  memRead_written (h.tableLimit.trans (by decide))

theorem validCodes : (s.decompressed tab es).validCodes = tab := memRead_written h.tab_lt

theorem validBits : (s.decompressed tab es).validBits = codedBits es := memRead_written h.codedBits_lt

theorem validText : (s.decompressed tab es).validText = es.map CodeEntry.sym := memRead_written h.text_lt

/-- Each stage finds what the stage of COMPRESS that it undoes would have left. -/
theorem decompressChain_eq : decompressChain s = .running (s.decompressed tab es) := by
  have hne : ∀ e ∈ tab, e.code ≠ [] := fun e he => List.length_pos_iff.1 (h.fits.1 e he).1
  have hunpack := stageGridUnpack_container h.grid h.payloadOf_lt h.tableLimit h.rows h.payload h.table
  have hparse := stageDeserTable_serialize (s := s.ranGridUnpack (payloadOf es) (serialize s.params tab))
    h.validTable h.fits h.codeLength
  have htoBits := stageToBits_bytesOf
    (s := (s.ranGridUnpack (payloadOf es) (serialize s.params tab)).ranDeserTable tab) h.validPayload (padBits_mod _)
    h.bits
  have hunpad := stageUnpad_padBits (s := s.unpackedToBits tab es) (memRead_written h.padBits_lt)
  have hscan := stageDecBits_codes (s := (s.unpackedToBits tab es).ranUnpad (codedBits es)) h.validCodes h.validBits
    h.prefixFree hne h.entries h.text
  simp only [decompressChain, hunpack, hparse, htoBits, hunpad, hscan, Progress.andThen]

end State.HasContainer

/-- Settles O40: the five stages run on, and nothing but RESIDUE of the flags is theirs. -/
theorem decompressReadsContainer : Obligations.DecompressReadsContainer := by
  unfold Obligations.DecompressReadsContainer
  intro s tab es code pay bytes hwf hfits hcodeLen hprefix hes htext hpay hbits htab htabLimit hgridLen hgrid
  have h : s.HasContainer tab es :=
    { params := hwf, fits := hfits, codeLength := hcodeLen, prefixFree := hprefix, entries := hes, text := htext,
      payload := hpay, bits := (bytesOf_padBits_length code).ge.trans hbits, table := htab, tableLimit := htabLimit,
      rows := Nat.le_of_mul_le_mul_left ((packGrid_length pay bytes).ge.trans hgridLen) (by decide),
      grid := holdsContainer_of_packGrid (List.ext_getElem (by simp) fun i _ hi => by simpa using hgrid i hi) }
  refine ⟨complete (s.decompressed tab es), congrArg Progress.finish h.decompressChain_eq, rfl, rfl, rfl, rfl,
    h.validText, h.validCodes, h.validPayload, h.validTable, h.validBits, ?_⟩
  have hpad := padCount_pos (codedBits es).length
  exact (BitVec.toNat_ofNat _ 8).trans (Nat.mod_eq_of_lt (by omega))

end Sys2Proof.Machine
end

section
/-! PROOFS. COMPRESS (45_pipeline_and_control.md R201): exactly when its eight stages run on, and to what state. -/

namespace Sys2Proof.Machine

/-! ### ANALYZE, BUILD_TREE and GEN_CODES -/

/-- `s` after the stage ANALYZE with the table of its text written to FREQ. -/
abbrev State.ranAnalyze (s : State) : State :=
  { startStage 0x01#8 s with
    freq := s.freq.writeSeq 0 (tableOf s.validText), freqN := BitVec.ofNat 32 (tableOf s.validText).length }

/-- `s` after the stage BUILD_TREE with the tree over its FREQ written to TREE. -/
abbrev State.ranBuildTree (s : State) : State :=
  { startStage 0x02#8 s with
    tree := s.tree.writeSeq 0 (buildTree s.validFreq).1
    nodeN := BitVec.ofNat 32 (buildTree s.validFreq).1.length
    root := BitVec.ofNat 32 ((buildTree s.validFreq).2.headD 0) }

/-- `s` after the stage GEN_CODES with the code table `tab` written to CODETAB. -/
abbrev State.ranGenCodes (s : State) (tab : List CodeEntry) : State :=
  { startStage 0x03#8 s with codetab := s.codetab.writeSeq 0 tab, codeN := BitVec.ofNat 32 tab.length }

theorem stageAnalyze_runsIff (s : State) :
    RunsIff (stageAnalyze s) (s.validText.eraseDups.length ≤ s.params.maxSyms) s.ranAnalyze := by
  refine fun v => (runStage_running.trans bodyAnalyze_ok).trans ⟨?_, ?_⟩
  · rintro ⟨f, hf, rfl⟩
    obtain ⟨rfl, hcap⟩ := countFrom_inv _ _ _ hf
    exact ⟨hcap, rfl⟩
  · rintro ⟨hcap, rfl⟩
    exact ⟨_, countFrom_ok _ 0 [] s.validText hcap, rfl⟩

theorem stageBuildTree_runsIff (s : State) : RunsIff (stageBuildTree s) (s.freqN ≠ 0#32) s.ranBuildTree :=
  fun _ => runStage_running.trans bodyBuildTree_ok

theorem stageGenCodes_runsIff {s : State} {tab : List CodeEntry} (hn : s.nodeN ≠ 0#32)
    (htab : codesOfTree s.treeAt s.nodeN.toNat s.root.toNat = some tab) :
    RunsIff (stageGenCodes s) True (s.ranGenCodes tab) := by
  refine fun v => (runStage_running.trans bodyGenCodes_ok).trans ⟨?_, ?_⟩
  · rintro ⟨-, tab', htab', rfl⟩
    obtain rfl : tab = tab' := Option.some_injective _ (htab.symm.trans htab')
    exact ⟨trivial, rfl⟩
  · rintro ⟨-, rfl⟩
    exact ⟨hn, tab, htab, rfl⟩

/-- `s` after ANALYZE and BUILD_TREE. -/
abbrev State.treed (s : State) : State := s.ranAnalyze.ranBuildTree

/-- The code table that GEN_CODES makes of the text of `s`. -/
def State.codeTable (s : State) : List CodeEntry :=
  (codesOfTree s.treed.treeAt s.treed.nodeN.toNat s.treed.root.toNat).getD []

/-- `s` after ANALYZE, BUILD_TREE and GEN_CODES. -/
abbrev State.encoded (s : State) : State := s.treed.ranGenCodes s.codeTable

/-- The text of `s` is not empty, and its distinct symbols fit. -/
structure State.Encodable (s : State) : Prop where
  params : s.params.wf
  nonempty : 1 ≤ s.textLen.toNat
  fits : s.validText.eraseDups.length ≤ s.params.maxSyms

theorem eraseDups_length_pos {xs : List Symbol} (h : 1 ≤ xs.length) : 1 ≤ xs.eraseDups.length := by
  have hmem : xs[0] ∈ xs.eraseDups := List.mem_eraseDups.2 (List.getElem_mem _)
  exact List.length_pos_of_mem hmem

/-- A symbol of a leaf stands in the code table. -/
theorem State.treeShape.exists_code {s : State} {n : Nat} (h : s.treeShape n) {tab : List CodeEntry}
    (htab : codesOfTree s.treeAt s.nodeN.toNat s.root.toNat = some tab) {l : Nat} (hl : l < n) :
    ∃ e ∈ tab, e.sym = (s.treeAt l).sym := by
  rcases Nat.lt_or_ge n 2 with hn | hn
  · obtain rfl : n = 1 := by omega
    obtain rfl : l = 0 := by omega
    obtain rfl := Option.some.inj (h.codesOfTree_single.symm.trans htab)
    exact ⟨_, List.mem_singleton_self _, rfl⟩
  · obtain rfl := Option.some.inj ((h.codesOfTree_eq_leafPaths hn).symm.trans htab)
    obtain ⟨x, hx, rfl⟩ := List.mem_map.1 (h.leafPaths_perm.mem_iff.2 (List.mem_range.2 hl))
    exact ⟨_, List.mem_map_of_mem hx, rfl⟩

namespace State.Encodable

variable {s : State} (h : s.Encodable)
include h

theorem distinct_pos : 1 ≤ s.validText.eraseDups.length :=
  eraseDups_length_pos (h.nonempty.trans_eq (validText_length s).symm)

theorem distinct_lt : s.validText.eraseDups.length < 2 ^ 31 := by
  obtain ⟨-, -, ⟨-, -, hmaxSyms⟩, -⟩ := h.params
  have := h.fits
  omega

theorem freqN_toNat : s.ranAnalyze.freqN.toNat = s.validText.eraseDups.length := by
  have hlt := h.distinct_lt
  exact (toNat_ofNat_of_lt (by rw [tableOf_length]; omega)).trans (tableOf_length _)

theorem freqN_ne : s.ranAnalyze.freqN ≠ 0#32 := by
  have hpos := h.distinct_pos
  have hn := h.freqN_toNat
  rintro h0
  rw [h0, BitVec.toNat_ofNat] at hn
  omega

theorem validFreq : s.ranAnalyze.validFreq = tableOf s.validText := by
  have hlt := h.distinct_lt
  exact memRead_written (by rw [tableOf_length]; omega)

theorem built : Built (tableOf s.validText) (buildTree (tableOf s.validText)).1
      [2 * s.validText.eraseDups.length - 2] ∧
    (buildTree (tableOf s.validText)).1.length = 2 * s.validText.eraseDups.length - 1 ∧
    (buildTree (tableOf s.validText)).2 = [2 * s.validText.eraseDups.length - 2] := by
  have hpos := h.distinct_pos
  have hlt := h.distinct_lt
  have hlen := tableOf_length s.validText
  obtain ⟨-, -, hsum⟩ := tableOf_ok (validText_length s).le s.textLen.isLt
  obtain ⟨B, hsize, hlive⟩ := buildTree_spec (tableOf s.validText) (List.length_pos_iff.1 (by omega)) (by omega)
    (hsum.trans_lt s.textLen.isLt)
  rw [hlen] at hsize hlive
  exact ⟨hlive ▸ B, hsize, hlive⟩

theorem treed_treeAt {l : Nat} (hl : l < 2 * s.validText.eraseDups.length - 1) :
    s.treed.treeAt l = nodeOf (buildTree (tableOf s.validText)).1 l := by
  obtain ⟨-, hsize, -⟩ := h.built
  refine (Memory.read_writeSeq_lt _ _ _ l (by rwa [h.validFreq, hsize])).trans ?_
  simp [nodeOf, h.validFreq, hsize, hl]

theorem treeShape : s.treed.treeShape s.validText.eraseDups.length := by
  obtain ⟨B, hsize, hlive⟩ := h.built
  have hpos := h.distinct_pos
  have hlt := h.distinct_lt
  have hlen := tableOf_length s.validText
  obtain ⟨hsyms, -⟩ := tableOf_ok (validText_length s).le s.textLen.isLt
  rw [← hlen] at B ⊢
  refine (B.treeShape (t := s.treed) (List.length_pos_iff.1 (by omega)) (hlen.trans_le h.fits) (by omega) hsyms
    (fun l hl => h.treed_treeAt (hsize ▸ hl)) ?_ ?_).1
  · refine (congrArg (fun f => (BitVec.ofNat 32 (buildTree f).1.length).toNat) h.validFreq).trans ?_
    rw [hsize, hlen]
    exact toNat_ofNat_of_lt (by omega)
  · refine (congrArg (fun f => (BitVec.ofNat 32 ((buildTree f).2.headD 0)).toNat) h.validFreq).trans ?_
    rw [hlive, hlen]
    exact toNat_ofNat_of_lt (n := 2 * s.validText.eraseDups.length - 2) (by omega)

/-- The leaves of the tree are the distinct symbols of the text. -/
theorem leaf_sym {l : Nat} (hl : l < s.validText.eraseDups.length) :
    (s.treed.treeAt l).sym = s.validText.eraseDups[l] := by
  obtain ⟨B, -⟩ := h.built
  rw [h.treed_treeAt (by omega), B.leaves l (by rwa [tableOf_length])]
  simp [leafNode, tableOf]

theorem codesOfTree_eq :
    codesOfTree s.treed.treeAt s.treed.nodeN.toNat s.treed.root.toNat = some s.codeTable := by
  obtain ⟨tab, htab, -⟩ := h.treeShape.codesOfTree_spec
  rw [State.codeTable, htab, Option.getD_some]

theorem codesOf : CodesOf s.treed.treeAt s.validText.eraseDups.length s.codeTable := by
  obtain ⟨tab, htab, hcodes⟩ := h.treeShape.codesOfTree_spec
  rwa [State.codeTable, htab, Option.getD_some]

theorem sym_mem {e : CodeEntry} (he : e ∈ s.codeTable) : e.sym ∈ s.validText := by
  obtain ⟨l, hl, hsym⟩ := h.codesOf.symbol e he
  rw [hsym, h.leaf_sym hl]
  exact List.mem_eraseDups.1 (List.getElem_mem hl)

/-- Every symbol of the text has a code. -/
theorem firstMissing_eq_none : firstMissing s.codeTable s.validText = none := by
  refine Machine.firstMissing_eq_none.2 fun x hx => ?_
  obtain ⟨l, hl, rfl⟩ := List.getElem_of_mem (List.mem_eraseDups.2 hx)
  obtain ⟨e, he, hsym⟩ := h.treeShape.exists_code h.codesOfTree_eq hl
  simp only [codeOf, Option.isSome_map, List.find?_isSome]
  exact ⟨e, he, by simp [hsym, h.leaf_sym hl]⟩

end State.Encodable

/-! ### ENC_BITS, PAD, TO_BYTES, SER_TABLE and GRID_PACK -/

/-- `s` after the stage PAD has padded the bitstring `b`. -/
abbrev State.ranPad (s : State) (b : Bitstring) : State :=
  State.ranBits { s with padcnt := BitVec.ofNat 8 (padCount b.length) } 0x05#8 (padBits b)

/-- `s` after the stage TO_BYTES with the bytes `x` written to PAYLOAD. -/
abbrev State.ranToBytes (s : State) (x : List Byte) : State :=
  { startStage 0x06#8 s with payload := s.payload.writeSeq 0 x, payLen := BitVec.ofNat 32 x.length }

/-- `s` after the stage SER_TABLE with the bytes `x` written to TABLE. -/
abbrev State.ranSerTable (s : State) (x : List Byte) : State :=
  { startStage 0x07#8 s with table := s.table.writeSeq 0 x, tabLen := BitVec.ofNat 32 x.length }

/-- `s` after the stage GRID_PACK with the container of `pay` and `bytes` written to GRID. -/
abbrev State.ranGridPack (s : State) (pay bytes : List Byte) : State :=
  { startStage 0x08#8 s with
    grid := s.grid.writeSeq 0 (packGrid pay bytes)
    gridRows := BitVec.ofNat 32 (rowsNeeded pay.length bytes.length) }

theorem stageEncBits_runsIff {s : State} {tab : List CodeEntry} {x : List Symbol} (htab : s.validCodes = tab)
    (hx : s.validText = x) (hall : firstMissing tab x = none) :
    RunsIff (stageEncBits s) ((encodeText tab x).length ≤ s.params.maxBits) (s.ranBits 0x04#8 (encodeText tab x)) := by
  subst htab hx
  exact fun _ => (runStage_running.trans bodyEncBits_ok).trans (and_iff_right hall)

theorem stagePad_runsIff {s : State} {b : Bitstring} (hb : s.validBits = b) :
    RunsIff (stagePad s) ((padBits b).length ≤ s.params.maxBits) (s.ranPad b) := by
  subst hb
  have hlen := padBits_valid_length s
  rw [State.ranPad, State.ranBits, hlen, validBits_length]
  exact fun _ => runStage_running.trans bodyPad_ok

theorem stageToBytes_runsIff {s : State} {b : Bitstring} (hb : s.validBits = b) (hmod : b.length % 8 = 0) :
    RunsIff (stageToBytes s) ((bytesOf b).length ≤ s.params.maxPayload) (s.ranToBytes (bytesOf b)) := by
  subst hb
  rw [validBits_length] at hmod
  rw [State.ranToBytes, bytesOf_valid_length hmod]
  exact fun _ => (runStage_running.trans bodyToBytes_ok).trans (and_iff_right hmod)

theorem stageSerTable_runsIff {s : State} {tab : List CodeEntry} (htab : s.validCodes = tab) :
    RunsIff (stageSerTable s) ((serialize s.params tab).length ≤ s.params.maxTable)
      (s.ranSerTable (serialize s.params tab)) := by
  subst htab
  exact fun _ => runStage_running.trans bodySerTable_ok

theorem stageGridPack_runsIff {s : State} {pay bytes : List Byte} (hpay : s.validPayload = pay)
    (hbytes : s.validTable = bytes) :
    RunsIff (stageGridPack s) (pay.length < 4228250625 ∧ bytes.length < 4228250625 ∧
      rowsNeeded pay.length bytes.length ≤ s.params.maxRows) (s.ranGridPack pay bytes) := by
  subst hpay hbytes
  rw [State.ranGridPack, validPayload_length, validTable_length]
  refine fun _ => (runStage_running.trans bodyGridPack_ok).trans ?_
  rw [and_assoc, and_assoc]
  rfl

/-! ### COMPRESS -/

/-- The text of `s` in the codes that COMPRESS makes for it. -/
def State.codeBits (s : State) : Bitstring := encodeText s.codeTable s.validText

/-- The payload COMPRESS makes of the text of `s`. -/
abbrev State.payloadBytes (s : State) : List Byte := bytesOf (padBits s.codeBits)

/-- The serialized code table COMPRESS makes of the text of `s`. -/
abbrev State.tableBytes (s : State) : List Byte := serialize s.params s.codeTable

/-- The capacities hold what COMPRESS makes of the text of `s`. -/
structure State.Compressible (s : State) : Prop where
  encodable : s.Encodable
  bits : (padBits s.codeBits).length ≤ s.params.maxBits
  payload : s.payloadBytes.length ≤ s.params.maxPayload
  table : s.tableBytes.length ≤ s.params.maxTable
  tableLimit : s.tableBytes.length < 4228250625
  rows : rowsNeeded s.payloadBytes.length s.tableBytes.length ≤ s.params.maxRows

/-- `s` after the stages of COMPRESS before GRID_PACK. -/
abbrev State.serialized (s : State) : State :=
  s.encoded |>.ranBits 0x04#8 s.codeBits |>.ranPad s.codeBits |>.ranToBytes s.payloadBytes
    |>.ranSerTable s.tableBytes

/-- `s` after the eight stages of COMPRESS. -/
abbrev State.compressed (s : State) : State := s.serialized.ranGridPack s.payloadBytes s.tableBytes

theorem payloadBytes_length (s : State) : 8 * s.payloadBytes.length = (padBits s.codeBits).length :=
  bytesOf_padBits_length _

theorem payloadBytes_lt {s : State} (hwf : s.params.wf) (hbits : (padBits s.codeBits).length ≤ s.params.maxBits) :
    s.payloadBytes.length < 4228250625 := by
  obtain ⟨-, -, -, ⟨-, hmaxBits⟩, -⟩ := hwf
  have hlen := payloadBytes_length s
  omega

/-- The first three stages run on exactly when the text is not empty and its distinct symbols fit: BUILD_TREE finds an
entry in FREQ, and GEN_CODES always finds a tree. -/
theorem encoded_runsIff {s : State} (hwf : s.params.wf) : RunsIff
    ((stageAnalyze s).andThen stageBuildTree |>.andThen stageGenCodes) s.Encodable s.encoded := by
  have hiff : s.Encodable ↔ s.validText.eraseDups.length ≤ s.params.maxSyms ∧ s.ranAnalyze.freqN ≠ 0#32 := by
    refine ⟨fun h => ⟨h.fits, h.freqN_ne⟩, fun ⟨hfits, hn⟩ => ⟨hwf, Nat.pos_of_ne_zero fun h0 => hn ?_, hfits⟩⟩
    have hnil : s.validText = [] := List.length_eq_zero_iff.1 ((validText_length s).trans h0)
    simp [hnil, tableOf]
  have htreed := (stageAnalyze_runsIff s).andThen fun _ => stageBuildTree_runsIff s.ranAnalyze
  refine RunsIff.congr ((htreed.congr hiff.symm).andThen fun h => ?_) (and_iff_left trivial)
  exact stageGenCodes_runsIff h.treeShape.nodeN_ne h.codesOfTree_eq

theorem encoded_validCodes {s : State} (h : s.Encodable) : s.encoded.validCodes = s.codeTable := by
  have hlt := h.distinct_lt
  exact memRead_written (by rw [h.codesOf.length]; omega)

/-- COMPRESS runs all its stages exactly on the compressible states. -/
theorem compressChain_runsIff {s : State} (hwf : s.params.wf) :
    RunsIff (compressChain s) s.Compressible s.compressed := by
  obtain ⟨-, -, -, ⟨-, hmaxBits⟩, ⟨-, hmaxPay⟩, ⟨-, hmaxTab⟩, -⟩ := id hwf
  have lt_word : ∀ {n cap : Nat}, cap ≤ 2 ^ 32 - 1 → n ≤ cap → n < 2 ^ 32 := by omega
  have hencBits := (encoded_runsIff hwf).andThen (D := s.codeBits.length ≤ s.params.maxBits)
    (w := s.encoded.ranBits 0x04#8 s.codeBits) fun h =>
      stageEncBits_runsIff (encoded_validCodes h) rfl h.firstMissing_eq_none
  have hpad := hencBits.andThen (D := (padBits s.codeBits).length ≤ s.params.maxBits)
    (w := (s.encoded.ranBits 0x04#8 s.codeBits).ranPad s.codeBits) fun ⟨_, hbits⟩ =>
      stagePad_runsIff (ranBits_validBits _ _ (lt_word hmaxBits hbits))
  have htoBytes := hpad.andThen (D := s.payloadBytes.length ≤ s.params.maxPayload)
    (w := ((s.encoded.ranBits 0x04#8 s.codeBits).ranPad s.codeBits).ranToBytes s.payloadBytes) fun ⟨_, hbits⟩ =>
      stageToBytes_runsIff (ranBits_validBits _ _ (lt_word hmaxBits hbits)) (padBits_mod s.codeBits)
  have hser := htoBytes.andThen (D := s.tableBytes.length ≤ s.params.maxTable) (w := s.serialized)
    fun ⟨⟨⟨h, _⟩, _⟩, _⟩ => stageSerTable_runsIff (encoded_validCodes h)
  have hgrid := hser.andThen (w := s.compressed) fun ⟨⟨_, hpay⟩, htab⟩ => stageGridPack_runsIff (s := s.serialized)
    (memRead_written (lt_word hmaxPay hpay)) (memRead_written (lt_word hmaxTab htab))
  refine hgrid.congr ⟨?_, ?_⟩
  · rintro ⟨⟨⟨⟨⟨h, -⟩, hbits⟩, hpay⟩, htab⟩, -, hlimit, hrows⟩
    exact ⟨h, hbits, hpay, htab, hlimit, hrows⟩
  · rintro ⟨h, hbits, hpay, htab, hlimit, hrows⟩
    have hlen := padBits_length s.codeBits
    have hcode : s.codeBits.length ≤ s.params.maxBits := by omega
    exact ⟨⟨⟨⟨⟨h, hcode⟩, hbits⟩, hpay⟩, htab⟩, payloadBytes_lt hwf hbits, hlimit, hrows⟩

end Sys2Proof.Machine
end

section
/-! PROOFS. What COMPRESS succeeds on (45_pipeline_and_control.md R202, 41_huffman_encoder.md R131), and that DECOMPRESS
takes its grid back (45_pipeline_and_control.md R204). -/

namespace Sys2Proof.Machine

/-! ### The sizes of what COMPRESS makes (41_huffman_encoder.md R131) -/

/-- A sum of numbers within bounds. -/
theorem sum_map_bounds {α : Type} {l : List α} {f : α → Nat} {lo hi : Nat} (h : ∀ a ∈ l, lo ≤ f a ∧ f a ≤ hi) :
    l.length * lo ≤ (l.map f).sum ∧ (l.map f).sum ≤ l.length * hi := by
  have hmap : ∀ y ∈ l.map f, lo ≤ y ∧ y ≤ hi := List.forall_mem_map.2 h
  constructor
  · simpa using List.card_nsmul_le_sum (l.map f) lo fun y hy => (hmap y hy).1
  · simpa using List.sum_le_card_nsmul (l.map f) hi fun y hy => (hmap y hy).2

/-- A text is coded in as many bits as its symbols' codes may have. -/
theorem encodeText_length_bounds {tab : List CodeEntry} {x : List Symbol} {lo hi : Nat}
    (hall : firstMissing tab x = none) (h : ∀ e ∈ tab, lo ≤ e.code.length ∧ e.code.length ≤ hi) :
    x.length * lo ≤ (encodeText tab x).length ∧ (encodeText tab x).length ≤ x.length * hi := by
  obtain ⟨es, hmem, rfl, hcode⟩ := encodeText_entries hall
  rw [hcode, List.length_flatten, List.map_map, List.length_map]
  exact sum_map_bounds fun e he => h e (hmem e he)

/-- The most bits a code of COMPRESS can have (41_huffman_encoder.md R131). -/
abbrev State.longestCode (s : State) : Nat := max 1 (s.validText.eraseDups.length - 1)

/-- The most bits the padded codes of the text can take. -/
abbrev State.bitsMax (s : State) : Nat := s.textLen.toNat * s.longestCode + 16

/-- The most bytes the records of the code table can take. -/
abbrev State.tableMax (s : State) : Nat :=
  s.validText.eraseDups.length * (2 + (s.longestCode + 7) / 8 + s.params.symBytes)

namespace State.Encodable

variable {s : State} (h : s.Encodable)
include h

theorem codeBits_length :
    s.textLen.toNat ≤ s.codeBits.length ∧ s.codeBits.length ≤ s.textLen.toNat * s.longestCode := by
  have hbounds := encodeText_length_bounds h.firstMissing_eq_none h.codesOf.codeLength
  rwa [validText_length, Nat.mul_one] at hbounds

theorem tableBytes_length :
    3 + s.params.symBytes ≤ s.tableBytes.length ∧ s.tableBytes.length ≤ s.tableMax := by
  have hpos := h.distinct_pos
  have hrecord : ∀ e ∈ s.codeTable, 3 + s.params.symBytes ≤ 2 + ceilDiv e.code.length 8 + s.params.symBytes ∧
      2 + ceilDiv e.code.length 8 + s.params.symBytes ≤
        2 + (s.longestCode + 7) / 8 + s.params.symBytes := fun e he => by
    have hlen := h.codesOf.codeLength e he
    unfold ceilDiv State.longestCode
    omega
  obtain ⟨hlo, hhi⟩ := sum_map_bounds hrecord
  rw [h.codesOf.length, ← serialize_length] at hlo hhi
  exact ⟨(Nat.le_mul_of_pos_left _ hpos).trans hlo, hhi⟩

/-- A table of at most 65536 records stays below the limit of the header. -/
theorem tableBytes_lt : s.tableBytes.length < 4228250625 := by
  obtain ⟨⟨-, hsymBytes⟩, -, ⟨-, -, hmaxSyms⟩, -⟩ := h.params
  have hfits := h.fits
  calc s.tableBytes.length ≤ s.tableMax := h.tableBytes_length.2
    _ ≤ 65536 * 8198 := Nat.mul_le_mul (by omega) (by unfold State.longestCode; omega)
    _ < 4228250625 := by decide

theorem compressible (hbits : s.bitsMax ≤ s.params.maxBits) (hpay : s.bitsMax / 8 ≤ s.params.maxPayload)
    (htab : s.tableMax ≤ s.params.maxTable) (hrows : (s.bitsMax / 8 + s.tableMax + 8) / 9 + 1 ≤ s.params.maxRows) :
    s.Compressible := by
  have hbitsMax : s.bitsMax = s.textLen.toNat * s.longestCode + 16 := rfl
  have hcode := h.codeBits_length.2
  have hpad := padCount_pos s.codeBits.length
  have hpadLen := padBits_length s.codeBits
  have hpayLen := payloadBytes_length s
  have htabLen := h.tableBytes_length.2
  refine ⟨h, by omega, by omega, by omega, h.tableBytes_lt, ?_⟩
  rw [rowsNeeded_eq]
  omega

end State.Encodable

/-! ### What COMPRESS leaves (45_pipeline_and_control.md R202) -/

theorem compressed_padcnt_toNat (s : State) : s.compressed.padcnt.toNat = padCount s.codeBits.length := by
  have hpad := padCount_pos s.codeBits.length
  exact (BitVec.toNat_ofNat _ 8).trans (Nat.mod_eq_of_lt (by omega))

namespace State.Compressible

variable {s : State} (h : s.Compressible)
include h

theorem codeN_toNat : s.compressed.codeN.toNat = s.validText.eraseDups.length := by
  have hlt := h.encodable.distinct_lt
  have hlen := h.encodable.codesOf.length
  exact (toNat_ofNat_of_lt (by omega)).trans hlen

theorem bitsLen_toNat : s.compressed.bitsLen.toNat = 8 * s.payloadBytes.length := by
  obtain ⟨-, -, -, ⟨-, hmaxBits⟩, -⟩ := h.encodable.params
  have hbits := h.bits
  exact (toNat_ofNat_of_lt (by omega)).trans (payloadBytes_length s).symm

theorem payLen_toNat : s.compressed.payLen.toNat = s.payloadBytes.length :=
  toNat_ofNat_of_lt ((payloadBytes_lt h.encodable.params h.bits).trans (by decide))

theorem tabLen_toNat : s.compressed.tabLen.toNat = s.tableBytes.length :=
  toNat_ofNat_of_lt (h.tableLimit.trans (by decide))

theorem gridRows_toNat :
    s.compressed.gridRows.toNat = rowsNeeded s.payloadBytes.length s.tableBytes.length := by
  obtain ⟨-, -, -, -, -, -, -, hmaxRows⟩ := h.encodable.params
  have hrows := h.rows
  exact toNat_ofNat_of_lt (by omega)

theorem payload_min : 2 ≤ s.payloadBytes.length := by
  have hlen := payloadBytes_length s
  have hpad := padCount_pos s.codeBits.length
  have hcode := h.encodable.codeBits_length.1
  have hpos := h.encodable.nonempty
  rw [padBits_length] at hlen
  omega

end State.Compressible

/-- Settles O39: codes of at most `max 1 (d - 1)` bits make BITS, PAYLOAD, TABLE and GRID no longer than the
capacities. -/
theorem compressCompletes : Obligations.CompressCompletes := by
  unfold Obligations.CompressCompletes
  intro s hwf hne d longest payMax tabMax hfits hbits hpay htab hrows
  have henc : s.Encodable := ⟨hwf, hne, hfits⟩
  have h := henc.compressible hbits hpay htab hrows
  have hpad := padCount_pos s.codeBits.length
  obtain ⟨-, -, hnodeN, hroot, -⟩ := henc.treeShape
  refine ⟨complete s.compressed, (compressChain_runsIff hwf).finish h, rfl, ?errcode, ?errinfo, ?stage, ?text,
    ?textLen, henc.freqN_toNat, hnodeN, hroot, h.codeN_toNat, ?lengths⟩
  case errcode => simp only [complete_errcode, startStage_errcode]
  case errinfo => simp only [complete_errinfo, startStage_errinfo]
  case stage => simp only [complete_stage, startStage_stage]
  case text => simp only [complete_text, startStage_text]
  case textLen => simp only [complete_textLen, startStage_textLen]
  case lengths =>
    rw [complete_padcnt, complete_payLen, complete_bitsLen, complete_tabLen, complete_gridRows,
      compressed_padcnt_toNat, h.payLen_toNat, h.bitsLen_toNat, h.tabLen_toNat, h.gridRows_toNat]
    exact ⟨hpad.1, hpad.2, h.payload_min, rfl, henc.tableBytes_length.1, rfl⟩

/-! ### DECOMPRESS takes the grid of COMPRESS back (45_pipeline_and_control.md R204) -/

namespace State.Compressible

variable {s : State} (h : s.Compressible)
include h

/-- The grid of COMPRESS is a container of the text's codes, on every core of the same parameters. -/
theorem hasContainer (hs : DataInv s) {u : State} (hparams : u.params = s.params)
    (hgrid : u.grid = s.compressed.grid) (hrows : u.gridRows = s.compressed.gridRows) :
    ∃ es : List CodeEntry, es.map CodeEntry.sym = s.validText ∧ u.HasContainer s.codeTable es := by
  obtain ⟨es, hmem, hsym, hcode⟩ := encodeText_entries h.encodable.firstMissing_eq_none
  have hbits : codedBits es = s.codeBits := hcode.symm
  have hpay : payloadOf es = s.payloadBytes := congrArg (fun b => bytesOf (padBits b)) hbits
  have hcodes := h.encodable.codesOf
  have hcap := h.encodable.fits
  obtain ⟨-, -, ⟨-, -, hmaxSyms⟩, -⟩ := h.encodable.params
  have htext : es.length = s.textLen.toNat := by rw [← validText_length, ← hsym, List.length_map]
  have hnodup : (s.codeTable.map CodeEntry.code).Nodup :=
    hcodes.prefixFree.imp fun {c d} hne heq => hne.1 (by rw [heq])
  have hentry : ∀ e ∈ s.codeTable, 1 ≤ e.code.length ∧ e.sym.toNat < 2 ^ s.params.symW := fun e he =>
    ⟨(hcodes.codeLength e he).1, hs.validText_symbolOk _ (h.encodable.sym_mem he)⟩
  refine ⟨es, hsym, ?_⟩
  constructor
  case params => exact hparams ▸ h.encodable.params
  case fits => exact hparams ▸ ⟨hentry, hnodup, hcodes.length.trans_le hcap⟩
  case codeLength => exact fun e he => by have := (hcodes.codeLength e he).2; omega
  case prefixFree => exact hcodes.prefixFree
  case entries => exact hmem
  case text => exact hparams ▸ htext.trans_le hs.text.fits
  case payload => rw [hpay, hparams]; exact h.payload
  case bits => rw [hbits, hparams]; exact h.bits
  case table => exact hparams ▸ h.table
  case tableLimit => exact hparams ▸ h.tableLimit
  case rows => rw [hrows, h.gridRows_toNat, hparams, hpay]
  case grid =>
    rw [hpay, hparams]
    refine holdsContainer_of_packGrid ?_
    unfold State.gridAt
    rw [hgrid]
    exact memRead_writeSeq _ _ _

end State.Compressible

/-- Settles O45: a COMPRESS that ends without a fault ran on a compressible state, and left its container in GRID. -/
theorem compressDecompressRoundTrip : Obligations.CompressDecompressRoundTrip := by
  unfold Obligations.CompressDecompressRoundTrip
  intro s t u hs _ ht herr hparams hgrid hrows
  obtain ⟨v, hv, rfl⟩ := compressChain_isChain.running_of_finish ht herr
  obtain ⟨h, rfl⟩ := (compressChain_runsIff hs.params v).1 hv
  rw [complete_grid] at hgrid
  rw [complete_gridRows] at hrows
  simp only [complete_params, startStage_params] at hparams
  obtain ⟨es, hsym, hu⟩ := h.hasContainer hs.data hparams hgrid hrows
  have htext := hu.validText.trans hsym
  refine ⟨complete (u.decompressed s.codeTable es), congrArg Progress.finish hu.decompressChain_eq, rfl, rfl, ?_,
    htext, rfl⟩
  exact BitVec.eq_of_toNat_eq (by rw [← validText_length, ← validText_length, ← htext]; rfl)

end Sys2Proof.Machine
end

section
/-! PROOFS. The composites as chains of commands (45_pipeline_and_control.md R200, R201, R203), COMPRESS of an empty
text, and the control commands (R205 to R207). -/

namespace Sys2Proof.Machine

/-! ### A chain of stages is a chain of commands -/

theorem andThen_assoc (p : Progress) (f g : State → Progress) :
    (p.andThen f).andThen g = p.andThen fun s => (f s).andThen g := by
  cases p <;> rfl

/-- The flags under which the engine runs a data command (30_encoding.md R92). -/
structure State.RunsData (s : State) : Prop where
  busy : s.status.busy = true
  done : s.status.done = false
  err : s.status.err = false

/-- Acceptance of the next command gives a state back that a stage has just left. -/
theorem State.RunsData.acceptedNext_complete {s : State} (h : s.RunsData) : (complete s).acceptedNext = s := by
  have hstatus : (complete s).status.accepted = s.status := by
    rw [complete_status, Status.accepted, Status.completed, ← h.busy, ← h.done]
  exact congrArg (fun f => { s with status := f }) hstatus

/-- A data command that runs on as a stage leaves the flags it ran under. -/
theorem IsStage.runsData {op : Byte} {body : State → Result} {s t : State} (hop : IsStage op body)
    (hle : op.toNat ≤ 0x0D) (h : s.RunsData) (ht : runStage op body s = .running t) : t.RunsData := by
  have hstatus := (hop.record_kept hle (runStage_running.1 ht)).status
  exact ⟨hstatus ▸ h.busy, hstatus ▸ h.done, hstatus ▸ h.err⟩

/-- From states in which the engine runs a data command, the commands `is` one after the other are the chain `p`. -/
def RunsAs (is : List Instr) (p : State → Progress) : Prop := ∀ s : State, s.RunsData → runChain is s = (p s).finish

theorem RunsAs.single (i : Instr) {p : State → Progress} (hi : exec i = fun s => (p s).finish := by rfl) :
    RunsAs [i] p :=
  fun _ _ => congrFun hi _

/-- A command in front of a chain: it hands its state on, accepted again, or its fault ends the chain. -/
theorem RunsAs.cons {j : Instr} {is : List Instr} {p : State → Progress} (hp : RunsAs (j :: is) p) (i : Instr)
    {body : State → Result} (hop : IsStage i.opcode body) (hle : i.opcode.toNat ≤ 0x0D := by decide)
    (hi : exec i = fun s => (runStage i.opcode body s).finish := by rfl) :
    RunsAs (i :: j :: is) fun s => (runStage i.opcode body s).andThen p := by
  intro s h
  have hexec : exec i s = (runStage i.opcode body s).finish := congrFun hi s
  dsimp only
  cases hs : runStage i.opcode body s with
  | running t =>
    have ht := hop.runsData hle h hs
    rw [hs] at hexec
    rw [runChain_cons hexec ht.err, ht.acceptedNext_complete]
    exact hp t ht
  | faulted t =>
    obtain ⟨c, n, -, rfl⟩ := runStage_faulted.1 hs
    simp [runChain, hexec, hs, Progress.finish, Progress.andThen]
  | stopped f => simp [runChain, hexec, hs, Progress.finish, Progress.andThen]

/-- A chain that stands with its first stages bracketed. -/
theorem RunsAs.congr {is : List Instr} {p q : State → Progress} (h : RunsAs is p) (hq : ∀ s, q s = p s) : RunsAs is q :=
  fun s hs => (h s hs).trans (congrArg Progress.finish (hq s).symm)

theorem compressChain_runsAs :
    RunsAs [.analyze, .buildTree, .genCodes, .encBits, .pad, .toBytes, .serTable, .gridPack] compressChain :=
  RunsAs.single .gridPack |>.cons .serTable .serTable |>.cons .toBytes .toBytes |>.cons .pad .pad
    |>.cons .encBits .encBits |>.cons .genCodes .genCodes |>.cons .buildTree .buildTree |>.cons .analyze .analyze
    |>.congr fun s => by simp only [compressChain, andThen_assoc]; rfl

theorem decompressChain_runsAs : RunsAs [.gridUnpack, .deserTable, .toBits, .unpad, .decBits] decompressChain :=
  RunsAs.single .decBits |>.cons .unpad .unpad |>.cons .toBits .toBits |>.cons .deserTable .deserTable
    |>.cons .gridUnpack .gridUnpack |>.congr fun s => by simp only [decompressChain, andThen_assoc]; rfl

/-- Settles O36. -/
theorem compressIsChain : Obligations.CompressIsChain := by
  unfold Obligations.CompressIsChain
  exact ⟨rfl, fun s hbusy hdone herr => (compressChain_runsAs s ⟨hbusy, hdone, herr⟩).symm⟩

/-- Settles O37. -/
theorem decompressIsChain : Obligations.DecompressIsChain := by
  unfold Obligations.DecompressIsChain
  exact ⟨rfl, fun s hbusy hdone herr => (decompressChain_runsAs s ⟨hbusy, hdone, herr⟩).symm⟩

/-! ### COMPRESS of an empty text (45_pipeline_and_control.md R201) -/

/-- A write of nothing changes no cell. -/
theorem Memory.writeSeq_nil {α : Type} (m : Memory α) : Memory.writeSeq m 0 [] = m := by
  simp [Memory.writeSeq, Memory.cells]

/-- `s` after the stage ANALYZE of an empty text. -/
abbrev State.ranAnalyzeEmpty (s : State) : State := { startStage 0x01#8 s with freqN := 0#32 }

theorem stageAnalyze_empty {s : State} (h : s.textLen = 0#32) : stageAnalyze s = .running s.ranAnalyzeEmpty := by
  have hnil : s.validText = [] := List.length_eq_zero_iff.1 (by rw [validText_length, h]; rfl)
  have hrun := (stageAnalyze_runsIff s).running (by simp [hnil])
  rwa [State.ranAnalyze, hnil, show tableOf [] = [] from rfl, Memory.writeSeq_nil] at hrun

theorem stageBuildTree_empty {s : State} (h : s.freqN = 0#32) :
    stageBuildTree s = .faulted (faultEnd s 0x02#8 0x02#8 0#32) :=
  runStage_faulted.2 ⟨.emptyInput, 0, if_pos h, rfl⟩

/-- Settles O38: ANALYZE runs on with FREQ_N 0, BUILD_TREE raises, and the fault ends the chain. -/
theorem compressEmptyTextFaults : Obligations.CompressEmptyTextFaults := by
  unfold Obligations.CompressEmptyTextFaults
  intro s h
  have hfault := stageBuildTree_empty (s := s.ranAnalyzeEmpty) rfl
  have hchain : compressChain s = .faulted (faultEnd s.ranAnalyzeEmpty 0x02#8 0x02#8 0#32) := by
    simp only [compressChain, stageAnalyze_empty h, hfault, Progress.andThen]
  exact congrArg Progress.finish hchain

/-! ### The control commands -/

/-- Settles O17: the body of NOP does nothing, and its word is dropped by a busy core as by one with `ERR = 1`. -/
theorem nopOnlyCompletes : Obligations.NopOnlyCompletes := by
  unfold Obligations.NopOnlyCompletes
  refine ⟨rfl, fun _ => rfl, fun s herr => ?_⟩
  cases hb : s.status.busy with
  | true => exact hostWrite_busy 0x00 _ hb
  | false => exact (hostWrite_idle .cmd _ hb rfl).trans (accept_dropped herr (by decide) (by decide))

/-- Settles O18. -/
theorem clrStatusReturnsFromFault : Obligations.ClrStatusReturnsFromFault := by
  unfold Obligations.ClrStatusReturnsFromFault
  exact ⟨rfl, fun _ => rfl, fun s hb => (hostWrite_idle .cmd _ hb rfl).trans (accept_latched hb (.inr (.inl rfl)))⟩

/-- Settles O19: the body of SOFT_RESET writes registers only, and its word is dropped by a busy core alone. -/
theorem softResetKeepsBuffers : Obligations.SoftResetKeepsBuffers := by
  unfold Obligations.SoftResetKeepsBuffers
  refine ⟨rfl, fun _ => rfl, fun s => ?_⟩
  cases hb : s.status.busy with
  | true => exact hostWrite_busy 0x00 _ hb
  | false => exact (hostWrite_idle .cmd _ hb rfl).trans (accept_latched hb (.inr (.inr rfl)))

end Sys2Proof.Machine
end

section
/-! PROOFS. The step of the machine (60_exceptions.md R234, R240): what it is for a busy and for an idle core, and that
in every state of the invariant it answers a next state and ends a running command (R241). -/

namespace Sys2Proof.Machine

/-! ### Which agent moves -/

theorem step_of_onlyWaits {s : State} (hb : s.status.busy = true) (hw : onlyWaits s) : step s = engineStep s := by
  unfold step turnStep
  rw [hb]
  rcases hi : s.inbox with - | ⟨a, rest⟩
  · rfl
  · obtain rfl : a = .wait := by simpa [onlyWaits, hi] using hw
    rfl

theorem exists_action_of_not_onlyWaits {s : State} (h : ¬ onlyWaits s) :
    ∃ a rest, s.inbox = a :: rest ∧ a ≠ .wait := by
  cases hi : s.inbox with
  | nil => exact absurd (.inl hi) h
  | cons a rest => exact ⟨a, rest, rfl, fun ha => h (.inr (by simp [hi, ha]))⟩

theorem step_of_contended {s : State} {a : HostAction} {rest : List HostAction} (hb : s.status.busy = true)
    (hi : s.inbox = a :: rest) (ha : a ≠ .wait) :
    step s = if Config.engineFirst s.turn then engineStep { s with turn := s.turn + 1 }
      else .next (busyHostTurn a rest s) := by
  unfold step turnStep
  rw [hb, hi]
  cases a with
  | wait => exact absurd rfl ha
  | read _ | write _ _ | reset => rfl

theorem step_of_idle_nil {s : State} (hb : s.status.busy = false) (hi : s.inbox = []) : step s = .next s := by
  unfold step turnStep
  rw [hb, hi]

theorem step_of_idle_cons {s : State} {a : HostAction} {rest : List HostAction} (hb : s.status.busy = false)
    (hi : s.inbox = a :: rest) : step s = settle (hostAct a { s with inbox := rest }) := by
  unfold step turnStep
  rw [hb, hi]
  rfl

/-! ### The engine step -/

theorem engineStep_legal {s : State} {i : Instr} (hi : decode s.cmdLatch = .ok i) : engineStep s = exec i s := by
  simp only [engineStep, hi]

/-- `s` after the fault IllegalCommand of its latched word (R224). -/
abbrev State.illegalFault (s : State) : State :=
  { s with errcode := 0x01#8, errinfo := s.cmdLatch, status := { s.status with busy := false, err := true } }

theorem engineStep_illegal {s : State} (h : ¬ commandWordWf s.cmdLatch) : engineStep s = .next s.illegalFault := by
  unfold engineStep
  split
  · next i hi => exact absurd ((commandWordWf_iff _).2 ⟨i, hi⟩) h
  · rw [raiseFault, saturate_toNat]
    rfl

/-- Settles O1. -/
theorem stepRunsLatchedCommand : Obligations.StepRunsLatchedCommand := by
  unfold Obligations.StepRunsLatchedCommand
  intro s i hb hi
  refine ⟨fun hw => (step_of_onlyWaits hb hw).trans (engineStep_legal hi), fun a rest hin ha => ?_⟩
  rw [step_of_contended hb hin ha, engineStep_legal (s := { s with turn := s.turn + 1 }) hi]
  rfl

/-- Settles O2: the words CLR_STATUS and SOFT_RESET, which `ERR = 1` lets pass, are legal. -/
theorem illegalWordFaults : Obligations.IllegalWordFaults := by
  unfold Obligations.IllegalWordFaults
  refine ⟨fun s hb hl =>
    ⟨fun hw => (step_of_onlyWaits hb hw).trans (engineStep_illegal hl), fun a rest hin ha => ?_⟩, fun s w hl herr => ?_⟩
  · rw [step_of_contended hb hin ha, engineStep_illegal (s := { s with turn := s.turn + 1 }) hl]
    rfl
  · cases hb : s.status.busy with
    | true => exact hostWrite_busy 0x00 w hb
    | false =>
      have hclr : w ≠ 0x1E#32 := fun h => hl (h ▸ by decide)
      have hrst : w ≠ 0x1F#32 := fun h => hl (h ▸ by decide)
      exact (hostWrite_idle .cmd w hb rfl).trans (accept_dropped herr hclr hrst)

/-! ### The idle core -/

theorem hostRead_replies (off : Nat) (s : State) : (hostRead off s).2.replies = s.replies := by
  unfold hostRead
  split
  · split <;> rfl
  · cases regAt off with
    | none => rfl
    | some r => cases r <;> rfl

theorem settle_of_not_both {s : State} (h : ¬ (s.status.busy = true ∧ s.status.err = true)) : settle s = .next s :=
  if_neg h

section
variable {s : State} {a : HostAction} {rest : List HostAction} (hb : s.status.busy = false) (hi : s.inbox = a :: rest)
include hb hi

theorem step_of_idle_settled (h : ¬ ((hostAct a { s with inbox := rest }).status.busy = true ∧
    (hostAct a { s with inbox := rest }).status.err = true)) : step s = .next (hostAct a { s with inbox := rest }) :=
  (step_of_idle_cons hb hi).trans (settle_of_not_both h)

/-- The host's action is the whole step, unless it is a write of CLR_STATUS or SOFT_RESET with `ERR = 1`. -/
theorem step_of_idle_action (ha : ∀ w, a = .write 0x00 w → (w = 0x1E#32 ∨ w = 0x1F#32) → s.status.err = false) :
    step s = .next (hostAct a { s with inbox := rest }) := by
  refine step_of_idle_settled hb hi fun ⟨hbusy, herr⟩ => ?_
  obtain ⟨w, hact, hw, hserr, -⟩ := hostAct_busy_err (s := { s with inbox := rest }) hb hbusy herr
  exact absurd (hserr.symm.trans (ha w hact hw)) (by decide)

end

/-- An idle core with `ERR = 1` takes a word that clears the fault and runs it at once (log entry 8). -/
theorem settle_clearing {s : State} {w : Word} {i : Instr} (hb : s.status.busy = false) (herr : s.status.err = true)
    (hw : w = 0x1E#32 ∨ w = 0x1F#32) (hi : decode w = .ok i) :
    settle (hostWrite 0x00 w s) = exec i (hostWrite 0x00 w s) := by
  rw [hostWrite_idle .cmd w hb rfl, regWrite, accept_latched hb (.inr hw)]
  exact (if_pos ⟨rfl, herr⟩).trans (engineStep_legal hi)

/-- Settles O3: BUSY and ERR are both 1 after a host action only where a command that clears a fault was accepted. -/
theorem idleCoreServesHost : Obligations.IdleCoreServesHost := by
  unfold Obligations.IdleCoreServesHost
  intro s hb
  refine ⟨step_of_idle_nil hb, fun a rest => step_of_idle_settled hb, fun off rest hi => ?_,
    fun off v rest hi hv => ?_, fun rest hi herr => ?_, fun rest hi herr => ?_, fun rest hi => ?_, fun rest hi => ?_⟩
  · rw [step_of_idle_action hb hi nofun, hostAct, reply, hostRead_replies]
  · refine step_of_idle_action hb hi fun w hact hw => ?_
    cases hact
    rcases hv with hoff | herr | ⟨hclr, hrst⟩
    · exact absurd rfl hoff
    · exact herr
    · exact absurd hw (not_or.2 ⟨hclr, hrst⟩)
  · exact (step_of_idle_cons hb hi).trans (settle_clearing hb herr (.inl rfl) rfl)
  · exact (step_of_idle_cons hb hi).trans (settle_clearing hb herr (.inr rfl) rfl)
  · rw [step_of_idle_action hb hi nofun, hostAct, hostRead_statusOffset]
    rfl
  · exact step_of_idle_action hb hi nofun

/-! ### No state of the invariant stops the model -/

/-- GEN_CODES finds its code table in every tree. -/
theorem bodyGenCodes_ne_stuck {s : State} (htree : s.treeOk) (f : Fault) : bodyGenCodes s ≠ .stuck f := by
  unfold bodyGenCodes
  split
  · nofun
  · next hn =>
    obtain ⟨n, hshape⟩ := htree.treeShape hn
    obtain ⟨tab, htab, -⟩ := hshape.codesOfTree_spec
    rw [htab]
    nofun

theorem ite_ne_stuck {c : Prop} [Decidable c] {r r' : Result} {f : Fault} (hr : r ≠ .stuck f)
    (hr' : r' ≠ .stuck f) : (if c then r else r') ≠ .stuck f := by
  split
  · exact hr
  · exact hr'

/-- No stage stops the model where TREE is a tree or absent: every body but that of GEN_CODES ends well or raises. -/
theorem IsStage.ne_stuck {op : Byte} {body : State → Result} (hop : IsStage op body) {s : State} (htree : s.treeOk)
    (f : Fault) : body s ≠ .stuck f := by
  cases hop with
  | genCodes => exact bodyGenCodes_ne_stuck htree f
  | nop | clrStatus | softReset => nofun
  | analyze => unfold bodyAnalyze; split <;> nofun
  | buildTree => exact ite_ne_stuck nofun nofun
  | encBits =>
    unfold bodyEncBits
    split
    · nofun
    · exact ite_ne_stuck nofun nofun
  | pad => exact ite_ne_stuck nofun nofun
  | toBytes => exact ite_ne_stuck nofun (ite_ne_stuck nofun nofun)
  | serTable => exact ite_ne_stuck nofun nofun
  | gridPack => exact ite_ne_stuck nofun (ite_ne_stuck nofun (ite_ne_stuck nofun nofun))
  | gridUnpack =>
    refine ite_ne_stuck nofun (ite_ne_stuck nofun ?_)
    split
    · nofun
    · exact ite_ne_stuck nofun (ite_ne_stuck nofun (ite_ne_stuck nofun nofun))
  | deserTable => unfold bodyDeserTable; split <;> nofun
  | toBits => exact ite_ne_stuck nofun nofun
  | unpad => exact ite_ne_stuck nofun (ite_ne_stuck nofun nofun)
  | decBits => exact ite_ne_stuck nofun nofun

theorem IsStage.not_stopped {op : Byte} {body : State → Result} (hop : IsStage op body) {s : State} (htree : s.treeOk)
    (f : Fault) : runStage op body s ≠ .stopped f :=
  fun h => hop.ne_stuck (s := startStage op s) htree f (runStage_stopped.1 h)

/-- Each stage of a chain starts from a state of the invariant's data part, so from a tree or none. -/
theorem IsChain.not_stopped {p : State → Progress} (hp : IsChain p) {s : State} (hs : DataInv s) (f : Fault) :
    p s ≠ .stopped f := by
  induction hp with
  | stage hop => exact hop.not_stopped hs.treeOk f
  | andThen hp hop ih =>
    intro h
    rcases andThen_stopped.1 h with h | ⟨u, hu, h⟩
    · exact ih h
    · exact hop.not_stopped (hp.running dataInv_dataInvariant.stages hs hu).treeOk f h

theorem DataInv.exec_next {s : State} (hs : DataInv s) (i : Instr) : ∃ t, exec i s = .next t := by
  obtain ⟨p, hp, he⟩ := exec_chain i
  simp only [he]
  cases h : p s with
  | running t | faulted t => exact ⟨_, rfl⟩
  | stopped f => exact absurd h (hp.not_stopped hs f)

theorem DataInv.engineStep_next {s : State} (hs : DataInv s) : ∃ t, engineStep s = .next t := by
  unfold engineStep
  split
  · exact hs.exec_next _
  · exact ⟨_, rfl⟩

theorem DataInv.settle_next {s : State} (hs : DataInv s) : ∃ t, settle s = .next t := by
  unfold settle
  split
  · exact hs.engineStep_next
  · exact ⟨_, rfl⟩

theorem DataInv.step_next {s : State} (hs : DataInv s) : ∃ t, step s = .next t := by
  cases hb : s.status.busy with
  | false =>
    cases hi : s.inbox with
    | nil => exact ⟨s, step_of_idle_nil hb hi⟩
    | cons a rest =>
      rw [step_of_idle_cons hb hi]
      exact (dataInv_dataInvariant.hostAct a (dataOnly_dataInv.setInbox rest hs)).settle_next
  | true =>
    by_cases hw : onlyWaits s
    · rw [step_of_onlyWaits hb hw]
      exact hs.engineStep_next
    · obtain ⟨a, rest, hi, ha⟩ := exists_action_of_not_onlyWaits hw
      rw [step_of_contended hb hi ha]
      split
      · exact (dataOnly_dataInv.setTurn _ hs).engineStep_next
      · exact ⟨_, rfl⟩

/-! ### Every command ends -/

/-- The engine step leaves BUSY at 0 and exactly one of DONE and ERR at 1: a command completes or takes a fault. -/
theorem RunningOk.engineStep_ends {s t : State} (h : RunningOk s) (ht : Machine.engineStep s = .next t) :
    t.status.busy = false ∧ t.status.done = !t.status.err := by
  have raised {u : State} (hu : RunningOk u) (c : Cause) (n : Nat) :
      (Machine.raiseFault c n u).status.busy = false ∧
        (Machine.raiseFault c n u).status.done = !(Machine.raiseFault c n u).status.err := by
    simp [hu.done]
  unfold Machine.engineStep at ht
  split at ht
  · obtain ⟨u, hu, rfl | ⟨c, n, rfl⟩⟩ := exec_end runningOk_kept h ht
    · simp [hu.err]
    · exact raised hu c n
  · cases ht
    exact raised h _ _

/-- Settles O54: only GEN_CODES can stop the model, and in no state of the invariant; a running command starts with DONE
and ERR at 0, and sets one of them at its end. -/
theorem everyCommandEnds : Obligations.EveryCommandEnds := by
  unfold Obligations.EveryCommandEnds
  intro s h
  obtain ⟨t, ht⟩ := h.data.step_next
  refine ⟨t, ht, fun hb hw => ?_⟩
  rw [step_of_onlyWaits hb hw] at ht
  exact (h.recordOk.running hb).engineStep_ends ht

end Sys2Proof.Machine
end
